-- ==== Sys2Proof/Word.lean ====
section
/-! DEFINITION. The word types of the block: every register word and datapath word is 32 bits (00_scope.md R16);
every value is unsigned (R19). -/

namespace Sys2Proof

/-- A register word or datapath word (R16). Listener handles and callback values are words; 0 is null. -/
abbrev Word := BitVec 32

/-- A payload byte, a PRIORITY, a LENGTH, an enable-pin identifier or a mailbox number on the driver port. -/
abbrev Byte := BitVec 8

/-- A listener's activation mask: at most NUM_FILTERS + 1 = 33 bits (R12, 10_state.md R43). The bits above
bit NUM_FILTERS are 0 in every mask (an invariant, `Machine.State.Inv`). -/
abbrev Mask := BitVec 33

end Sys2Proof
end

