-- ==== Sys2Proof/Config.lean ====
section
/-! DEFINITION. The constants of the block and the parameters of one instance of it (00_scope.md section 3). -/

namespace Sys2Proof

/-- The order of the two installs of WATCH_ALL (R17). -/
inductive WatchAllOrder where
  /-- The standard-ID filter first: the spec's value (R17). -/
  | stdFirst
  /-- The extended-ID filter first: the other value a model may take (R17). -/
  | extFirst
deriving DecidableEq, Repr

/-- The parameters of one instance, fixed for the life of the block (R3, R12, R17, 20_memory.md R72). -/
structure Params where
  /-- NUM_FILTERS, the number of mailboxes: 1 to 32 (R12); read by hosts as NUMFILT (10_state.md R42). -/
  numFilters : Nat
  /-- WATCH_ALL_ORDER (R17). -/
  watchAllOrder : WatchAllOrder
  /-- BLOCK_BASE, the block's base in the hosts' address space (20_memory.md R72). -/
  blockBase : Nat
deriving DecidableEq, Repr

namespace Config

/-- SIZE_LISTENERS (R11). -/
abbrev sizeListeners : Nat := 4

/-- STD_MASK, and the largest standard ID (R13). -/
abbrev stdMask : Word := 0x7FF

/-- EXT_MASK (R13). -/
abbrev extMask : Word := 0x1FFFFFFF

/-- CLASSIC_CAP (R14). -/
abbrev classicCap : Nat := 8

/-- FD_CAP (R14). -/
abbrev fdCap : Nat := 64

/-- ENPIN_UNUSED (R15). -/
abbrev enPinUnused : Byte := 255

/-- One less than NUM_FILTERS: a free value, so that NUM_FILTERS is any number from 1 to 32 (R12; log entry 3). -/
opaque numFiltersLessOne : Fin 32

/-- NUM_FILTERS of the instance that `State.reset` is (R12). -/
def numFilters : Nat := numFiltersLessOne.val + 1

/-- BLOCK_BASE of the instance that `State.reset` is: a free value, the platform's (20_memory.md R72; log entry 3). -/
opaque blockBase : Nat

/-- WATCH_ALL_ORDER of the instance that `State.reset` is: the spec's value (R17). -/
def watchAllOrder : WatchAllOrder := .stdFirst

/-- The parameters of the instance that `State.reset` is. -/
def params : Params :=
  { numFilters := numFilters, watchAllOrder := watchAllOrder, blockBase := blockBase }

end Config
end Sys2Proof
end

