-- ==== Sys2Proof/Syntax.lean ====
section
/-! DEFINITION. The 27 commands of the block (30_encoding.md R88), one constructor per row of the opcode table. -/

namespace Sys2Proof

/-- A command. `n` is the mailbox index, `w[15:8]` (R85); `x` is the extended flag, `w[16]` (R86). Every other operand
comes from the issuing port's registers (R87, R89). -/
inductive Instr where
  /-- WATCH_ALL (R103). -/
  | watchAll
  /-- WATCH_ID (R104). -/
  | watchId
  /-- WATCH_IDMASK (R105). -/
  | watchIdMask
  /-- WATCH_RANGE (R106). -/
  | watchRange
  /-- SETFILTER (R110). -/
  | setFilter (x : Bool)
  /-- SETFILTER_MB (R111). -/
  | setFilterMb (n : Nat) (x : Bool)
  /-- L_ATTACH (R116). -/
  | lAttach
  /-- L_DETACH (R117). -/
  | lDetach
  /-- L_MBON (R118). -/
  | lMbOn (n : Nat)
  /-- L_MBOFF (R119). -/
  | lMbOff (n : Nat)
  /-- L_GENON (R120). -/
  | lGenOn
  /-- L_GENOFF (R121). -/
  | lGenOff
  /-- L_ACTIVE (R122). -/
  | lActive (n : Nat)
  /-- SEND (R131). -/
  | send
  /-- SENDFD (R132). -/
  | sendFd
  /-- RECV (R133). -/
  | recv
  /-- RECVFD (R134). -/
  | recvFd
  /-- CB_SET (R138). -/
  | cbSet (n : Nat)
  /-- CB_CLR (R139). -/
  | cbClr (n : Nat)
  /-- CB_GSET (R140). -/
  | cbGSet
  /-- CB_GCLR (R141). -/
  | cbGClr
  /-- C2FD (R146). -/
  | c2fd
  /-- FD2C (R147). -/
  | fd2c
  /-- Q_FAULT (R150). -/
  | qFault
  /-- Q_RXFAULT (R151). -/
  | qRxFault
  /-- Q_TXFAULT (R152). -/
  | qTxFault
  /-- Q_FDCAP (R153). -/
  | qFdCap
deriving DecidableEq, Repr

end Sys2Proof
end

