-- ==== Sys2Proof/WellFormed.lean ====
section
/-! DEFINITION. Which terms of `Instr` are commands of the block: the mailbox index is an 8-bit field (00_scope.md R16,
30_encoding.md R84, R85). -/

namespace Sys2Proof

/-- The mailbox index fits its 8-bit field N (R84, R85). -/
def mailboxIndexFits (n : Nat) : Bool := decide (n < 256)

/-- The command has an encoding: each operand fits its field. -/
def Instr.wellFormed : Instr → Bool
  | .watchAll => true
  | .watchId => true
  | .watchIdMask => true
  | .watchRange => true
  | .setFilter _ => true
  | .setFilterMb n _ => mailboxIndexFits n
  | .lAttach => true
  | .lDetach => true
  | .lMbOn n => mailboxIndexFits n
  | .lMbOff n => mailboxIndexFits n
  | .lGenOn => true
  | .lGenOff => true
  | .lActive n => mailboxIndexFits n
  | .send => true
  | .sendFd => true
  | .recv => true
  | .recvFd => true
  | .cbSet n => mailboxIndexFits n
  | .cbClr n => mailboxIndexFits n
  | .cbGSet => true
  | .cbGClr => true
  | .c2fd => true
  | .fd2c => true
  | .qFault => true
  | .qRxFault => true
  | .qTxFault => true
  | .qFdCap => true

end Sys2Proof
end

