-- ==== Sys2Proof/Decode.lean ====
section
/-! DEFINITION. Decoding of command words, total on every 32-bit word (30_encoding.md R91, R94), and the encoder
(R84, R88). -/

namespace Sys2Proof

/-- Why a command word is illegal (R90, R91). -/
inductive DecodeError where
  /-- w[31:17] is not 0 (R91, 2). -/
  | reservedBits
  /-- w[7:0] is no assigned opcode (R90; R91, 1). -/
  | unassignedOpcode
  /-- w[15:8] is not 0 and the opcode has no mailbox operand (R91, 3). -/
  | mailboxField
  /-- w[16] is 1 and the opcode has no extended-flag operand (R91, 4). -/
  | extendedField
deriving DecidableEq, Repr

/-- The field OP, w[7:0] (R84). -/
def opField (w : Word) : Byte := w.extractLsb' 0 8

/-- The field N, w[15:8] (R84). -/
def nField (w : Word) : Byte := w.extractLsb' 8 8

/-- The field X, w[16] (R84). -/
def xField (w : Word) : Bool := w.getLsbD 16

/-- The field RSV, w[31:17] (R84). -/
def rsvField (w : Word) : BitVec 15 := w.extractLsb' 17 15

/-- A command whose N and X columns are both 0 (R88). -/
def formatPlain (i : Instr) (n : Byte) (x : Bool) : Except DecodeError Instr :=
  if n ≠ 0 then .error .mailboxField
  else if x then .error .extendedField
  else .ok i

/-- A command whose N column is "n" and X column is 0 (R88). -/
def formatN (i : Nat → Instr) (n : Byte) (x : Bool) : Except DecodeError Instr :=
  if x then .error .extendedField else .ok (i n.toNat)

/-- A command whose N column is 0 and X column is "x" (R88). -/
def formatX (i : Bool → Instr) (n : Byte) (x : Bool) : Except DecodeError Instr :=
  if n ≠ 0 then .error .mailboxField else .ok (i x)

/-- A command whose N column is "n" and X column is "x" (R88). -/
def formatNX (i : Nat → Bool → Instr) (n : Byte) (x : Bool) : Except DecodeError Instr :=
  .ok (i n.toNat x)

/-- The opcode map (R88); the opcodes it does not list are reserved (R90). -/
def decodeFields (op n : Byte) (x : Bool) : Except DecodeError Instr :=
  match op.toNat with
  | 0x10 => formatPlain .watchAll n x
  | 0x11 => formatPlain .watchId n x
  | 0x12 => formatPlain .watchIdMask n x
  | 0x13 => formatPlain .watchRange n x
  | 0x14 => formatX .setFilter n x
  | 0x15 => formatNX .setFilterMb n x
  | 0x20 => formatPlain .lAttach n x
  | 0x21 => formatPlain .lDetach n x
  | 0x22 => formatN .lMbOn n x
  | 0x23 => formatN .lMbOff n x
  | 0x24 => formatPlain .lGenOn n x
  | 0x25 => formatPlain .lGenOff n x
  | 0x26 => formatN .lActive n x
  | 0x30 => formatPlain .send n x
  | 0x31 => formatPlain .sendFd n x
  | 0x32 => formatPlain .recv n x
  | 0x33 => formatPlain .recvFd n x
  | 0x34 => formatN .cbSet n x
  | 0x35 => formatN .cbClr n x
  | 0x36 => formatPlain .cbGSet n x
  | 0x37 => formatPlain .cbGClr n x
  | 0x40 => formatPlain .c2fd n x
  | 0x41 => formatPlain .fd2c n x
  | 0x50 => formatPlain .qFault n x
  | 0x51 => formatPlain .qRxFault n x
  | 0x52 => formatPlain .qTxFault n x
  | 0x53 => formatPlain .qFdCap n x
  | _ => .error .unassignedOpcode

/-- Decoding of a write to P.CMD (R94): the command of a legal word, or why the word is illegal (R91). -/
def decode (w : Word) : Except DecodeError Instr :=
  if rsvField w ≠ 0 then .error .reservedBits else decodeFields (opField w) (nField w) (xField w)

/-- The word is a legal command word (R91). -/
def isLegal (w : Word) : Bool :=
  match decode w with
  | .ok _ => true
  | .error _ => false

/-- The command the decoder reads from a word whose bits are numbered as spec/opcode_table.json numbers them. A command
is one 32-bit word, the value written to P.CMD (R83), so no byte order enters; a row of the table has 32 bits. -/
def decodeTableWord (nbits w : Nat) : Option Instr :=
  if nbits ≤ 32 then
    match decode (BitVec.ofNat 32 w) with
    | .ok i => some i
    | .error _ => none
  else none

/-- The opcode of each command (R88). -/
def Instr.opcode : Instr → Byte
  | .watchAll => 0x10
  | .watchId => 0x11
  | .watchIdMask => 0x12
  | .watchRange => 0x13
  | .setFilter _ => 0x14
  | .setFilterMb _ _ => 0x15
  | .lAttach => 0x20
  | .lDetach => 0x21
  | .lMbOn _ => 0x22
  | .lMbOff _ => 0x23
  | .lGenOn => 0x24
  | .lGenOff => 0x25
  | .lActive _ => 0x26
  | .send => 0x30
  | .sendFd => 0x31
  | .recv => 0x32
  | .recvFd => 0x33
  | .cbSet _ => 0x34
  | .cbClr _ => 0x35
  | .cbGSet => 0x36
  | .cbGClr => 0x37
  | .c2fd => 0x40
  | .fd2c => 0x41
  | .qFault => 0x50
  | .qRxFault => 0x51
  | .qTxFault => 0x52
  | .qFdCap => 0x53

/-- The mailbox operand of a command, 0 where its N column is 0 (R88). -/
def Instr.mailbox : Instr → Nat
  | .watchAll => 0
  | .watchId => 0
  | .watchIdMask => 0
  | .watchRange => 0
  | .setFilter _ => 0
  | .setFilterMb n _ => n
  | .lAttach => 0
  | .lDetach => 0
  | .lMbOn n => n
  | .lMbOff n => n
  | .lGenOn => 0
  | .lGenOff => 0
  | .lActive n => n
  | .send => 0
  | .sendFd => 0
  | .recv => 0
  | .recvFd => 0
  | .cbSet n => n
  | .cbClr n => n
  | .cbGSet => 0
  | .cbGClr => 0
  | .c2fd => 0
  | .fd2c => 0
  | .qFault => 0
  | .qRxFault => 0
  | .qTxFault => 0
  | .qFdCap => 0

/-- The extended-flag operand of a command, false where its X column is 0 (R88). -/
def Instr.extendedFlag : Instr → Bool
  | .watchAll => false
  | .watchId => false
  | .watchIdMask => false
  | .watchRange => false
  | .setFilter x => x
  | .setFilterMb _ x => x
  | .lAttach => false
  | .lDetach => false
  | .lMbOn _ => false
  | .lMbOff _ => false
  | .lGenOn => false
  | .lGenOff => false
  | .lActive _ => false
  | .send => false
  | .sendFd => false
  | .recv => false
  | .recvFd => false
  | .cbSet _ => false
  | .cbClr _ => false
  | .cbGSet => false
  | .cbGClr => false
  | .c2fd => false
  | .fd2c => false
  | .qFault => false
  | .qRxFault => false
  | .qTxFault => false
  | .qFdCap => false

/-- The command word of a well-formed command: w = (15'b0, X, N[7:0], OP[7:0]), most significant first (R84). -/
def encode (i : Instr) : Word :=
  0#15 ++ BitVec.ofBool i.extendedFlag ++ BitVec.ofNat 8 i.mailbox ++ i.opcode

end Sys2Proof
end

