-- ==== Sys2Proof/Machine/State.lean ====
section
/-! DEFINITION. The state of the block as plain data (10_state.md), its reset value (section 7 of that file), and the
reasons a step can stop. -/

namespace Sys2Proof.Machine

/-! ## Ports and frames -/

/-- The two command ports (10_state.md R30). -/
inductive PortId where
  /-- Application context. -/
  | app
  /-- Interrupt context. -/
  | isr
deriving DecidableEq, Repr

/-- A classic frame (10_state.md R35). -/
structure ClassicFrame where
  id : Word
  fid : Word
  rtr : Bool
  priority : Byte
  ext : Bool
  timestamp : Word
  length : Byte
  data : Vector Byte 8
deriving DecidableEq, Repr

/-- An FD frame (10_state.md R36). -/
structure FdFrame where
  id : Word
  fid : Word
  rrs : Bool
  priority : Byte
  ext : Bool
  fdMode : Bool
  timestamp : Word
  length : Byte
  data : Vector Byte 64
deriving DecidableEq, Repr

/-- The frame whose every field is 0 (10_state.md R56). -/
def ClassicFrame.zero : ClassicFrame :=
  { id := 0, fid := 0, rtr := false, priority := 0, ext := false, timestamp := 0, length := 0,
    data := Vector.replicate 8 0 }

/-- The frame whose every field is 0 (10_state.md R56). -/
def FdFrame.zero : FdFrame :=
  { id := 0, fid := 0, rrs := false, priority := 0, ext := false, fdMode := false, timestamp := 0, length := 0,
    data := Vector.replicate 64 0 }

/-- The frame of a notification; the constructor is its format `fmt`, CLASSIC or FD (00_scope.md R23, 42_dispatch.md
R135). -/
inductive Frame where
  | classic (f : ClassicFrame)
  | fd (f : FdFrame)
deriving DecidableEq, Repr

/-- "frame received" or "frame sent" (00_scope.md R23). -/
inductive Kind where
  | rx
  | tx
deriving DecidableEq, Repr

/-- A notification on the listener port (00_scope.md R23, 10_state.md R54); `fmt` is the constructor of `frame`. -/
structure Notification where
  kind : Kind
  slot : Fin 4
  handle : Word
  frame : Frame
deriving DecidableEq, Repr

/-! ## The driver port -/

/-- A call on the driver port with its arguments (10_state.md R50). -/
inductive DrvCall where
  | setFilter (id mask : Word) (ext : Bool)
  | setFilterSpecific (mb : Byte) (id mask : Word) (ext : Bool)
  | sendRaw (f : ClassicFrame)
  | sendRawFD (f : FdFrame)
  | receiveRaw
  | receiveRawFD
deriving DecidableEq, Repr

/-- A driver's answer to a call (10_state.md R50): a status, an ok bit, or a count with a frame. -/
inductive DrvAnswer where
  | status (v : Word)
  | ok (b : Bool)
  | received (count : Word) (f : ClassicFrame)
  | receivedFD (count : Word) (f : FdFrame)
deriving DecidableEq, Repr

/-! ## The command sequencer -/

/-- The position of a command's next segment, with the command's local variables (10_state.md R47). -/
inductive Seg where
  /-- The command's first segment. -/
  | first
  /-- WATCH_ALL after its first status `s1` has been answered (40_filter_synthesizer.md R103). -/
  | secondInstall (s1 : Word)
  /-- After `sendRaw f` or `sendRawFD f` answered `ok` (42_dispatch.md R131, R132). -/
  | sent (f : Frame) (ok : Bool)
  /-- After `receiveRaw` or `receiveRawFD` answered `(count, f)` (42_dispatch.md R133, R134). -/
  | received (count : Word) (f : Frame)
  /-- The fan-out's segment of slot `i`, the command then to complete with `v` (42_dispatch.md R126). -/
  | slot (k : Kind) (f : Frame) (i : Fin 4) (v : Word)
  /-- The segment that is `complete(v)` (00_scope.md R26). -/
  | finish (v : Word)
deriving DecidableEq, Repr

/-- What follows the status of a filter call: WATCH_ALL's second install, or the command's last segment
(40_filter_synthesizer.md R100, R103). Calls of other kinds have `last`. -/
inductive AfterCall where
  | secondInstall
  | last
deriving DecidableEq, Repr

/-- A running command between two segments (10_state.md R47): its next segment is enabled (after issue, a `yield`, an
answer or an acknowledgement; 20_memory.md R75), or it has one suspension outstanding. -/
inductive Phase where
  /-- The next segment is enabled. -/
  | ready (g : Seg)
  /-- The driver call `c` awaits its answer. `tag` is the call's index in `State.out` (log entry 2); `fdcap` is
  FLAGS.FDCAP at the time of the call (R51(a); log entry 9). -/
  | call (tag : Nat) (c : DrvCall) (fdcap : Bool) (k : AfterCall)
  /-- The notification `n` awaits its acknowledgement; the command is to complete with `v`. `tag` is the notification's
  index in `State.out`. -/
  | notification (tag : Nat) (n : Notification) (v : Word)
deriving DecidableEq, Repr

/-- SEQ[P] (10_state.md R47): IDLE, or RUN with the latched command word. -/
inductive Seq where
  | idle
  | run (w : Word) (ph : Phase)
deriving DecidableEq, Repr

/-- The registers of one command port (10_state.md section 2) and its sequencer (section 5). P.CMD holds no value
(R32). -/
structure Port where
  /-- P.ARG0 (R31). -/
  arg0 : Word
  /-- P.ARG1 (R31). -/
  arg1 : Word
  /-- P.HANDLE (R31). -/
  handle : Word
  /-- P.RESULT (R33). -/
  result : Word
  /-- P.STATUS.BUSY (R34). -/
  busy : Bool
  /-- P.STATUS.ILLEGAL (R34). -/
  illegal : Bool
  /-- P.CF (R35). -/
  cf : ClassicFrame
  /-- P.FF (R36). -/
  ff : FdFrame
  /-- SEQ[P] (R47). -/
  seq : Seq
deriving DecidableEq, Repr

/-! ## Shared state -/

/-- FLAGS (10_state.md R40). -/
structure Flags where
  faulted : Bool
  rxFault : Bool
  txFault : Bool
  fdcap : Bool
deriving DecidableEq, Repr

/-- LMASK (10_state.md R43): the masks that are not 0, keyed by handle, handles strictly rising; a handle that is not
listed has mask 0. -/
abbrev MaskFile := List (Word × Mask)

/-- The sticky fault record of an execution (60_exceptions.md R161). -/
structure FaultRecord where
  illegalCommand : Bool
  badRegisterAccess : Bool
  lengthContract : Bool
deriving DecidableEq, Repr

/-! ## What the agents outside the block do, and what the block shows them -/

/-- One write of the driver status port: one field (10_state.md R52). -/
inductive StatusWrite where
  | faulted (b : Bool)
  | rxFault (b : Bool)
  | txFault (b : Bool)
  | fdcap (b : Bool)
  | busSpeed (v : Word)
  | fdSpeed (v : Word)
  | enPin (v : Byte)
deriving DecidableEq, Repr

/-- One read of the driver callback read port (10_state.md R53). -/
inductive CallbackRead where
  | cbRead (mb : Byte)
  | cbGenRead
  | cbSel (mb : Byte)
deriving DecidableEq, Repr

/-- One atomic step of an agent outside the block (20_memory.md R74), or the input RST (70_reset_and_hazards.md
R177). -/
inductive Input where
  /-- MemRead(addr, n) (00_scope.md R21). -/
  | memRead (addr n : Nat)
  /-- MemWrite(addr, n, v) (00_scope.md R21). -/
  | memWrite (addr n : Nat) (v : Word)
  /-- The driver answers the call of port `p` that is number `tag` of `State.out`. -/
  | driverAnswer (p : PortId) (tag : Nat) (a : DrvAnswer)
  /-- The listener acknowledges the notification of port `p` that is number `tag` of `State.out`. -/
  | listenerAck (p : PortId) (tag : Nat)
  /-- A driver status-port write (10_state.md R52). -/
  | driverStatus (w : StatusWrite)
  /-- A driver callback-port read (10_state.md R53). -/
  | callbackRead (r : CallbackRead)
  /-- RST is asserted and released (70_reset_and_hazards.md R177), in one step (DESIGN CHOICE, log entry 20). -/
  | rst
deriving DecidableEq, Repr

/-- Who takes the next step (20_memory.md R74): the block, with one segment of a port sequencer, or an agent outside
it. -/
inductive Turn where
  | block
  | input (x : Input)
deriving DecidableEq, Repr

/-- What the block shows outside in a step (10_state.md R50, R53, R54; 20_memory.md R69). -/
inductive Output where
  | call (p : PortId) (c : DrvCall)
  | notification (p : PortId) (n : Notification)
  | hostRead (addr n : Nat) (v : Word)
  | callback (r : CallbackRead) (v : Word)
deriving DecidableEq, Repr

/-! ## State -/

/-- The state of the block (10_state.md R30) with the model's own fields `out` and `schedule` (log entries 1 and 2). -/
structure State where
  /-- The APP port (R30). -/
  app : Port
  /-- The ISR port (R30). -/
  isr : Port
  /-- LSLOT[0..3] (R38); 0 is empty. -/
  lslot : Vector Word 4
  /-- CBMB[0..NUM_FILTERS-1] (R39); 0 is empty. Its length is NUM_FILTERS (an invariant, `State.Inv`). -/
  cbmb : List Word
  /-- CBGEN (R39); 0 is empty. -/
  cbgen : Word
  /-- FLAGS (R40). -/
  flags : Flags
  /-- BUSSPEED (R41). -/
  busSpeed : Word
  /-- FDSPEED (R41). -/
  fdSpeed : Word
  /-- ENPIN (R41). -/
  enPin : Byte
  /-- LMASK (R43). -/
  lmask : MaskFile
  /-- The parameters of the instance (00_scope.md section 3; log entry 3). NUMFILT reads `params.numFilters` (R42). -/
  params : Params
  /-- The sticky fault record (60_exceptions.md R161). -/
  faults : FaultRecord
  /-- The model's own: what the block has shown outside so far, oldest first (log entry 2). -/
  out : List Output
  /-- The model's own: the steps still to come, the next one first (log entry 1). -/
  schedule : List Turn
deriving DecidableEq, Repr

/-- A port after reset (10_state.md R56, R60). -/
def Port.reset : Port :=
  { arg0 := 0, arg1 := 0, handle := 0, result := 0, busy := false, illegal := false,
    cf := .zero, ff := .zero, seq := .idle }

/-- FLAGS after reset (10_state.md R58). -/
def Flags.reset : Flags := { faulted := false, rxFault := false, txFault := false, fdcap := false }

/-- The fault record at the start of an execution: nothing recorded (60_exceptions.md R161). -/
def FaultRecord.none : FaultRecord :=
  { illegalCommand := false, badRegisterAccess := false, lengthContract := false }

/-- The block of parameters `pr` after RST (10_state.md R56 to R60), with the given fault record, outputs and
schedule. -/
def State.resetWith (pr : Params) (faults : FaultRecord) (out : List Output) (schedule : List Turn) : State :=
  { app := .reset, isr := .reset, lslot := Vector.replicate 4 0, cbmb := List.replicate pr.numFilters 0, cbgen := 0,
    flags := .reset, busSpeed := 0, fdSpeed := 0, enPin := Config.enPinUnused, lmask := [], params := pr,
    faults := faults, out := out, schedule := schedule }

/-- The machine right after reset (10_state.md R56 to R60), at the start of an execution: nothing recorded, nothing
shown, no agent's step fixed yet. -/
def State.reset : State := .resetWith Config.params .none [] []

/-! ## Why a step can stop -/

/-- Where the model has no step. -/
inductive Fault where
  /-- The block is given a turn and no segment may execute: the port that has the turn (ISR while SEQ[ISR] = RUN, else
  APP) waits for a driver's answer or a listener's acknowledgement, or has no command. Raised by a block turn, and by
  every meaning in such a state. This is the stuck state of 60_exceptions.md R162, not one of the faults of R161 (those
  are bits of `State.faults`, and the machine goes on). Safe: the model has no step where the block has none. -/
  | stuck (p : PortId)
  /-- The word that SEQ[p] has latched is not a legal command word. Raised by a block turn. No run reaches this: a word
  is latched only after it decoded (10_state.md R48; the invariant `State.Inv`). Safe: the model stops. -/
  | latchedWordIllegal (p : PortId)
deriving DecidableEq, Repr

/-- Where the model has no meaning for what it is given. -/
inductive Refusal where
  /-- The command of this mnemonic has no meaning yet. Raised by `exec`. Safe: the model stops. -/
  | notModelled (mnemonic : String)
  /-- The scheduled driver answer is none the driver can give to the outstanding call: an answer of another call's kind
  (10_state.md R50), or a non-zero answer to an FD call made while FDCAP = 0 (R51(a)). Raised by a driver answer, never
  by a command. Safe: such a schedule is no execution of the block. -/
  | answerBreaksContract (p : PortId)
deriving DecidableEq, Repr

end Sys2Proof.Machine
end

