-- ==== Sys2Proof/Machine/Operands.lean ====
section
/-! DEFINITION. How operands are read and computed: zero-extension and the identifier helpers (00_scope.md R19, R27),
the range synthesis (40_filter_synthesizer.md R106, R107), payload byte order and views (20_memory.md R63 to R65), and
the packed frame-control words (10_state.md R44). -/

namespace Sys2Proof.Machine

/-- `zext_32` of one bit (00_scope.md R19); 1 is true or success, 0 is false or failure (60_exceptions.md R157). -/
def zextBit (b : Bool) : Word := if b then 1 else 0

/-- `zext_32` of a byte (00_scope.md R19). -/
def zextByte (b : Byte) : Word := b.setWidth 32

/-! ## Identifiers and masks -/

/-- The extendedness inference `std_or_ext(v)` (00_scope.md R27). -/
def stdOrExt (v : Word) : Bool := decide (Config.stdMask < v)

/-- The exact-match mask `seed(v)` for the address width of `v` (00_scope.md R27). -/
def seed (v : Word) : Word := if v ≤ Config.stdMask then Config.stdMask else Config.extMask

/-- An incoming ID `f` passes the filter `(id, mask)`: the driver's test (40_filter_synthesizer.md R99). -/
def accepts (id mask f : Word) : Bool := f &&& mask == id &&& mask

/-- One iteration of WATCH_RANGE's loop on `(id, mask)` (40_filter_synthesizer.md R106). -/
def rangeIter (lo c : Word) (acc : Word × Word) : Word × Word :=
  (acc.1 &&& c, acc.2 &&& (~~~(lo ^^^ c) &&& Config.extMask))

/-- `m` iterations of WATCH_RANGE's loop from the integer `c` on (R106). The counter is a natural number and never wraps
(R199). -/
def rangeLoop (lo : Word) : (m c : Nat) → Word × Word → Word × Word
  | 0, _, acc => acc
  | m + 1, c, acc => rangeLoop lo m (c + 1) (rangeIter lo (BitVec.ofNat 32 c) acc)

/-- The `(id, mask)` of WATCH_RANGE by its loop over lo, lo + 1, ..., hi, for lo ≤ hi (R106). -/
def rangeByLoop (lo hi : Word) : Word × Word :=
  rangeLoop lo (hi.toNat - lo.toNat + 1) lo.toNat (lo, seed hi)

/-- The bit length of a word: the index of its highest set bit, plus 1; 0 for 0 (R107). -/
def bitLength (d : Word) : Nat := if d = 0 then 0 else d.toNat.log2 + 1

/-- The `(id, mask)` of WATCH_RANGE by the closed form, for lo ≤ hi (R107; a model may compute it so). -/
def rangeClosed (lo hi : Word) : Word × Word :=
  let d := lo ^^^ hi
  if d = 0 then (lo, seed hi)
  else
    let p := ~~~((1#32 <<< bitLength d) - 1#32)
    (lo &&& p, seed hi &&& p &&& Config.extMask)

/-- The swap of WATCH_RANGE's operands (R106): the lower first. -/
def orderedRange (a b : Word) : Word × Word := if b < a then (b, a) else (a, b)

/-- The `(id, mask)` WATCH_RANGE synthesizes from its two operands (R106, R107). -/
def rangeFilter (a b : Word) : Word × Word :=
  rangeClosed (orderedRange a b).1 (orderedRange a b).2

/-- Whether the first and the second install of WATCH_ALL are extended (40_filter_synthesizer.md R103, 00_scope.md
R17). -/
def watchAllExt : WatchAllOrder → Bool × Bool
  | .stdFirst => (false, true)
  | .extFirst => (true, false)

/-! ## Payload byte order and views -/

/-- The word of four bytes, the first in bits 7:0 (20_memory.md R63). -/
def leWord (b0 b1 b2 b3 : Byte) : Word := b3 ++ b2 ++ b1 ++ b0

/-- Byte `j` of a word, `j` in 0..3, in the order of R63. -/
def byteOf (v : Word) (j : Nat) : Byte := v.extractLsb' (8 * j) 8

/-- Byte `j` of a payload; a payload has no byte beyond its capacity, and none is ever asked for. -/
def payloadByte {n : Nat} (d : Vector Byte n) (j : Nat) : Byte := d.getD j 0

/-- Data word `k` of a payload, and its 32-bit view `w[k]` (R63, R64, R65). -/
def dataWord {n : Nat} (d : Vector Byte n) (k : Nat) : Word :=
  leWord (payloadByte d (4 * k)) (payloadByte d (4 * k + 1)) (payloadByte d (4 * k + 2)) (payloadByte d (4 * k + 3))

/-- A payload with data word `k` replaced (R63). -/
def setDataWord {n : Nat} (d : Vector Byte n) (k : Nat) (v : Word) : Vector Byte n :=
  Vector.ofFn fun j => if j.val / 4 = k then byteOf v (j.val % 4) else d[j]

/-- The 16-bit view `s[k]` of a payload (R64, R65). -/
def halfView {n : Nat} (d : Vector Byte n) (k : Nat) : BitVec 16 :=
  payloadByte d (2 * k + 1) ++ payloadByte d (2 * k)

/-- The 64-bit view `u[k]` of an FD payload (R65). -/
def doubleView (d : Vector Byte 64) (k : Nat) : BitVec 64 := dataWord d (2 * k + 1) ++ dataWord d (2 * k)

/-- The view `low` of a classic payload (R64). -/
def lowHalf (d : Vector Byte 8) : Word := dataWord d 0

/-- The view `high` of a classic payload (R64). -/
def highHalf (d : Vector Byte 8) : Word := dataWord d 1

/-- A payload with its 16-bit view `s[k]` replaced: the same bytes (R64, R65). -/
def setHalfView {n : Nat} (d : Vector Byte n) (k : Nat) (v : BitVec 16) : Vector Byte n :=
  Vector.ofFn fun j => if j.val / 2 = k then v.extractLsb' (8 * (j.val % 2)) 8 else d[j]

/-- An FD payload with its 64-bit view `u[k]` replaced: the same bytes (R65). -/
def setDoubleView (d : Vector Byte 64) (k : Nat) (v : BitVec 64) : Vector Byte 64 :=
  Vector.ofFn fun j => if j.val / 8 = k then v.extractLsb' (8 * (j.val % 8)) 8 else d[j]

/-! ## Packed registers -/

/-- The value of CF_CTRL (10_state.md R44): [0] RTR, [1] EXT, [15:8] PRIORITY, [23:16] LENGTH, other bits 0. -/
def packCfCtrl (f : ClassicFrame) : Word :=
  0#8 ++ f.length ++ f.priority ++ 0#6 ++ BitVec.ofBool f.ext ++ BitVec.ofBool f.rtr

/-- A classic frame after a write of `v` to CF_CTRL (R44); the reserved bits are ignored. -/
def writeCfCtrl (f : ClassicFrame) (v : Word) : ClassicFrame :=
  { f with rtr := v.getLsbD 0, ext := v.getLsbD 1, priority := v.extractLsb' 8 8, length := v.extractLsb' 16 8 }

/-- The value of FF_CTRL (R44): [0] RRS, [1] EXT, [2] FDMODE, [15:8] PRIORITY, [23:16] LENGTH, other bits 0. -/
def packFfCtrl (f : FdFrame) : Word :=
  0#8 ++ f.length ++ f.priority ++ 0#5 ++ BitVec.ofBool f.fdMode ++ BitVec.ofBool f.ext ++ BitVec.ofBool f.rrs

/-- An FD frame after a write of `v` to FF_CTRL (R44); the reserved bits are ignored. -/
def writeFfCtrl (f : FdFrame) (v : Word) : FdFrame :=
  { f with rrs := v.getLsbD 0, ext := v.getLsbD 1, fdMode := v.getLsbD 2, priority := v.extractLsb' 8 8,
           length := v.extractLsb' 16 8 }

/-- A frame's LENGTH exceeds its kind's capacity (10_state.md R37, 00_scope.md R14). -/
def Frame.overCapacity : Frame → Bool
  | .classic f => decide (Config.classicCap < f.length.toNat)
  | .fd f => decide (Config.fdCap < f.length.toNat)

end Sys2Proof.Machine
end

