-- ==== Sys2Proof/Machine/Flags.lean ====
section
/-! DEFINITION. The status bits and flags of the block and how each is computed and written: P.STATUS (10_state.md R34),
FLAGS and CAPS (R40, R45), the driver status port (R52), and the sticky fault record (60_exceptions.md R161). The block has
no condition codes (10_state.md R30). -/

namespace Sys2Proof.Machine

/-- The value of P.STATUS (R34): [0] BUSY, [1] ILLEGAL, bits 31:2 read 0. -/
def packStatus (p : Port) : Word := 0#30 ++ BitVec.ofBool p.illegal ++ BitVec.ofBool p.busy

/-- The value of CAPS (R45): [0] FAULTED, [1] RXFAULT, [2] TXFAULT, [3] FDCAP, bits 31:4 read 0. -/
def packCaps (f : Flags) : Word :=
  0#28 ++ BitVec.ofBool f.fdcap ++ BitVec.ofBool f.txFault ++ BitVec.ofBool f.rxFault ++ BitVec.ofBool f.faulted

/-- One driver status-port write: the one field it names (R52). -/
def State.writeStatus (s : State) : StatusWrite → State
  | .faulted b => { s with flags := { s.flags with faulted := b } }
  | .rxFault b => { s with flags := { s.flags with rxFault := b } }
  | .txFault b => { s with flags := { s.flags with txFault := b } }
  | .fdcap b => { s with flags := { s.flags with fdcap := b } }
  | .busSpeed v => { s with busSpeed := v }
  | .fdSpeed v => { s with fdSpeed := v }
  | .enPin v => { s with enPin := v }

/-- IllegalCommand is recorded (60_exceptions.md R161). -/
def State.recordIllegalCommand (s : State) : State := { s with faults := { s.faults with illegalCommand := true } }

/-- BadRegisterAccess is recorded (R161). -/
def State.recordBadAccess (s : State) : State := { s with faults := { s.faults with badRegisterAccess := true } }

/-- LengthContract is recorded if a command consumes the frame `f` and its LENGTH exceeds its kind's capacity (R161). The
datapath carries on. -/
def State.consumeFrame (s : State) (f : Frame) : State :=
  { s with faults := { s.faults with lengthContract := s.faults.lengthContract || f.overCapacity } }

end Sys2Proof.Machine
end

