-- ==== Sys2Proof/Machine/Ops.lean ====
section
/-! DEFINITION. The named operations the meanings share: reading and writing a port, issuing and completing a command
(10_state.md section 5), driver calls and notifications (section 6), raising IllegalCommand (the block's only
exception, 00_scope.md R25), reset (70_reset_and_hazards.md R177), and the indexed files LSLOT, LMASK and CBMB. -/

namespace Sys2Proof.Machine

/-! ## Ports -/

/-- The registers of port `p`. -/
def State.port (s : State) : PortId → Port
  | .app => s.app
  | .isr => s.isr

/-- The state with the registers of port `p` replaced. -/
def State.setPort (s : State) (p : PortId) (r : Port) : State :=
  match p with
  | .app => { s with app := r }
  | .isr => { s with isr := r }

/-- SEQ[P] = RUN (10_state.md R47). -/
def Seq.isRun : Seq → Bool
  | .idle => false
  | .run _ _ => true

/-- The one port whose segment may execute now: while SEQ[ISR] = RUN no APP segment executes (20_memory.md R76). -/
def State.active (s : State) : PortId := if s.isr.seq.isRun then .isr else .app

/-- The segment that may execute now: the active port's next segment, if it is enabled (R75, R76). -/
def State.enabled (s : State) : Option Seg :=
  match (s.port s.active).seq with
  | .run _ (.ready g) => some g
  | .run _ (.call _ _ _ _) => none
  | .run _ (.notification _ _ _) => none
  | .idle => none

/-- The state with SEQ[p] at the phase `ph` of the command it runs (10_state.md R47). -/
def State.setPhase (s : State) (p : PortId) (ph : Phase) : State :=
  match (s.port p).seq with
  | .idle => s
  | .run w _ => s.setPort p { s.port p with seq := .run w ph }

/-- The block shows `o` outside. -/
def State.emit (s : State) (o : Output) : State := { s with out := s.out ++ [o] }

/-! ## Commands -/

/-- The issue of the legal command word `w` on port `p` (10_state.md R48): BUSY and SEQ in one step. -/
def State.issue (s : State) (p : PortId) (w : Word) : State :=
  s.setPort p { s.port p with busy := true, seq := .run w (.ready .first) }

/-- `complete(v)` on port `p` (00_scope.md R26, 10_state.md R33, R49): RESULT, BUSY and SEQ in one step. -/
def State.complete (s : State) (p : PortId) (v : Word) : State :=
  s.setPort p { s.port p with result := v, busy := false, seq := .idle }

/-- `raise IllegalCommand` on port `p` (00_scope.md R25, 60_exceptions.md R158, R161): the port's sticky ILLEGAL bit and
the fault record, and nothing else. There is no trap entry and no return from one (R168, R169). -/
def State.raiseIllegalCommand (s : State) (p : PortId) : State :=
  (s.setPort p { s.port p with illegal := true }).recordIllegalCommand

/-- `call Drv.c` on port `p` (00_scope.md R22): the call is shown on the driver port and the command waits. `k` says what
follows a filter call's status. -/
def State.callDriver (s : State) (p : PortId) (c : DrvCall) (k : AfterCall) : State :=
  (s.emit (.call p c)).setPhase p (.call s.out.length c s.flags.fdcap k)

/-- `notify` on port `p` (00_scope.md R23): the notification is shown on the listener port and the command, which is to
complete with `v`, waits. -/
def State.notifyListener (s : State) (p : PortId) (n : Notification) (v : Word) : State :=
  (s.emit (.notification p n)).setPhase p (.notification s.out.length n v)

/-- The segment after the fan-out's slot `i` (42_dispatch.md R126): the next slot's, or the one that completes with `v`
(log entries 4 and 5). -/
def Seg.afterSlot (k : Kind) (f : Frame) (i : Fin 4) (v : Word) : Seg :=
  if h : i.val + 1 < 4 then .slot k f ⟨i.val + 1, h⟩ v else .finish v

/-- RST (70_reset_and_hazards.md R177, R178): every register and file takes its reset value in one step and commands in
flight are abandoned. The fault record of the execution stays (60_exceptions.md R161; log entry 10). RST has no held level
(log entry 20). -/
def State.rst (s : State) : State := .resetWith s.params s.faults s.out s.schedule

/-! ## LSLOT -/

/-- The state with LSLOT[i] written (10_state.md R38). -/
def State.setSlot (s : State) (i : Fin 4) (h : Word) : State := { s with lslot := s.lslot.set i h }

/-- The lowest slot that holds `h` (41_listener_registry.md R116, R117): the search over i = 0, 1, 2, 3. -/
def lowestSlot (slots : Vector Word 4) (h : Word) : Option (Fin 4) :=
  if slots[0] = h then some 0
  else if slots[1] = h then some 1
  else if slots[2] = h then some 2
  else if slots[3] = h then some 3
  else none

/-! ## LMASK -/

/-- LMASK[h] (10_state.md R43): 0 where it is not listed (R59). -/
def MaskFile.get : MaskFile → Word → Mask
  | [], _ => 0
  | e :: rest, h => if e.1 = h then e.2 else MaskFile.get rest h

/-- LMASK with the entry of `h` removed: LMASK[h] reads 0. -/
def MaskFile.erase : MaskFile → Word → MaskFile
  | [], _ => []
  | e :: rest, h => if e.1 = h then rest else e :: MaskFile.erase rest h

/-- LMASK with a non-zero mask `m` listed for `h`, at its place in the rising order of handles. -/
def MaskFile.insert : MaskFile → Word → Mask → MaskFile
  | [], h, m => [(h, m)]
  | e :: rest, h, m =>
    if e.1 = h then (h, m) :: rest
    else if h < e.1 then (h, m) :: e :: rest
    else e :: MaskFile.insert rest h m

/-- `LMASK[h] <- m` (10_state.md R43); a mask of 0 is not listed. -/
def MaskFile.set (f : MaskFile) (h : Word) (m : Mask) : MaskFile :=
  if m = 0 then f.erase h else f.insert h m

/-- The handles of a mask file rise strictly. -/
def MaskFile.rising : MaskFile → Bool
  | [] => true
  | [_] => true
  | e :: e' :: rest => decide (e.1 < e'.1) && MaskFile.rising (e' :: rest)

/-- The canonical form of LMASK: handles strictly rising, no handle 0 (there is no entry for it, R43), no listed mask that
is 0. -/
def MaskFile.wf (f : MaskFile) : Bool := f.rising && f.all fun e => e.1 != 0 && e.2 != 0

/-- The mask with bit `n` set. -/
def maskSetBit (m : Mask) (n : Nat) : Mask := m ||| (1#33 <<< n)

/-- The mask with bit `n` cleared. -/
def maskClearBit (m : Mask) (n : Nat) : Mask := m &&& ~~~(1#33 <<< n)

/-- The state with `LMASK[h] <- m` done. -/
def State.setMask (s : State) (h : Word) (m : Mask) : State := { s with lmask := s.lmask.set h m }

/-! ## CBMB -/

/-- `CBMB[n] <- v` if n < NUM_FILTERS, else nothing (42_dispatch.md R138, R139). -/
def State.setCallback (s : State) (n : Nat) (v : Word) : State :=
  if n < s.params.numFilters then { s with cbmb := s.cbmb.set n v } else s

/-- CBREAD(mb) (10_state.md R53): CBMB[mb] if mb < NUM_FILTERS, else 0. -/
def State.cbRead (s : State) (mb : Byte) : Word :=
  if mb.toNat < s.params.numFilters then s.cbmb.getD mb.toNat 0 else 0

/-- CBSEL(mb) (10_state.md R53, 42_dispatch.md R143): the callback the driver is to call for mailbox mb, 0 for none. -/
def State.cbSel (s : State) (mb : Byte) : Word :=
  if mb.toNat < s.params.numFilters ∧ s.cbmb.getD mb.toNat 0 ≠ 0 then s.cbmb.getD mb.toNat 0 else s.cbgen

/-- What one read of the driver callback read port returns (10_state.md R53). -/
def State.readCallback (s : State) : CallbackRead → Word
  | .cbRead mb => s.cbRead mb
  | .cbGenRead => s.cbgen
  | .cbSel mb => s.cbSel mb

end Sys2Proof.Machine
end

