-- ==== Sys2Proof/Machine/Sequencer.lean ====
section
/-! DEFINITION. The command sequencer (10_state.md section 5, 20_memory.md R75): the segments that follow a command's
first one, which several commands share, and the one way a meaning runs its next segment. -/

namespace Sys2Proof.Machine

/-! ## Segments after the first -/

/-- WATCH_ALL's second segment: the second install, made whatever the first status was (40_filter_synthesizer.md
R103). -/
def State.secondInstall (s : State) (p : PortId) : State :=
  s.callDriver p (.setFilter 0 0 (watchAllExt s.params.watchAllOrder).2) .last

/-- The segment after a transmit call answered `ok` (42_dispatch.md R125, R131, R132): on success the fan-out begins, with
a `yield` before slot 0; on failure the command completes with 0. -/
def State.afterSend (s : State) (p : PortId) (f : Frame) (ok : Bool) : State :=
  if ok then s.setPhase p (.ready (.slot .tx f 0 (zextBit ok))) else s.complete p (zextBit ok)

/-- The received frame is written to P.CF or P.FF (R133, R134). -/
def State.storeFrame (s : State) (p : PortId) : Frame → State
  | .classic f => s.setPort p { s.port p with cf := f }
  | .fd f => s.setPort p { s.port p with ff := f }

/-- The segment after a receive call answered `(count, f)` (R125, R133, R134): the frame is stored whatever the count; on
success it is consumed (60_exceptions.md R161) and the fan-out begins; on failure the command completes with 0. -/
def State.afterReceive (s : State) (p : PortId) (count : Word) (f : Frame) : State :=
  if count = 0 then (s.storeFrame p f).complete p count
  else ((s.storeFrame p f).consumeFrame f).setPhase p (.ready (.slot .rx f 0 count))

/-- The fan-out's segment of slot `i` (R126, R127): the slot is read, and a handle in it is notified, whatever LMASK
holds. -/
def State.slotSegment (s : State) (p : PortId) (k : Kind) (f : Frame) (i : Fin 4) (v : Word) : State :=
  if s.lslot[i] = 0 then s.setPhase p (.ready (Seg.afterSlot k f i v))
  else s.notifyListener p { kind := k, slot := i, handle := s.lslot[i], frame := f } v

/-- One segment of a command on port `p`: its first, or the later one the sequencer stands at. -/
def State.runSeg (s : State) (p : PortId) (first : State) : Seg → State
  | .first => first
  | .secondInstall _ => s.secondInstall p
  | .sent f ok => s.afterSend p f ok
  | .received count f => s.afterReceive p count f
  | .slot k f i v => s.slotSegment p k f i v
  | .finish v => s.complete p v

/-- A meaning: the next segment of the command on the port whose segment may execute (20_memory.md R75, R76), `first p`
being its first segment on port `p`. Where no segment may execute, the model has no step (60_exceptions.md R162). -/
def State.runCommand (s : State) (first : PortId → State) : Host.Outcome State Fault Refusal :=
  match s.enabled with
  | some g => .next (s.runSeg s.active (first s.active) g)
  | none => .fault (.stuck s.active)

/-! ## Answers and acknowledgements -/

/-- The segment that an answer enables (20_memory.md R75); none where the answer is not of the call's kind (10_state.md
R50). -/
def DrvCall.segAfter (c : DrvCall) (k : AfterCall) (a : DrvAnswer) : Option Seg :=
  match c, a with
  | .setFilter _ _ _, .status v =>
    match k with
    | .secondInstall => some (.secondInstall v)
    | .last => some (.finish v)
  | .setFilterSpecific _ _ _ _, .status v => some (.finish v)
  | .sendRaw f, .ok b => some (.sent (.classic f) b)
  | .sendRawFD f, .ok b => some (.sent (.fd f) b)
  | .receiveRaw, .received n f => some (.received n (.classic f))
  | .receiveRawFD, .receivedFD n f => some (.received n (.fd f))
  | _, _ => none

/-- The FDCAP constraint on the driver's answers (10_state.md R51(a)); `fdcap` is the flag at the time of the call. -/
def DrvAnswer.allowed (c : DrvCall) (fdcap : Bool) (a : DrvAnswer) : Bool :=
  match c, a with
  | .sendRawFD _, .ok b => fdcap || !b
  | .receiveRawFD, .receivedFD n _ => fdcap || n == 0
  | _, _ => true

/-- A driver answer to call number `tag` of port `p` (10_state.md R51): it enables the command's next segment. An answer
to a call that is not outstanding is ignored (70_reset_and_hazards.md R178; log entry 2). -/
def State.answer (s : State) (p : PortId) (tag : Nat) (a : DrvAnswer) : Host.Outcome State Fault Refusal :=
  match (s.port p).seq with
  | .run _ (.call t c fdcap k) =>
    if t = tag then
      match c.segAfter k a with
      | some g => if a.allowed c fdcap then .next (s.setPhase p (.ready g)) else .refused (.answerBreaksContract p)
      | none => .refused (.answerBreaksContract p)
    else .next s
  | .run _ (.notification _ _ _) => .next s
  | .run _ (.ready _) => .next s
  | .idle => .next s

/-- An acknowledgement of notification number `tag` of port `p` (10_state.md R54): it enables the command's next segment.
An acknowledgement of a notification that is not outstanding is ignored (70_reset_and_hazards.md R178). -/
def State.acknowledge (s : State) (p : PortId) (tag : Nat) : State :=
  match (s.port p).seq with
  | .run _ (.notification t n v) =>
    if t = tag then s.setPhase p (.ready (Seg.afterSlot n.kind n.frame n.slot v)) else s
  | .run _ (.call _ _ _ _) => s
  | .run _ (.ready _) => s
  | .idle => s

/-! ## What the block's turn finds -/

/-- What the block does when it is given a turn. -/
inductive Fetched where
  /-- Both ports are idle: the block runs nothing (70_reset_and_hazards.md R180). -/
  | nothing
  /-- The active port has a command and its next segment is not enabled (60_exceptions.md R162). -/
  | waiting (p : PortId)
  /-- The word the active port has latched is illegal; no run reaches this. -/
  | illegal (p : PortId)
  /-- The active port runs the next segment of this command. -/
  | command (i : Instr)
deriving DecidableEq, Repr

/-- The command whose segment the block runs next: the one that the active port's latched word decodes to (10_state.md
R47, 20_memory.md R76). -/
def State.fetch (s : State) : Fetched :=
  match (s.port s.active).seq with
  | .idle => .nothing
  | .run w (.ready _) =>
    match decode w with
    | .ok i => .command i
    | .error _ => .illegal s.active
  | .run _ (.call _ _ _ _) => .waiting s.active
  | .run _ (.notification _ _ _) => .waiting s.active

/-- The state with the command word `w` latched, as issue latches it, by the port whose segment may execute, and the next
turn given to the block: the next step runs the first segment of that command. -/
def State.latchWord (s : State) (w : Word) : State :=
  { s.issue s.active w with schedule := .block :: s.schedule }

end Sys2Proof.Machine
end

