-- ==== Sys2Proof/Machine/Capability.lean ====
section
/-! DEFINITION. The capability and fault queries (44_capability.md). Each is one segment and reads one field of FLAGS
(R149). -/

namespace Sys2Proof.Machine

/-- Q_FAULT (R150). -/
def execQFault (s : State) : Host.Outcome State Fault Refusal :=
  s.runCommand fun p => s.complete p (zextBit s.flags.faulted)

/-- Q_RXFAULT (R151). -/
def execQRxFault (s : State) : Host.Outcome State Fault Refusal :=
  s.runCommand fun p => s.complete p (zextBit s.flags.rxFault)

/-- Q_TXFAULT (R152). -/
def execQTxFault (s : State) : Host.Outcome State Fault Refusal :=
  s.runCommand fun p => s.complete p (zextBit s.flags.txFault)

/-- Q_FDCAP (R153). -/
def execQFdCap (s : State) : Host.Outcome State Fault Refusal :=
  s.runCommand fun p => s.complete p (zextBit s.flags.fdcap)

end Sys2Proof.Machine
end

