-- ==== Sys2Proof/Machine/DispatchEngine.lean ====
section
/-! DEFINITION. The Dispatch Engine commands (42_dispatch.md): transmit and receive, whose later segments are the
sequencer's (`State.afterSend`, `State.afterReceive`, `State.slotSegment`), and the callback tables, one segment each
(R137). -/

namespace Sys2Proof.Machine

/-- SEND (R131): P.CF consumed and passed to the driver. -/
def execSend (s : State) : Host.Outcome State Fault Refusal :=
  s.runCommand fun p =>
    (s.consumeFrame (.classic (s.port p).cf)).callDriver p (.sendRaw (s.port p).cf) .last

/-- SENDFD (R132): P.FF consumed and passed to the driver. -/
def execSendFd (s : State) : Host.Outcome State Fault Refusal :=
  s.runCommand fun p =>
    (s.consumeFrame (.fd (s.port p).ff)).callDriver p (.sendRawFD (s.port p).ff) .last

/-- RECV (R133). -/
def execRecv (s : State) : Host.Outcome State Fault Refusal :=
  s.runCommand fun p => s.callDriver p .receiveRaw .last

/-- RECVFD (R134). -/
def execRecvFd (s : State) : Host.Outcome State Fault Refusal :=
  s.runCommand fun p => s.callDriver p .receiveRawFD .last

/-- CB_SET (R138): CBMB[n] <- ARG0, if n < NUM_FILTERS. -/
def execCbSet (n : Nat) (s : State) : Host.Outcome State Fault Refusal :=
  s.runCommand fun p => (s.setCallback n (s.port p).arg0).complete p 0

/-- CB_CLR (R139): CBMB[n] <- 0, if n < NUM_FILTERS. -/
def execCbClr (n : Nat) (s : State) : Host.Outcome State Fault Refusal :=
  s.runCommand fun p => (s.setCallback n 0).complete p 0

/-- CB_GSET (R140): CBGEN <- ARG0. -/
def execCbGSet (s : State) : Host.Outcome State Fault Refusal :=
  s.runCommand fun p => State.complete { s with cbgen := (s.port p).arg0 } p 0

/-- CB_GCLR (R141): CBGEN <- 0. -/
def execCbGClr (s : State) : Host.Outcome State Fault Refusal :=
  s.runCommand fun p => State.complete { s with cbgen := 0 } p 0

end Sys2Proof.Machine
end

