-- ==== Sys2Proof/Machine/FilterSynthesizer.lean ====
section
/-! DEFINITION. The Filter Synthesizer commands (40_filter_synthesizer.md). Each is its first segment, which makes the
driver call; its last segment completes with the status answered (R100). -/

namespace Sys2Proof.Machine

/-- WATCH_ALL (R103): two installs with id 0 and mask 0, the second made whatever the first status is. -/
def execWatchAll (s : State) : Host.Outcome State Fault Refusal :=
  s.runCommand fun p => s.callDriver p (.setFilter 0 0 (watchAllExt s.params.watchAllOrder).1) .secondInstall

/-- WATCH_ID (R104): exact match of ARG0, extendedness inferred. -/
def execWatchId (s : State) : Host.Outcome State Fault Refusal :=
  s.runCommand fun p =>
    s.callDriver p (.setFilter (s.port p).arg0 (seed (s.port p).arg0) (stdOrExt (s.port p).arg0)) .last

/-- WATCH_IDMASK (R105): ARG0 under the mask ARG1, extendedness inferred from ARG0 alone. -/
def execWatchIdMask (s : State) : Host.Outcome State Fault Refusal :=
  s.runCommand fun p => s.callDriver p (.setFilter (s.port p).arg0 (s.port p).arg1 (stdOrExt (s.port p).arg0)) .last

/-- WATCH_RANGE (R106, by the closed form R107 permits): the synthesized id and mask of the range between ARG0 and ARG1,
extendedness inferred from the synthesized id (90_conflicts.md C1). -/
def execWatchRange (s : State) : Host.Outcome State Fault Refusal :=
  s.runCommand fun p =>
    let r := rangeFilter (s.port p).arg0 (s.port p).arg1
    s.callDriver p (.setFilter r.1 r.2 (stdOrExt r.1)) .last

/-- SETFILTER (R110): ARG0, ARG1 and the flag `x` passed as they are. -/
def execSetFilter (x : Bool) (s : State) : Host.Outcome State Fault Refusal :=
  s.runCommand fun p => s.callDriver p (.setFilter (s.port p).arg0 (s.port p).arg1 x) .last

/-- SETFILTER_MB (R111): the same for mailbox `n[7:0]`, which is not compared with NUM_FILTERS. -/
def execSetFilterMb (n : Nat) (x : Bool) (s : State) : Host.Outcome State Fault Refusal :=
  s.runCommand fun p =>
    s.callDriver p (.setFilterSpecific (BitVec.ofNat 8 n) (s.port p).arg0 (s.port p).arg1 x) .last

end Sys2Proof.Machine
end

