-- ==== Sys2Proof/Machine/FormatBridge.lean ====
section
/-! DEFINITION. The Format Bridge commands (43_format_bridge.md). Each is one segment (R145). -/

namespace Sys2Proof.Machine

/-- The FD frame `f` after C2FD from the classic frame `c` (R146): bytes 8..63 of the payload stay (90_conflicts.md
C5). -/
def classicToFd (c : ClassicFrame) (f : FdFrame) : FdFrame :=
  { id := c.id, fid := c.fid, rrs := c.rtr, priority := c.priority, ext := c.ext, fdMode := false,
    timestamp := c.timestamp, length := c.length,
    data := Vector.ofFn fun j => if h : j.val < 8 then c.data[j.val] else f.data[j] }

/-- FD2C fails on the FD frame `f` (R147): its LENGTH exceeds 8 or its FD-mode flag is set. -/
def fdToClassicFails (f : FdFrame) : Bool := decide (Config.classicCap < f.length.toNat) || f.fdMode

/-- The classic frame that FD2C makes of the FD frame `f` when it does not fail (R147). -/
def fdToClassic (f : FdFrame) : ClassicFrame :=
  { id := f.id, fid := f.fid, rtr := f.rrs, priority := f.priority, ext := f.ext, timestamp := f.timestamp,
    length := f.length, data := Vector.ofFn fun j => f.data[j.val] }

/-- C2FD (R146): P.CF consumed, P.FF written, RESULT = 1. -/
def execC2fd (s : State) : Host.Outcome State Fault Refusal :=
  s.runCommand fun p =>
    ((s.consumeFrame (.classic (s.port p).cf)).storeFrame p (.fd (classicToFd (s.port p).cf (s.port p).ff))).complete p 1

/-- FD2C (R147): P.FF consumed; P.CF written and RESULT = 1, or P.CF unchanged and RESULT = 0. -/
def execFd2c (s : State) : Host.Outcome State Fault Refusal :=
  s.runCommand fun p =>
    let c := s.consumeFrame (.fd (s.port p).ff)
    if fdToClassicFails (s.port p).ff then c.complete p 0
    else (c.storeFrame p (.classic (fdToClassic (s.port p).ff))).complete p 1

end Sys2Proof.Machine
end

