-- ==== Sys2Proof/Machine/ListenerRegistry.lean ====
section
/-! DEFINITION. The Listener Registry commands (41_listener_registry.md). Each is one segment (R113). -/

namespace Sys2Proof.Machine

/-- LMASK[h] rewritten by `f` if `h` is not null, and completion with 0 (R114, R115). -/
def State.updateMask (s : State) (p : PortId) (f : Mask → Mask) : State :=
  let h := (s.port p).handle
  if h = 0 then s.complete p 0 else (s.setMask h (f (MaskFile.get s.lmask h))).complete p 0

/-- L_ATTACH (R116): the handle in the lowest empty slot and its mask cleared; failure for a null handle or when all
slots are full. -/
def execLAttach (s : State) : Host.Outcome State Fault Refusal :=
  s.runCommand fun p =>
    let h := (s.port p).handle
    if h = 0 then s.complete p 0
    else
      match lowestSlot s.lslot 0 with
      | some i => ((s.setSlot i h).setMask h 0).complete p 1
      | none => s.complete p 0

/-- L_DETACH (R117): the lowest slot that holds the handle is cleared; its mask stays. -/
def execLDetach (s : State) : Host.Outcome State Fault Refusal :=
  s.runCommand fun p =>
    let h := (s.port p).handle
    if h = 0 then s.complete p 0
    else
      match lowestSlot s.lslot h with
      | some i => (s.setSlot i 0).complete p 1
      | none => s.complete p 0

/-- L_MBON (R118): the handle's bit `n` set, if n < NUM_FILTERS. -/
def execLMbOn (n : Nat) (s : State) : Host.Outcome State Fault Refusal :=
  s.runCommand fun p =>
    if n < s.params.numFilters then s.updateMask p (maskSetBit · n) else s.complete p 0

/-- L_MBOFF (R119): the handle's bit `n` cleared, if n < NUM_FILTERS. -/
def execLMbOff (n : Nat) (s : State) : Host.Outcome State Fault Refusal :=
  s.runCommand fun p =>
    if n < s.params.numFilters then s.updateMask p (maskClearBit · n) else s.complete p 0

/-- L_GENON (R120): the handle's general bit, bit NUM_FILTERS, set. -/
def execLGenOn (s : State) : Host.Outcome State Fault Refusal :=
  s.runCommand fun p => s.updateMask p (maskSetBit · s.params.numFilters)

/-- L_GENOFF (R121): the handle's general bit cleared. -/
def execLGenOff (s : State) : Host.Outcome State Fault Refusal :=
  s.runCommand fun p => s.updateMask p (maskClearBit · s.params.numFilters)

/-- L_ACTIVE (R122): bit `n` of the handle's mask; 0 for a null handle and for n > NUM_FILTERS. -/
def execLActive (n : Nat) (s : State) : Host.Outcome State Fault Refusal :=
  s.runCommand fun p =>
    let h := (s.port p).handle
    if h = 0 ∨ s.params.numFilters < n then s.complete p 0
    else s.complete p (zextBit ((MaskFile.get s.lmask h).getLsbD n))

end Sys2Proof.Machine
end

