-- ==== Sys2Proof/Machine/Dispatch.lean ====
section
/-! DEFINITION. One arm per command of the opcode map (30_encoding.md R88). -/

namespace Sys2Proof.Machine

/-- The next segment of command `i` on the port whose segment may execute (20_memory.md R75, R76). -/
def exec (i : Instr) (s : State) : Host.Outcome State Fault Refusal :=
  match i with
  | .watchAll => Sys2Proof.Machine.execWatchAll s
  | .watchId => Sys2Proof.Machine.execWatchId s
  | .watchIdMask => Sys2Proof.Machine.execWatchIdMask s
  | .watchRange => Sys2Proof.Machine.execWatchRange s
  | .setFilter x => Sys2Proof.Machine.execSetFilter x s
  | .setFilterMb n x => Sys2Proof.Machine.execSetFilterMb n x s
  | .lAttach => Sys2Proof.Machine.execLAttach s
  | .lDetach => Sys2Proof.Machine.execLDetach s
  | .lMbOn n => Sys2Proof.Machine.execLMbOn n s
  | .lMbOff n => Sys2Proof.Machine.execLMbOff n s
  | .lGenOn => Sys2Proof.Machine.execLGenOn s
  | .lGenOff => Sys2Proof.Machine.execLGenOff s
  | .lActive n => Sys2Proof.Machine.execLActive n s
  | .send => Sys2Proof.Machine.execSend s
  | .sendFd => Sys2Proof.Machine.execSendFd s
  | .recv => Sys2Proof.Machine.execRecv s
  | .recvFd => Sys2Proof.Machine.execRecvFd s
  | .cbSet n => Sys2Proof.Machine.execCbSet n s
  | .cbClr n => Sys2Proof.Machine.execCbClr n s
  | .cbGSet => Sys2Proof.Machine.execCbGSet s
  | .cbGClr => Sys2Proof.Machine.execCbGClr s
  | .c2fd => Sys2Proof.Machine.execC2fd s
  | .fd2c => Sys2Proof.Machine.execFd2c s
  | .qFault => Sys2Proof.Machine.execQFault s
  | .qRxFault => Sys2Proof.Machine.execQRxFault s
  | .qTxFault => Sys2Proof.Machine.execQTxFault s
  | .qFdCap => Sys2Proof.Machine.execQFdCap s

end Sys2Proof.Machine
end

