-- ==== Sys2Proof/Machine/Window.lean ====
section
/-! DEFINITION. The register window: its map (10_state.md R44, R45), effective addresses (20_memory.md R201), and what a
host's MemRead and MemWrite do (20_memory.md R66 to R71, 10_state.md R48, 60_exceptions.md R158). -/

namespace Sys2Proof.Machine

/-- A register of a port window (10_state.md R44). -/
inductive Reg where
  | cmd
  | arg0
  | arg1
  | handle
  | result
  | status
  | cfId
  | cfFid
  | cfCtrl
  | cfTs
  | cfData (k : Fin 2)
  | ffId
  | ffFid
  | ffCtrl
  | ffTs
  | ffData (k : Fin 16)
deriving DecidableEq, Repr

/-- A register of the shared window (10_state.md R45). -/
inductive SharedReg where
  | caps
  | busSpeed
  | fdSpeed
  | enPin
  | numFilt
deriving DecidableEq, Repr

/-- What an offset of the register window names. -/
inductive Target where
  | port (p : PortId) (r : Reg)
  | shared (r : SharedReg)
  | unmapped
deriving DecidableEq, Repr

/-! ## The map -/

/-- The size of the register window in bytes (20_memory.md R61). -/
def windowSize : Nat := 0x300

/-- base(P) (20_memory.md R201). -/
def PortId.base : PortId → Nat
  | .app => 0x000
  | .isr => 0x100

/-- The offset of a register in its port window (10_state.md R44). -/
def Reg.offset : Reg → Nat
  | .cmd => 0x00
  | .arg0 => 0x04
  | .arg1 => 0x08
  | .handle => 0x0C
  | .result => 0x10
  | .status => 0x14
  | .cfId => 0x20
  | .cfFid => 0x24
  | .cfCtrl => 0x28
  | .cfTs => 0x2C
  | .cfData k => 0x30 + 4 * k.val
  | .ffId => 0x40
  | .ffFid => 0x44
  | .ffCtrl => 0x48
  | .ffTs => 0x4C
  | .ffData k => 0x50 + 4 * k.val

/-- The offset of a shared register from the block's base (10_state.md R45). -/
def SharedReg.offset : SharedReg → Nat
  | .caps => 0x200
  | .busSpeed => 0x204
  | .fdSpeed => 0x208
  | .enPin => 0x20C
  | .numFilt => 0x210

/-- Every register of a port window, in the order of the table of R44. -/
def Reg.all : List Reg :=
  [.cmd, .arg0, .arg1, .handle, .result, .status, .cfId, .cfFid, .cfCtrl, .cfTs] ++ (List.finRange 2).map .cfData
    ++ [.ffId, .ffFid, .ffCtrl, .ffTs] ++ (List.finRange 16).map .ffData

/-- Every register of the shared window, in the order of the table of R45. -/
def SharedReg.all : List SharedReg := [.caps, .busSpeed, .fdSpeed, .enPin, .numFilt]

/-- The register at an offset of a port window, if one is mapped there (R44). -/
def portRegAt (o : Nat) : Option Reg := Reg.all.find? fun r => r.offset == o

/-- The register at an offset of the shared window, if one is mapped there (R45). -/
def sharedRegAt (o : Nat) : Option SharedReg := SharedReg.all.find? fun r => r.offset == o

/-- What the offset `o` of the register window names (20_memory.md R61, 10_state.md R44, R45). -/
def targetAt (o : Nat) : Target :=
  if o < 0x100 then (portRegAt o).elim .unmapped (.port .app)
  else if o < 0x200 then (portRegAt (o - 0x100)).elim .unmapped (.port .isr)
  else (sharedRegAt o).elim .unmapped .shared

/-- The effective address of register `r` of port `p` (20_memory.md R201). -/
def regAddress (pr : Params) (p : PortId) (r : Reg) : Nat := pr.blockBase + p.base + r.offset

/-- The effective address of a shared register (20_memory.md R201). -/
def sharedAddress (pr : Params) (r : SharedReg) : Nat := pr.blockBase + r.offset

/-- The offset a host address names in the register window; none for an address outside the block (20_memory.md R61,
10_state.md R45). -/
def windowOffset (pr : Params) (addr : Nat) : Option Nat :=
  if pr.blockBase ≤ addr ∧ addr - pr.blockBase < windowSize then some (addr - pr.blockBase) else none

/-- The access is 4 bytes wide at an offset that is a multiple of 4 (20_memory.md R66). -/
def legalAccess (o n : Nat) : Bool := n == 4 && o % 4 == 0

/-! ## Reads -/

/-- The value a legal read of a port register returns (10_state.md R31 to R36, R44; 20_memory.md R63). -/
def Port.readReg (r : Port) : Reg → Word
  | .cmd => 0
  | .arg0 => r.arg0
  | .arg1 => r.arg1
  | .handle => r.handle
  | .result => r.result
  | .status => packStatus r
  | .cfId => r.cf.id
  | .cfFid => r.cf.fid
  | .cfCtrl => packCfCtrl r.cf
  | .cfTs => r.cf.timestamp
  | .cfData k => dataWord r.cf.data k.val
  | .ffId => r.ff.id
  | .ffFid => r.ff.fid
  | .ffCtrl => packFfCtrl r.ff
  | .ffTs => r.ff.timestamp
  | .ffData k => dataWord r.ff.data k.val

/-- The value a legal read of a shared register returns (10_state.md R45). -/
def State.readShared (s : State) : SharedReg → Word
  | .caps => packCaps s.flags
  | .busSpeed => s.busSpeed
  | .fdSpeed => s.fdSpeed
  | .enPin => zextByte s.enPin
  | .numFilt => BitVec.ofNat 32 s.params.numFilters

/-- MemRead at offset `o`: the value, and the state, which differs only in what the fault record holds after a bad access
or an unmapped offset (20_memory.md R66, R68, R69). -/
def State.readOffset (s : State) (o n : Nat) : Word × State :=
  if legalAccess o n then
    match targetAt o with
    | .port p r => ((s.port p).readReg r, s)
    | .shared r => (s.readShared r, s)
    | .unmapped => (0, s.recordBadAccess)
  else (0, s.recordBadAccess)

/-- MemRead(addr, n): the value goes to the host. An address outside the block does not reach it (log entry 11). -/
def State.memRead (s : State) (addr n : Nat) : State :=
  match windowOffset s.params addr with
  | some o => (s.readOffset o n).2.emit (.hostRead addr n (s.readOffset o n).1)
  | none => s

/-! ## Writes -/

/-- A port's registers after `v` is stored in a read/write register (10_state.md R31, R44); the others are not written
this way. -/
def Port.storeReg (r : Port) (reg : Reg) (v : Word) : Port :=
  match reg with
  | .cmd => r
  | .arg0 => { r with arg0 := v }
  | .arg1 => { r with arg1 := v }
  | .handle => { r with handle := v }
  | .result => r
  | .status => r
  | .cfId => { r with cf := { r.cf with id := v } }
  | .cfFid => { r with cf := { r.cf with fid := v } }
  | .cfCtrl => { r with cf := writeCfCtrl r.cf v }
  | .cfTs => { r with cf := { r.cf with timestamp := v } }
  | .cfData k => { r with cf := { r.cf with data := setDataWord r.cf.data k.val v } }
  | .ffId => { r with ff := { r.ff with id := v } }
  | .ffFid => { r with ff := { r.ff with fid := v } }
  | .ffCtrl => { r with ff := writeFfCtrl r.ff v }
  | .ffTs => { r with ff := { r.ff with timestamp := v } }
  | .ffData k => { r with ff := { r.ff with data := setDataWord r.ff.data k.val v } }

/-- The register is read-only (10_state.md R33, R34; 20_memory.md R67). -/
def Reg.readOnly : Reg → Bool
  | .cmd => false
  | .arg0 => false
  | .arg1 => false
  | .handle => false
  | .result => true
  | .status => true
  | .cfId => false
  | .cfFid => false
  | .cfCtrl => false
  | .cfTs => false
  | .cfData _ => false
  | .ffId => false
  | .ffFid => false
  | .ffCtrl => false
  | .ffTs => false
  | .ffData _ => false

/-- A write of the command word `w` to P.CMD while the port is not busy (10_state.md R48, 30_encoding.md R94). -/
def State.writeCommand (s : State) (p : PortId) (w : Word) : State :=
  if isLegal w then s.issue p w else s.raiseIllegalCommand p

/-- A legal write to a register of port `p`: refused for a read-only register (20_memory.md R67) and while the port is
busy, which comes before decoding (60_exceptions.md R158, R167); a command (10_state.md R48); or a store (R69). -/
def State.writeReg (s : State) (p : PortId) (r : Reg) (v : Word) : State :=
  if r.readOnly then s.recordBadAccess
  else if (s.port p).busy then s.raiseIllegalCommand p
  else if r = .cmd then s.writeCommand p v
  else s.setPort p ((s.port p).storeReg r v)

/-- MemWrite at offset `o` (20_memory.md R66 to R69). -/
def State.writeOffset (s : State) (o n : Nat) (v : Word) : State :=
  if legalAccess o n then
    match targetAt o with
    | .port p r => s.writeReg p r v
    | .shared _ => s.recordBadAccess
    | .unmapped => s.recordBadAccess
  else s.recordBadAccess

/-- MemWrite(addr, n, v). An address outside the block does not reach it (log entry 11). -/
def State.memWrite (s : State) (addr n : Nat) (v : Word) : State :=
  match windowOffset s.params addr with
  | some o => s.writeOffset o n v
  | none => s

end Sys2Proof.Machine
end

