-- ==== Sys2Proof/Machine/Inputs.lean ====
section
/-! DEFINITION. The atomic steps of the agents outside the block (20_memory.md R74) and the input RST
(70_reset_and_hazards.md R177). -/

namespace Sys2Proof.Machine

/-- What one step of an agent outside the block does to it. RST is one step: that nothing happens between its assertion and
its release is the model's choice (DESIGN CHOICE, log entry 20). -/
def State.input (s : State) : Input → Host.Outcome State Fault Refusal
  | .memRead addr n => .next (s.memRead addr n)
  | .memWrite addr n v => .next (s.memWrite addr n v)
  | .driverAnswer p tag a => s.answer p tag a
  | .listenerAck p tag => .next (s.acknowledge p tag)
  | .driverStatus w => .next (s.writeStatus w)
  | .callbackRead r => .next (s.emit (.callback r (s.readCallback r)))
  | .rst => .next s.rst

end Sys2Proof.Machine
end

