-- ==== Sys2Proof/Machine/Step.lean ====
section
/-! DEFINITION. One atomic step of an execution (20_memory.md R74): the next entry of the schedule, or, where the schedule
has none left, the block's own turn. -/

namespace Sys2Proof.Machine

/-- The block's turn: one segment of the command that the active port has latched (20_memory.md R75, R76). -/
def blockTurn (s : State) : Host.Outcome State Fault Refusal :=
  match s.fetch with
  | .nothing => .next s
  | .waiting p => .fault (.stuck p)
  | .illegal p => .fault (.latchedWordIllegal p)
  | .command i => exec i s

/-- One step. -/
def step (s : State) : Host.Outcome State Fault Refusal :=
  match s.schedule with
  | [] => blockTurn s
  | .block :: rest => blockTurn { s with schedule := rest }
  | .input x :: rest => State.input { s with schedule := rest } x

/-- The state with the command word `w` where `step` takes its next command from: the sequencer of the port whose
segment may execute (10_state.md R47; log entry 7). A command is one 32-bit word (30_encoding.md R83). -/
def State.withFetchWord (s : State) (nbits w : Nat) : State :=
  s.latchWord (BitVec.ofNat 32 (w % 2 ^ nbits))

end Sys2Proof.Machine
end

