-- ==== Sys2Proof/Machine/Assembler.lean ====
section
/-! DEFINITION. Host programs (30_encoding.md section 5): the host lines of R95 as data, the register-window access each
one makes, and the pseudo-instructions and aliases of R96 and R97. The block does not run these: a host does, and its
accesses reach the block as `Input`s. -/

namespace Sys2Proof.Machine

/-- A register name of 10_state.md R44 or R45 (R95). -/
inductive RegName where
  | port (r : Reg)
  | shared (r : SharedReg)
deriving DecidableEq, Repr

/-- A host line (R95). R95 shows `[n=] [x=]` for every mnemonic and does not say whether a mnemonic may give an operand that
its R88 column has as 0 (`WATCH_ALL n=1`). A command line here holds an `Instr`, so there is no such line; a host writes that
word with `wr CMD` (DESIGN CHOICE, log entry 22). -/
inductive HostLine where
  /-- `.port P` -/
  | setPort (p : PortId)
  /-- `wr REG, value` -/
  | wr (r : RegName) (v : Word)
  /-- `rd REG` -/
  | rd (r : RegName)
  /-- `MNEMONIC n= x=`. The line is one of R95 only where `i.wellFormed`: n above 255 is not excluded from the type, and
  `encode` takes it mod 256 (DESIGN CHOICE, log entry 22). -/
  | command (i : Instr)
  /-- `wait`: repeat `rd STATUS` until BUSY reads 0. -/
  | wait
deriving DecidableEq, Repr

/-- The effective address of a named register for the port `p` that `.port` set; a shared name ignores it (R95,
20_memory.md R201). -/
def RegName.address (pr : Params) (p : PortId) : RegName → Nat
  | .port r => regAddress pr p r
  | .shared r => sharedAddress pr r

/-- A host's next access when it stands at these lines with the port `p` set, and where it stands after it: at a `wait`
it stays while BUSY reads 1 in the state the access finds (R95). -/
def nextAccess (s : State) (p : PortId) : List HostLine → Option (Input × PortId × List HostLine)
  | [] => none
  | .setPort q :: rest => nextAccess s q rest
  | .wr r v :: rest => some (.memWrite (r.address s.params p) 4 v, p, rest)
  | .rd r :: rest => some (.memRead (r.address s.params p) 4, p, rest)
  | .command i :: rest => some (.memWrite (regAddress s.params p .cmd) 4 (encode i), p, rest)
  | .wait :: rest =>
    some (.memRead (regAddress s.params p .status) 4, p, if (s.port p).busy then .wait :: rest else rest)

/-- The CF_* registers, which "frame writes" and "frame reads" of a classic frame name (R96). R96 does not give the order of
the lines; rising offsets are the model's choice (DESIGN CHOICE, log entry 19). -/
def classicFrameRegs : List Reg := [.cfId, .cfFid, .cfCtrl, .cfTs] ++ (List.finRange 2).map .cfData

/-- The FF_* registers (R96), in rising offsets too (DESIGN CHOICE, log entry 19). -/
def fdFrameRegs : List Reg := [.ffId, .ffFid, .ffCtrl, .ffTs] ++ (List.finRange 16).map .ffData

/-- The "frame writes" that put the classic frame `f` into CF (R96). -/
def classicFrameWrites (f : ClassicFrame) : List HostLine :=
  classicFrameRegs.map fun r => .wr (.port r) ({ Port.reset with cf := f }.readReg r)

/-- The "frame writes" that put the FD frame `f` into FF (R96). -/
def fdFrameWrites (f : FdFrame) : List HostLine :=
  fdFrameRegs.map fun r => .wr (.port r) ({ Port.reset with ff := f }.readReg r)

/-- A pseudo-instruction of R96 or an alias of R97. A mailbox index is any Nat here; above 255 its command line is none of
R95 (log entry 22). -/
inductive Pseudo where
  | watchFor
  | watchForId (id : Word)
  | watchForIdMask (id mask : Word)
  | watchForRange (id1 id2 : Word)
  | setFilter (id mask : Word) (e : Bool)
  | setFilterSpecific (mb : Nat) (id mask : Word) (e : Bool)
  | attach (h : Word)
  | detach (h : Word)
  | attachMailboxHandler (h : Word) (m : Nat)
  | detachMailboxHandler (h : Word) (m : Nat)
  | attachGeneralHandler (h : Word)
  | detachGeneralHandler (h : Word)
  | isCallbackActive (h : Word) (m : Nat)
  | sendFrame (f : ClassicFrame)
  | sendFrameFD (f : FdFrame)
  | read
  | readFD
  | setCallback (m : Nat) (cb : Word)
  | removeCallback (m : Nat)
  | setGeneralCallback (cb : Word)
  | removeGeneralCallback
  | classicToFD
  | fdToClassic
  | isFaulted
  | hasRXFault
  | hasTXFault
  | supportsFDMode
  | attachCallback (m : Nat) (cb : Word)
  | detachCallback (m : Nat)
  | attachGeneralCallback (cb : Word)
  | detachGeneralCallback
deriving DecidableEq, Repr

/-- A command, then `wait`. -/
def runLines (i : Instr) : List HostLine := [.command i, .wait]

/-- A command, then `wait`, then `rd RESULT`. -/
def askLines (i : Instr) : List HostLine := [.command i, .wait, .rd (.port .result)]

/-- The lines a pseudo-instruction stands for (R96, R97). -/
def Pseudo.expand : Pseudo → List HostLine
  | .watchFor => runLines .watchAll
  | .watchForId id => .wr (.port .arg0) id :: runLines .watchId
  | .watchForIdMask id mask => .wr (.port .arg0) id :: .wr (.port .arg1) mask :: runLines .watchIdMask
  | .watchForRange id1 id2 => .wr (.port .arg0) id1 :: .wr (.port .arg1) id2 :: runLines .watchRange
  | .setFilter id mask e => .wr (.port .arg0) id :: .wr (.port .arg1) mask :: runLines (.setFilter e)
  | .setFilterSpecific mb id mask e =>
    .wr (.port .arg0) id :: .wr (.port .arg1) mask :: runLines (.setFilterMb mb e)
  | .attach h => .wr (.port .handle) h :: runLines .lAttach
  | .detach h => .wr (.port .handle) h :: runLines .lDetach
  | .attachMailboxHandler h m => .wr (.port .handle) h :: runLines (.lMbOn m)
  | .detachMailboxHandler h m => .wr (.port .handle) h :: runLines (.lMbOff m)
  | .attachGeneralHandler h => .wr (.port .handle) h :: runLines .lGenOn
  | .detachGeneralHandler h => .wr (.port .handle) h :: runLines .lGenOff
  | .isCallbackActive h m => .wr (.port .handle) h :: askLines (.lActive m)
  | .sendFrame f => classicFrameWrites f ++ askLines .send
  | .sendFrameFD f => fdFrameWrites f ++ askLines .sendFd
  | .read => askLines .recv ++ classicFrameRegs.map fun r => .rd (.port r)
  | .readFD => askLines .recvFd ++ fdFrameRegs.map fun r => .rd (.port r)
  | .setCallback m cb => .wr (.port .arg0) cb :: runLines (.cbSet m)
  | .removeCallback m => runLines (.cbClr m)
  | .setGeneralCallback cb => .wr (.port .arg0) cb :: runLines .cbGSet
  | .removeGeneralCallback => runLines .cbGClr
  | .classicToFD => runLines .c2fd
  | .fdToClassic => askLines .fd2c
  | .isFaulted => askLines .qFault
  | .hasRXFault => askLines .qRxFault
  | .hasTXFault => askLines .qTxFault
  | .supportsFDMode => askLines .qFdCap
  | .attachCallback m cb => .wr (.port .arg0) cb :: runLines (.cbSet m)
  | .detachCallback m => runLines (.cbClr m)
  | .attachGeneralCallback cb => .wr (.port .arg0) cb :: runLines .cbGSet
  | .detachGeneralCallback => runLines .cbGClr

end Sys2Proof.Machine
end

