-- ==== Sys2Proof/Safety.lean ====
section
/-! DEFINITION. What claims about the block are stated in: good final states (60_exceptions.md R161, R162), the invariant
of every execution, how far a command is from its end (70_reset_and_hazards.md R197), and the fairness premises under which
commands end (R198). -/

namespace Sys2Proof.Machine

/-! ## Good final states -/

/-- No fault is recorded (60_exceptions.md R161). -/
def State.faultFree (s : State) : Prop := s.faults = FaultRecord.none

/-- Both sequencers are idle: no command is in flight, and so none is stuck (R162). -/
def State.quiescent (s : State) : Prop := s.app.seq = .idle ∧ s.isr.seq = .idle

/-- A good final state: no fault recorded, no command in flight, no step left in the schedule (R161, R162). -/
def State.goodFinal (s : State) : Prop := s.faultFree ∧ s.quiescent ∧ s.schedule = []

/-! ## Which positions a command has -/

/-- The frame is of the command's format: classic for SEND and RECV, FD for SENDFD and RECVFD (42_dispatch.md R131 to
R135). -/
def Frame.isClassic : Frame → Bool
  | .classic _ => true
  | .fd _ => false

/-- The kind and format of a command's notifications (42_dispatch.md R131 to R134); none for a command that notifies
nobody. -/
def dispatchKind : Instr → Option (Kind × Bool)
  | .send => some (.tx, true)
  | .sendFd => some (.tx, false)
  | .recv => some (.rx, true)
  | .recvFd => some (.rx, false)
  | .watchAll => none
  | .watchId => none
  | .watchIdMask => none
  | .watchRange => none
  | .setFilter _ => none
  | .setFilterMb _ _ => none
  | .lAttach => none
  | .lDetach => none
  | .lMbOn _ => none
  | .lMbOff _ => none
  | .lGenOn => none
  | .lGenOff => none
  | .lActive _ => none
  | .cbSet _ => none
  | .cbClr _ => none
  | .cbGSet => none
  | .cbGClr => none
  | .c2fd => none
  | .fd2c => none
  | .qFault => none
  | .qRxFault => none
  | .qTxFault => none
  | .qFdCap => none

/-- The command makes filter calls (40_filter_synthesizer.md R100). -/
def isFilterCommand : Instr → Bool
  | .watchAll => true
  | .watchId => true
  | .watchIdMask => true
  | .watchRange => true
  | .setFilter _ => true
  | .setFilterMb _ _ => true
  | .lAttach => false
  | .lDetach => false
  | .lMbOn _ => false
  | .lMbOff _ => false
  | .lGenOn => false
  | .lGenOff => false
  | .lActive _ => false
  | .send => false
  | .sendFd => false
  | .recv => false
  | .recvFd => false
  | .cbSet _ => false
  | .cbClr _ => false
  | .cbGSet => false
  | .cbGClr => false
  | .c2fd => false
  | .fd2c => false
  | .qFault => false
  | .qRxFault => false
  | .qTxFault => false
  | .qFdCap => false

/-- The pseudocode of command `i` has this segment (10_state.md R47, 42_dispatch.md R200). -/
def Seg.fits (i : Instr) : Seg → Bool
  | .first => true
  | .secondInstall _ => i == .watchAll
  | .sent f _ => dispatchKind i == some (.tx, f.isClassic)
  | .received _ f => dispatchKind i == some (.rx, f.isClassic)
  | .slot k f _ _ => dispatchKind i == some (k, f.isClassic)
  | .finish _ => isFilterCommand i || (dispatchKind i).isSome

/-- The pseudocode of command `i` makes this driver call, with this continuation. -/
def DrvCall.fits (i : Instr) (k : AfterCall) : DrvCall → Bool
  | .setFilter _ _ _ => isFilterCommand i && (k == .last || i == .watchAll)
  | .setFilterSpecific _ _ _ _ => isFilterCommand i
  | .sendRaw _ => i == .send
  | .sendRawFD _ => i == .sendFd
  | .receiveRaw => i == .recv
  | .receiveRawFD => i == .recvFd

/-- Command `i` can stand at this phase. -/
def Phase.fits (i : Instr) : Phase → Bool
  | .ready g => g.fits i
  | .call _ c _ k => c.fits i k
  | .notification _ n _ => dispatchKind i == some (n.kind, n.frame.isClassic)

/-! ## The invariant -/

/-- The latched word of a running command is legal, and its phase is one the command has (10_state.md R47, R48). -/
def Seq.latchedFits : Seq → Bool
  | .idle => true
  | .run w ph =>
    match decode w with
    | .ok i => ph.fits i
    | .error _ => false

/-- The outstanding call or notification of port `p` is the output its tag numbers (10_state.md R47, R54; log entry
2). -/
def Seq.shown (p : PortId) (out : List Output) : Seq → Prop
  | .idle => True
  | .run _ (.ready _) => True
  | .run _ (.call tag c _ _) => out[tag]? = some (.call p c)
  | .run _ (.notification tag n _) => out[tag]? = some (.notification p n)

/-- No mask has a bit above bit NUM_FILTERS (10_state.md R43). -/
def MaskFile.narrow (f : MaskFile) (numFilters : Nat) : Prop := ∀ e ∈ f, e.2.toNat < 2 ^ (numFilters + 1)

/-- What holds of port `p` in every execution. -/
structure State.PortInv (s : State) (p : PortId) : Prop where
  /-- SEQ[P] = RUN exactly when P.STATUS.BUSY = 1 (10_state.md R47). -/
  busy_iff_run : (s.port p).busy = (s.port p).seq.isRun
  /-- The latched word is legal and the phase belongs to its command (10_state.md R47, R48). -/
  latched_fits : (s.port p).seq.latchedFits = true
  /-- An outstanding suspension has been shown outside (10_state.md R47, R54). -/
  suspension_shown : (s.port p).seq.shown p s.out
  /-- An ILLEGAL bit is set only with the fault recorded (60_exceptions.md R161). -/
  illegal_recorded : (s.port p).illegal = true → s.faults.illegalCommand = true

/-- What holds in every execution of an instance with 1 ≤ NUM_FILTERS ≤ 32. -/
structure State.Inv (s : State) : Prop where
  /-- NUM_FILTERS is at least 1 (00_scope.md R12). -/
  filters_pos : 1 ≤ s.params.numFilters
  /-- NUM_FILTERS is at most 32 (00_scope.md R12). -/
  filters_le : s.params.numFilters ≤ 32
  /-- CBMB has NUM_FILTERS entries (10_state.md R39). -/
  cbmb_length : s.cbmb.length = s.params.numFilters
  /-- LMASK is in its canonical form, with no entry for handle 0 (10_state.md R43). -/
  lmask_wf : MaskFile.wf s.lmask = true
  /-- Every mask is NUM_FILTERS + 1 bits wide (10_state.md R43). -/
  lmask_narrow : MaskFile.narrow s.lmask s.params.numFilters
  /-- The APP port. -/
  app_inv : s.PortInv .app
  /-- The ISR port. -/
  isr_inv : s.PortInv .isr

/-! ## Distance of a command from its end -/

/-- An upper bound on the segments still to run from this one on (70_reset_and_hazards.md R197). -/
def Seg.rank : Seg → Nat
  | .first => 7
  | .secondInstall _ => 2
  | .sent _ _ => 6
  | .received _ _ => 6
  | .slot _ _ i _ => 5 - i.val
  | .finish _ => 1

/-- The same from a phase on: the segment that an answer or acknowledgement will enable is still to run. -/
def Phase.rank : Phase → Nat
  | .ready g => g.rank
  | .call _ (.setFilter _ _ _) _ .secondInstall => 2
  | .call _ (.setFilter _ _ _) _ .last => 1
  | .call _ (.setFilterSpecific _ _ _ _) _ _ => 1
  | .call _ (.sendRaw _) _ _ => 6
  | .call _ (.sendRawFD _) _ _ => 6
  | .call _ .receiveRaw _ _ => 6
  | .call _ .receiveRawFD _ _ => 6
  | .notification _ n _ => 4 - n.slot.val

/-- The same for a sequencer: 0 when it is idle. -/
def Seq.rank : Seq → Nat
  | .idle => 0
  | .run _ ph => ph.rank

/-! ## Executions and fairness -/

/-- An execution without end: the atomic step `turns n` leads from `states n` to `states (n + 1)` (20_memory.md R74). Each
step is given as a schedule of one entry (log entry 1). -/
def isExecution (states : Nat → State) (turns : Nat → Turn) : Prop :=
  ∀ n, step { states n with schedule := [turns n] } = .next (states (n + 1))

/-- Port `p` waits for the answer to its call number `tag`. -/
def State.awaitsAnswer (s : State) (p : PortId) (tag : Nat) : Prop :=
  ∃ w c fdcap k, (s.port p).seq = .run w (.call tag c fdcap k)

/-- Port `p` waits for the acknowledgement of its notification number `tag`. -/
def State.awaitsAcknowledgement (s : State) (p : PortId) (tag : Nat) : Prop :=
  ∃ w n v, (s.port p).seq = .run w (.notification tag n v)

/-- The next segment of port `p` may execute (20_memory.md R75, R76). -/
def State.mayRun (s : State) (p : PortId) : Prop := s.active = p ∧ s.enabled.isSome = true

/-- The step is the driver's answer to call number `tag` of port `p`. -/
def Turn.answers (x : Turn) (p : PortId) (tag : Nat) : Prop := ∃ a, x = .input (.driverAnswer p tag a)

/-- The first premise of R198: the driver answers every call it is given, unless RST drops the call (R178). -/
def driverAnswersEveryCall (states : Nat → State) (turns : Nat → Turn) : Prop :=
  ∀ n p tag, (states n).awaitsAnswer p tag →
    ∃ m, n ≤ m ∧ ((turns m).answers p tag ∨ turns m = .input .rst)

/-- The second premise of R198: every listener acknowledges every notification it is sent, unless RST drops it (R178). -/
def listenersAcknowledgeEveryNotification (states : Nat → State) (turns : Nat → Turn) : Prop :=
  ∀ n p tag, (states n).awaitsAcknowledgement p tag →
    ∃ m, n ≤ m ∧ (turns m = .input (.listenerAck p tag) ∨ turns m = .input .rst)

/-- The third premise of R198: SEQ[ISR] does not stay in RUN forever. -/
def isrDoesNotRunForever (states : Nat → State) : Prop := ∀ n, ∃ m, n ≤ m ∧ (states m).isr.seq = .idle

/-- The block itself goes on: a port whose next segment may execute again and again executes one again and again. R198
does not say this of the block, and a command cannot end without it (log entry 21). -/
def enabledSegmentsAreTaken (states : Nat → State) (turns : Nat → Turn) : Prop :=
  ∀ p, (∀ n, ∃ m, n ≤ m ∧ (states m).mayRun p) → ∀ n, ∃ m, n ≤ m ∧ (states m).mayRun p ∧ turns m = .block

end Sys2Proof.Machine
end

