-- ==== Sys2Proof/Certificates/Slice0/Obligations.lean ====
section
/-! DEFINITION. The statements about the block, from the numbered rules of spec/, and the vocabulary they are written in. -/

namespace Sys2Proof.Claims

open Sys2Proof.Machine

/-! ## Vocabulary: what a step leaves as it was -/

/-- Every port but `p` is as it was. -/
def otherPortSame (s t : State) (p : PortId) : Prop := ∀ q, q ≠ p → t.port q = s.port q

/-- CBMB and CBGEN are as they were. -/
def callbacksSame (s t : State) : Prop := t.cbmb = s.cbmb ∧ t.cbgen = s.cbgen

/-- FLAGS, BUSSPEED, FDSPEED and ENPIN are as they were. -/
def driverFieldsSame (s t : State) : Prop :=
  t.flags = s.flags ∧ t.busSpeed = s.busSpeed ∧ t.fdSpeed = s.fdSpeed ∧ t.enPin = s.enPin

/-- All shared state and the parameters are as they were. -/
def sharedSame (s t : State) : Prop :=
  t.lslot = s.lslot ∧ t.lmask = s.lmask ∧ callbacksSame s t ∧ driverFieldsSame s t ∧ t.params = s.params

/-- Nothing was shown outside, no fault was recorded, the schedule is as it was. -/
def quiet (s t : State) : Prop := t.out = s.out ∧ t.faults = s.faults ∧ t.schedule = s.schedule

/-- The port's registers `r` after `complete(v)` (R26): RESULT, BUSY and SEQ, and no other. -/
def donePort (r : Port) (v : Word) : Port := { r with result := v, busy := false, seq := .idle }

/-- `t` is `s` after `complete(v)` on the active port, and nothing else. -/
def completes (s t : State) (v : Word) : Prop :=
  t.port s.active = donePort (s.port s.active) v ∧ otherPortSame s t s.active ∧ sharedSame s t ∧ quiet s t

/-- Port `p` has completed with `v` (R26): RESULT = v, and BUSY = 0. -/
def completedWith (t : State) (p : PortId) (v : Word) : Prop := (t.port p).result = v ∧ (t.port p).busy = false

/-- In `t` the active port of `s` is as it was but for the phase of its sequencer, which is `ph`: its latched word stays. -/
def atPhase (s t : State) (ph : Phase) : Prop :=
  ∃ w ph0, (s.port s.active).seq = .run w ph0 ∧ t.port s.active = { s.port s.active with seq := .run w ph }

/-- `t` is `s` after the active port has made the driver call `c` and waits for its answer, with the fault record `fr`,
and nothing else. -/
def callsWith (s t : State) (c : DrvCall) (k : AfterCall) (fr : FaultRecord) : Prop :=
  atPhase s t (.call s.out.length c s.flags.fdcap k) ∧ t.out = s.out ++ [.call s.active c] ∧ t.faults = fr ∧
    t.schedule = s.schedule ∧ otherPortSame s t s.active ∧ sharedSame s t

/-- The same with no fault recorded. -/
def calls (s t : State) (c : DrvCall) (k : AfterCall) : Prop := callsWith s t c k s.faults

/-- The fault record after a command consumed a frame of LENGTH `len` and capacity `cap` (R161). -/
def afterConsuming (fr : FaultRecord) (len : Byte) (cap : Nat) : FaultRecord :=
  { fr with lengthContract := fr.lengthContract || decide (cap < len.toNat) }

/-- The next entry of the schedule. -/
def nextTurn (s : State) (x : Turn) (rest : List Turn) : Prop := s.schedule = x :: rest

/-- The step about to be taken is a turn of the block. -/
def blockNext (s : State) : Prop := s.schedule = [] ∨ ∃ rest, s.schedule = .block :: rest

/-- The step about to be taken is RST. -/
def rstNext (s : State) : Prop := ∃ rest, s.schedule = .input .rst :: rest

/-- The six Filter Synthesizer commands. -/
def isFilter (i : Instr) : Prop :=
  i = .watchAll ∨ i = .watchId ∨ i = .watchIdMask ∨ i = .watchRange ∨ (∃ x, i = .setFilter x) ∨
    ∃ n x, i = .setFilterMb n x

/-- The four transmit and receive commands. -/
def isTransfer (i : Instr) : Prop := i = .send ∨ i = .sendFd ∨ i = .recv ∨ i = .recvFd

/-- The driver call a filter command makes in its first segment, read off the rules R103 to R106, R110 and R111 (the range
by the loop of R106). -/
def firstFilterCall (s : State) : Instr → Option DrvCall
  | .watchAll => some (.setFilter 0 0 (s.params.watchAllOrder == .extFirst))
  | .watchId =>
    let id := (s.port s.active).arg0
    some (if id.toNat ≤ 0x7FF then .setFilter id 0x7FF false else .setFilter id 0x1FFFFFFF true)
  | .watchIdMask =>
    let id := (s.port s.active).arg0
    some (.setFilter id (s.port s.active).arg1 (decide (0x7FF < id.toNat)))
  | .watchRange =>
    let a := (s.port s.active).arg0
    let b := (s.port s.active).arg1
    let r := if b.toNat < a.toNat then rangeByLoop b a else rangeByLoop a b
    some (.setFilter r.1 r.2 (decide (0x7FF < r.1.toNat)))
  | .setFilter x => some (.setFilter (s.port s.active).arg0 (s.port s.active).arg1 x)
  | .setFilterMb n x => some (.setFilterSpecific (BitVec.ofNat 8 n) (s.port s.active).arg0 (s.port s.active).arg1 x)
  | .lAttach => none
  | .lDetach => none
  | .lMbOn _ => none
  | .lMbOff _ => none
  | .lGenOn => none
  | .lGenOff => none
  | .lActive _ => none
  | .send => none
  | .sendFd => none
  | .recv => none
  | .recvFd => none
  | .cbSet _ => none
  | .cbClr _ => none
  | .cbGSet => none
  | .cbGClr => none
  | .c2fd => none
  | .fd2c => none
  | .qFault => none
  | .qRxFault => none
  | .qTxFault => none
  | .qFdCap => none

/-- The turns in which the block runs a fan-out over the slots `hs` to the end and each notification is acknowledged as
soon as it is sent; `tag` numbers the next output. -/
def fanTurns (p : PortId) : List Word → Nat → List Turn
  | [], _ => [.block]
  | h :: rest, tag =>
    if h = 0 then .block :: fanTurns p rest tag
    else .block :: .input (.listenerAck p tag) :: fanTurns p rest (tag + 1)

/-- The notifications of a fan-out over the slots `ls`: one for each slot that is not empty, in index order. -/
def fanOutputs (p : PortId) (k : Kind) (f : Frame) (ls : Vector Word 4) : List Output :=
  [0, 1, 2, 3].filterMap fun i : Fin 4 =>
    if ls[i] = 0 then none else some (.notification p { kind := k, slot := i, handle := ls[i], frame := f })

/-- The assigned opcodes of R88. -/
def assignedOpcodes : List Nat :=
  [0x10, 0x11, 0x12, 0x13, 0x14, 0x15, 0x20, 0x21, 0x22, 0x23, 0x24, 0x25, 0x26, 0x30, 0x31, 0x32, 0x33, 0x34, 0x35, 0x36,
    0x37, 0x40, 0x41, 0x50, 0x51, 0x52, 0x53]

/-- The opcodes whose N column is "n" (R88). -/
def opcodesWithN : List Nat := [0x15, 0x22, 0x23, 0x26, 0x34, 0x35]

/-- The opcodes whose X column is "x" (R88). -/
def opcodesWithX : List Nat := [0x14, 0x15]

/-- The port registers a host may write and that hold their value: those of R158(b) but P.CMD. -/
def storedRegs : List Reg :=
  [.arg0, .arg1, .handle, .cfId, .cfFid, .cfCtrl, .cfTs, .ffId, .ffFid, .ffCtrl, .ffTs] ++
    (List.finRange 2).map .cfData ++ (List.finRange 16).map .ffData

/-- The bits of a stored register that hold what is written; the reserved bits of CF_CTRL and FF_CTRL read 0 (R44). -/
def writableBits : Reg → Word
  | .cfCtrl => 0x00FFFF03
  | .ffCtrl => 0x00FFFF07
  | _ => 0xFFFFFFFF

/-- `o` is an offset of the window at which no register is mapped (R44, R45). -/
def unmappedOffset (o : Nat) : Prop :=
  o < 0x300 ∧ (∀ (p : PortId) (r : Reg), o ≠ p.base + r.offset) ∧ ∀ r : SharedReg, o ≠ r.offset

end Sys2Proof.Claims

open Sys2Proof Sys2Proof.Machine Sys2Proof.Claims

/-! ## Encoding -/

/-- Decoding the encoding of a well-formed command gives it back, with every operand (R84, R88, R91, R94). -/
def Obligations.DecodeOfEncodeIsTheCommand : Prop :=
  ∀ i : Instr, i.wellFormed = true → decode (encode i) = .ok i

/-- A legal word decodes to a well-formed command whose encoding is that word: no bit of a legal word is dropped (R84,
R94). -/
def Obligations.EncodeOfDecodeIsTheWord : Prop :=
  ∀ (w : Word) (i : Instr), decode w = .ok i → i.wellFormed = true ∧ encode i = w

/-- R91: the legal words, by their four conditions. -/
def Obligations.LegalWordsAreThoseOfTheOpcodeMap : Prop :=
  ∀ w : Word, isLegal w = true ↔
    (w.toNat % 256 ∈ assignedOpcodes ∧ w.toNat / 2 ^ 17 = 0 ∧
      (w.toNat / 2 ^ 8 % 256 = 0 ∨ w.toNat % 256 ∈ opcodesWithN) ∧
      (w.toNat / 2 ^ 16 % 2 = 0 ∨ w.toNat % 256 ∈ opcodesWithX))

/-- R98: the spec's example words. -/
def Obligations.ExampleWordsDecodeAsTheSpecSays : Prop :=
  decode 0x00000010 = .ok .watchAll ∧ decode 0x00000013 = .ok .watchRange ∧
    decode 0x00010014 = .ok (.setFilter true) ∧ decode 0x00010515 = .ok (.setFilterMb 5 true) ∧
    decode 0x00000322 = .ok (.lMbOn 3) ∧ decode 0x00000826 = .ok (.lActive 8) ∧
    decode 0x00000734 = .ok (.cbSet 7) ∧ decode 0x00000041 = .ok .fd2c ∧ decode 0x00000053 = .ok .qFdCap ∧
    isLegal 0x00000000 = false ∧ isLegal 0x00000110 = false ∧ isLegal 0x00010022 = false ∧
    isLegal 0x00020010 = false ∧ isLegal 0x00000016 = false

/-! ## Steps -/

/-- Where the active port has a command whose next segment is enabled, a turn of the block is `exec` of the command its
latched word decodes to, at the state with that turn taken off the schedule; and `withFetchWord` places a word exactly
there (R47, R48, R75, R76; log entries 1 and 7 are the model's). -/
def Obligations.StepRunsTheLatchedCommand : Prop :=
  (∀ (s : State) (w : Word) (g : Seg) (i : Instr), (s.port s.active).seq = .run w (.ready g) → decode w = .ok i →
    (s.schedule = [] → step s = exec i s) ∧
    (∀ rest, nextTurn s .block rest → step s = exec i { s with schedule := rest })) ∧
  (∀ (s : State) (w : Word) (i : Instr), decode w = .ok i →
    step (s.withFetchWord 32 w.toNat) = exec i (s.issue s.active w) ∧ (s.issue s.active w).enabled = some .first)

/-- A port that waits for an answer or an acknowledgement has no step, nor has APP while ISR waits, and with both
ports idle the block runs nothing (R162, R180, R76; that the model names the stuck state as a fault is log entry 6). -/
def Obligations.BlockWithoutAnEnabledSegmentDoesNothing : Prop :=
  (∀ (s : State) (w : Word) (tag : Nat) (c : DrvCall) (b : Bool) (k : AfterCall), blockNext s →
    (s.port s.active).seq = .run w (.call tag c b k) → step s = .fault (.stuck s.active)) ∧
  (∀ (s : State) (w : Word) (tag : Nat) (n : Notification) (v : Word), blockNext s →
    (s.port s.active).seq = .run w (.notification tag n v) → step s = .fault (.stuck s.active)) ∧
  (∀ (s : State) (rest : List Turn), s.quiescent → nextTurn s .block rest →
    step s = .next { s with schedule := rest }) ∧
  (∀ s : State, s.quiescent → s.schedule = [] → step s = .next s)

/-- R48: a host write to P.CMD. -/
def Obligations.CommandWriteIssuesOrIsRefused : Prop :=
  ∀ (s : State) (p : PortId) (w : Word) (rest : List Turn),
    nextTurn s (.input (.memWrite (s.params.blockBase + p.base + 0x00) 4 w)) rest →
    ((s.port p).busy = true ∨ isLegal w = false →
      ∃ t, step s = .next t ∧ t.port p = { s.port p with illegal := true } ∧ otherPortSame s t p ∧ sharedSame s t ∧
        t.out = s.out ∧ t.faults = { s.faults with illegalCommand := true } ∧ t.schedule = rest) ∧
    ((s.port p).busy = false → isLegal w = true →
      ∃ t, step s = .next t ∧ t.port p = { s.port p with busy := true, seq := .run w (.ready .first) } ∧
        otherPortSame s t p ∧ sharedSame s t ∧ t.out = s.out ∧ t.faults = s.faults ∧ t.schedule = rest)

/-- R158: what raises IllegalCommand, and its whole effect; R159: the refused write has no partial effect. -/
def Obligations.RefusedWriteSetsIllegalAndNothingElse : Prop :=
  ∀ (s : State) (p : PortId) (r : Reg) (v : Word) (rest : List Turn),
    nextTurn s (.input (.memWrite (regAddress s.params p r) 4 v)) rest →
    ((r = .cmd ∧ (s.port p).busy = false ∧ isLegal v = false) ∨
      ((s.port p).busy = true ∧ (r = .cmd ∨ r ∈ storedRegs))) →
    ∃ t, step s = .next t ∧ t.port p = { s.port p with illegal := true } ∧ otherPortSame s t p ∧ sharedSame s t ∧
      t.out = s.out ∧ t.faults = { s.faults with illegalCommand := true } ∧ t.schedule = rest

/-- R66, R67, R68: bad accesses, writes to read-only registers and accesses to unmapped offsets change nothing, a read
returns 0, and BadRegisterAccess is recorded (R161); a read of P.CMD returns 0. That an access of a wrong width or alignment
to a register of a busy port is such a bad access, and leaves ILLEGAL as it was, is the model's reading, log entry 13. -/
def Obligations.BadAccessesAreIgnoredAndRecorded : Prop :=
  (∀ (s : State) (o n : Nat) (rest : List Turn),
    nextTurn s (.input (.memRead (s.params.blockBase + o) n)) rest → o < 0x300 →
    (n ≠ 4 ∨ o % 4 ≠ 0 ∨ unmappedOffset o) →
    step s = .next { s with
      schedule := rest
      out := s.out ++ [.hostRead (s.params.blockBase + o) n 0]
      faults := { s.faults with badRegisterAccess := true } }) ∧
  (∀ (s : State) (o n : Nat) (v : Word) (rest : List Turn),
    nextTurn s (.input (.memWrite (s.params.blockBase + o) n v)) rest → o < 0x300 →
    (n ≠ 4 ∨ o % 4 ≠ 0 ∨ unmappedOffset o ∨ (∃ p : PortId, o = p.base + 0x10 ∨ o = p.base + 0x14) ∨
      ∃ r : SharedReg, o = r.offset) →
    step s = .next { s with schedule := rest, faults := { s.faults with badRegisterAccess := true } }) ∧
  (∀ (s : State) (p : PortId) (rest : List Turn),
    nextTurn s (.input (.memRead (s.params.blockBase + p.base) 4)) rest →
    step s = .next { s with schedule := rest, out := s.out ++ [.hostRead (s.params.blockBase + p.base) 4 0] })

/-- A read of a mapped register returns its current value and has no side effect (R69, R71, R82), at the address of R201,
on a busy port too. -/
def Obligations.RegisterReadsReturnTheRegister : Prop :=
  (∀ (s : State) (p : PortId) (r : Reg) (rest : List Turn),
    nextTurn s (.input (.memRead (s.params.blockBase + p.base + r.offset) 4)) rest →
    step s = .next { s with
      schedule := rest
      out := s.out ++ [.hostRead (s.params.blockBase + p.base + r.offset) 4 ((s.port p).readReg r)] }) ∧
  (∀ (s : State) (r : SharedReg) (rest : List Turn),
    nextTurn s (.input (.memRead (s.params.blockBase + r.offset) 4)) rest →
    step s = .next { s with
      schedule := rest
      out := s.out ++ [.hostRead (s.params.blockBase + r.offset) 4 (s.readShared r)] })

/-- R44, R45: where each register lies, and what each holds: RESULT, the operands and the whole-word fields of CF and FF
(R31, R33), BUSSPEED and FDSPEED as they are, STATUS, CF_CTRL, FF_CTRL and CAPS bit by bit, ENPIN and NUMFILT
zero-extended. The data words are those of `DataWordsAreLittleEndian`. -/
def Obligations.RegisterMapIsThatOfTheTables : Prop :=
  (Reg.all.map Reg.offset = [0x00, 0x04, 0x08, 0x0C, 0x10, 0x14, 0x20, 0x24, 0x28, 0x2C, 0x30, 0x34, 0x40, 0x44, 0x48, 0x4C,
    0x50, 0x54, 0x58, 0x5C, 0x60, 0x64, 0x68, 0x6C, 0x70, 0x74, 0x78, 0x7C, 0x80, 0x84, 0x88, 0x8C]) ∧
  (SharedReg.all.map SharedReg.offset = [0x200, 0x204, 0x208, 0x20C, 0x210]) ∧
  (PortId.base .app = 0x000 ∧ PortId.base .isr = 0x100) ∧
  (∀ r : Port, (r.readReg .status).toNat = (if r.busy then 1 else 0) + (if r.illegal then 2 else 0)) ∧
  (∀ r : Port, (r.readReg .cfCtrl).toNat = (if r.cf.rtr then 1 else 0) + (if r.cf.ext then 2 else 0) +
    r.cf.priority.toNat * 2 ^ 8 + r.cf.length.toNat * 2 ^ 16) ∧
  (∀ r : Port, (r.readReg .ffCtrl).toNat = (if r.ff.rrs then 1 else 0) + (if r.ff.ext then 2 else 0) +
    (if r.ff.fdMode then 4 else 0) + r.ff.priority.toNat * 2 ^ 8 + r.ff.length.toNat * 2 ^ 16) ∧
  (∀ s : State, (s.readShared .caps).toNat = (if s.flags.faulted then 1 else 0) + (if s.flags.rxFault then 2 else 0) +
    (if s.flags.txFault then 4 else 0) + (if s.flags.fdcap then 8 else 0)) ∧
  (∀ s : State, (s.readShared .enPin).toNat = s.enPin.toNat) ∧
  (∀ s : State, s.params.numFilters ≤ 32 → (s.readShared .numFilt).toNat = s.params.numFilters) ∧
  (∀ r : Port, r.readReg .cmd = 0 ∧ r.readReg .arg0 = r.arg0 ∧ r.readReg .arg1 = r.arg1 ∧ r.readReg .handle = r.handle ∧
    r.readReg .result = r.result) ∧
  (∀ r : Port, r.readReg .cfId = r.cf.id ∧ r.readReg .cfFid = r.cf.fid ∧ r.readReg .cfTs = r.cf.timestamp) ∧
  (∀ r : Port, r.readReg .ffId = r.ff.id ∧ r.readReg .ffFid = r.ff.fid ∧ r.readReg .ffTs = r.ff.timestamp) ∧
  (∀ s : State, s.readShared .busSpeed = s.busSpeed ∧ s.readShared .fdSpeed = s.fdSpeed)

/-- A write to a stored register of an idle port is read back, every other register of the window reads as before, and
nothing but that port's registers changes (R31, R44, R69). -/
def Obligations.IdleWriteIsReadBackAndDisturbsNothing : Prop :=
  ∀ (s : State) (p : PortId) (r : Reg) (v : Word) (rest : List Turn),
    nextTurn s (.input (.memWrite (s.params.blockBase + p.base + r.offset) 4 v)) rest → r ∈ storedRegs →
    (s.port p).busy = false →
    ∃ t, step s = .next t ∧ (t.port p).readReg r = v &&& writableBits r ∧
      (∀ r', r' ≠ r → (t.port p).readReg r' = (s.port p).readReg r') ∧
      (t.port p).seq = (s.port p).seq ∧ otherPortSame s t p ∧ sharedSame s t ∧ t.out = s.out ∧ t.faults = s.faults ∧
      t.schedule = rest

/-- R63: the byte order of the data words, in both frame registers. -/
def Obligations.DataWordsAreLittleEndian : Prop :=
  (∀ (r : Port) (k : Fin 2) (j : Fin 4), (r.readReg (.cfData k)).extractLsb' (8 * j.val) 8 = r.cf.data[4 * k.val + j.val]) ∧
  (∀ (r : Port) (k : Fin 16) (j : Fin 4),
    (r.readReg (.ffData k)).extractLsb' (8 * j.val) 8 = r.ff.data[4 * k.val + j.val]) ∧
  (∀ (r : Port) (k : Fin 2) (v : Word) (j : Fin 8), (r.storeReg (.cfData k) v).cf.data[j] =
    if j.val / 4 = k.val then v.extractLsb' (8 * (j.val % 4)) 8 else r.cf.data[j]) ∧
  (∀ (r : Port) (k : Fin 16) (v : Word) (j : Fin 64), (r.storeReg (.ffData k) v).ff.data[j] =
    if j.val / 4 = k.val then v.extractLsb' (8 * (j.val % 4)) 8 else r.ff.data[j])

/-- R64, R65: the views of a payload alias its bytes: each wider view is made of the narrower ones, and a write through a
view is seen by the others. -/
def Obligations.PayloadViewsAliasTheSameBytes : Prop :=
  (∀ d : Vector Byte 8, lowHalf d = d[3] ++ d[2] ++ d[1] ++ d[0] ∧ highHalf d = d[7] ++ d[6] ++ d[5] ++ d[4]) ∧
  (∀ (d : Vector Byte 8) (k : Fin 4), halfView d k.val = d[2 * k.val + 1] ++ d[2 * k.val]) ∧
  (∀ (d : Vector Byte 64) (k : Fin 8), doubleView d k.val = dataWord d (2 * k.val + 1) ++ dataWord d (2 * k.val)) ∧
  (∀ (d : Vector Byte 64) (k : Fin 16), dataWord d k.val = halfView d (2 * k.val + 1) ++ halfView d (2 * k.val)) ∧
  (∀ (d : Vector Byte 64) (k : Fin 32), halfView d k.val = d[2 * k.val + 1] ++ d[2 * k.val]) ∧
  (∀ (d : Vector Byte 64) (k : Fin 8) (v : BitVec 64), doubleView (setDoubleView d k.val v) k.val = v ∧
    ∀ j : Fin 64, j.val / 8 ≠ k.val → (setDoubleView d k.val v)[j] = d[j]) ∧
  (∀ (d : Vector Byte 64) (k : Fin 32) (v : BitVec 16), halfView (setHalfView d k.val v) k.val = v ∧
    ∀ j : Fin 64, j.val / 2 ≠ k.val → (setHalfView d k.val v)[j] = d[j])

/-! ## Invariants and rules of the whole block -/

/-- The invariant of the block (`State.Inv`) is kept by every step, whoever takes it. -/
def Obligations.EveryStepKeepsTheInvariant : Prop := ∀ s t : State, s.Inv → step s = .next t → t.Inv

/-- The reset state meets the invariant. -/
def Obligations.ResetStateMeetsTheInvariant : Prop := State.reset.Inv

/-- R160: ILLEGAL is cleared by RST and by no other step. -/
def Obligations.IllegalStaysSetUntilReset : Prop :=
  (∀ (s t : State) (p : PortId), step s = .next t → (s.port p).illegal = true → ¬ rstNext s → (t.port p).illegal = true) ∧
  (∀ (s : State) (p : PortId), rstNext s → ∃ t, step s = .next t ∧ (t.port p).illegal = false)

/-- R161: no step clears the fault record, and a step that sets an ILLEGAL bit records IllegalCommand. (That RST keeps the
record is log entry 10.) -/
def Obligations.FaultRecordIsNeverCleared : Prop :=
  ∀ s t : State, step s = .next t →
    (s.faults.illegalCommand = true → t.faults.illegalCommand = true) ∧
    (s.faults.badRegisterAccess = true → t.faults.badRegisterAccess = true) ∧
    (s.faults.lengthContract = true → t.faults.lengthContract = true) ∧
    (∀ p, (s.port p).illegal = false → (t.port p).illegal = true → t.faults.illegalCommand = true)

/-- R161: nothing but the listed events records a fault: a refused write of R158 records IllegalCommand, an access of R66,
R67 or R68 records BadRegisterAccess, and a segment that consumes a frame with LENGTH over capacity records
LengthContract. (That each event does record it is said where the event is stated.) A step of any other kind from a
fault-free state leaves it fault-free. Three points are the model's reading: an address outside the window records nothing
(log entry 11), an access of a wrong width or alignment to a busy port is no IllegalCommand (log entry 13), and the segment
that records LengthContract is the one that reads the frame (log entry 15). -/
def Obligations.OnlyTheListedEventsRecordAFault : Prop :=
  (∀ s t : State, step s = .next t →
    (t.faults.illegalCommand ≠ s.faults.illegalCommand → ∃ p r v rest,
      nextTurn s (.input (.memWrite (regAddress s.params p r) 4 v)) rest ∧
      ((r = .cmd ∧ isLegal v = false) ∨ ((s.port p).busy = true ∧ (r = .cmd ∨ r ∈ storedRegs)))) ∧
    (t.faults.badRegisterAccess ≠ s.faults.badRegisterAccess → ∃ o n rest, o < 0x300 ∧
      ((nextTurn s (.input (.memRead (s.params.blockBase + o) n)) rest ∧ (n ≠ 4 ∨ o % 4 ≠ 0 ∨ unmappedOffset o)) ∨
        ∃ v, nextTurn s (.input (.memWrite (s.params.blockBase + o) n v)) rest ∧
          (n ≠ 4 ∨ o % 4 ≠ 0 ∨ unmappedOffset o ∨ (∃ p : PortId, o = p.base + 0x10 ∨ o = p.base + 0x14) ∨
            ∃ r : SharedReg, o = r.offset))) ∧
    (t.faults.lengthContract ≠ s.faults.lengthContract → blockNext s ∧
      ((s.enabled = some .first ∧
          (((s.fetch = .command .send ∨ s.fetch = .command .c2fd) ∧ 8 < (s.port s.active).cf.length.toNat) ∨
            ((s.fetch = .command .sendFd ∨ s.fetch = .command .fd2c) ∧ 64 < (s.port s.active).ff.length.toNat))) ∨
        ∃ n, n ≠ 0 ∧ ((∃ f, s.enabled = some (.received n (.classic f)) ∧ 8 < f.length.toNat) ∨
          ∃ f, s.enabled = some (.received n (.fd f)) ∧ 64 < f.length.toNat)))) ∧
  (∀ (s t : State) (w : StatusWrite) (r : CallbackRead) (p : PortId) (tag : Nat) (a : DrvAnswer) (rest : List Turn),
    s.faultFree → (s.schedule = .input (.driverStatus w) :: rest ∨ s.schedule = .input (.callbackRead r) :: rest ∨
      s.schedule = .input (.driverAnswer p tag a) :: rest ∨ s.schedule = .input (.listenerAck p tag) :: rest ∨
      s.schedule = .input .rst :: rest) → step s = .next t → t.faultFree)

/-- A turn of the block changes no register of a port but the one whose command it runs, and of that one neither ARG0,
ARG1, HANDLE nor ILLEGAL (R31, R34, R46). -/
def Obligations.BlockTurnTouchesOnlyTheIssuingPort : Prop :=
  ∀ s t : State, blockNext s → step s = .next t →
    otherPortSame s t s.active ∧ (t.port s.active).arg0 = (s.port s.active).arg0 ∧
    (t.port s.active).arg1 = (s.port s.active).arg1 ∧ (t.port s.active).handle = (s.port s.active).handle ∧
    (t.port s.active).illegal = (s.port s.active).illegal

/-- R76: while SEQ[ISR] = RUN no APP segment executes; an ISR command is issued and runs whatever APP's state; a busy ISR
port takes no second command. -/
def Obligations.InterruptContextHasPriority : Prop :=
  (∀ s t : State, s.isr.seq ≠ .idle → blockNext s → step s = .next t → t.app = s.app) ∧
  (∀ (s : State) (w : Word) (rest : List Turn), nextTurn s (.input (.memWrite (s.params.blockBase + 0x100) 4 w)) rest →
    s.isr.busy = false → isLegal w = true → ∃ t, step s = .next t ∧ t.isr.seq = .run w (.ready .first) ∧ t.app = s.app) ∧
  (∀ (s : State) (w : Word) (g : Seg) (i : Instr) (rest : List Turn), nextTurn s .block rest →
    s.isr.seq = .run w (.ready g) → decode w = .ok i →
    ∃ t, step s = .next t ∧ t.isr ≠ s.isr ∧ t.app = s.app) ∧
  (∀ (s : State) (w : Word) (rest : List Turn), nextTurn s (.input (.memWrite (s.params.blockBase + 0x100) 4 w)) rest →
    s.isr.busy = true → ∃ t, step s = .next t ∧ t.isr.seq = s.isr.seq)

/-- FLAGS, BUSSPEED, FDSPEED and ENPIN change only by a driver status write, one field a write, and by RST (R40, R41,
R52). -/
def Obligations.OnlyTheDriverWritesFlagsAndSpeeds : Prop :=
  (∀ s t : State, step s = .next t → ¬ rstNext s → (¬ ∃ x rest, nextTurn s (.input (.driverStatus x)) rest) →
    driverFieldsSame s t) ∧
  (∀ (s : State) (x : StatusWrite) (rest : List Turn), nextTurn s (.input (.driverStatus x)) rest →
    step s = .next (match x with
      | .faulted b => { s with schedule := rest, flags := { s.flags with faulted := b } }
      | .rxFault b => { s with schedule := rest, flags := { s.flags with rxFault := b } }
      | .txFault b => { s with schedule := rest, flags := { s.flags with txFault := b } }
      | .fdcap b => { s with schedule := rest, flags := { s.flags with fdcap := b } }
      | .busSpeed v => { s with schedule := rest, busSpeed := v }
      | .fdSpeed v => { s with schedule := rest, fdSpeed := v }
      | .enPin v => { s with schedule := rest, enPin := v }))

/-- LSLOT changes only by a segment of L_ATTACH or L_DETACH, LMASK only by one of L_ATTACH, L_MBON, L_MBOFF, L_GENON or
L_GENOFF, CBMB and CBGEN only by one of the CB_* commands, and all of them by RST; the parameters never change (R12, R38,
R39, R43). -/
def Obligations.SharedFilesHaveTheirOnlyWriters : Prop :=
  ∀ s t : State, step s = .next t →
    (t.lslot ≠ s.lslot → rstNext s ∨ (blockNext s ∧ (s.fetch = .command .lAttach ∨ s.fetch = .command .lDetach))) ∧
    (t.lmask ≠ s.lmask → rstNext s ∨ (blockNext s ∧ (s.fetch = .command .lAttach ∨ s.fetch = .command .lGenOn ∨
      s.fetch = .command .lGenOff ∨ ∃ n, s.fetch = .command (.lMbOn n) ∨ s.fetch = .command (.lMbOff n)))) ∧
    (t.cbmb ≠ s.cbmb → rstNext s ∨ (blockNext s ∧ ∃ n, s.fetch = .command (.cbSet n) ∨ s.fetch = .command (.cbClr n))) ∧
    (t.cbgen ≠ s.cbgen → rstNext s ∨ (blockNext s ∧ (s.fetch = .command .cbGSet ∨ s.fetch = .command .cbGClr))) ∧
    t.params = s.params

/-- RESULT changes only by the step that completes the port's command, which clears BUSY and frees the sequencer in the
same step, and by RST (R26, R33, R49). -/
def Obligations.OnlyCompletionWritesResult : Prop :=
  ∀ (s t : State) (p : PortId), step s = .next t → ¬ rstNext s → (t.port p).result ≠ (s.port p).result →
    blockNext s ∧ p = s.active ∧ (t.port p).busy = false ∧ (t.port p).seq = .idle

/-- While a port is busy and stays so, its operand registers stay as they were, and its frame registers too except by a
segment of its own command (R48, R71). -/
def Obligations.BusyPortKeepsItsOperands : Prop :=
  ∀ (s t : State) (p : PortId), step s = .next t → ¬ rstNext s → (s.port p).busy = true →
    (t.port p).arg0 = (s.port p).arg0 ∧ (t.port p).arg1 = (s.port p).arg1 ∧ (t.port p).handle = (s.port p).handle ∧
    (¬ blockNext s → (t.port p).cf = (s.port p).cf ∧ (t.port p).ff = (s.port p).ff)

/-- R177, R178 and R56 to R60: RST sets every register and file in one step, makes no call, sends no notification; the
state a run starts from holds the same values. -/
def Obligations.ResetSetsEveryRegister : Prop :=
  (∀ (s : State) (rest : List Turn), nextTurn s (.input .rst) rest →
    ∃ t, step s = .next t ∧
      (∀ p, (t.port p).arg0 = 0 ∧ (t.port p).arg1 = 0 ∧ (t.port p).handle = 0 ∧ (t.port p).result = 0 ∧
        (t.port p).busy = false ∧ (t.port p).illegal = false ∧ (t.port p).cf = .zero ∧ (t.port p).ff = .zero ∧
        (t.port p).seq = .idle) ∧
      (∀ i : Fin 4, t.lslot[i] = 0) ∧ t.cbmb = List.replicate s.params.numFilters 0 ∧ t.cbgen = 0 ∧
      t.flags = { faulted := false, rxFault := false, txFault := false, fdcap := false } ∧ t.busSpeed = 0 ∧
      t.fdSpeed = 0 ∧ t.enPin = 255 ∧ (∀ h, MaskFile.get t.lmask h = 0) ∧ t.params = s.params ∧ t.out = s.out ∧
      t.schedule = rest) ∧
  (∀ p, (State.reset.port p).arg0 = 0 ∧ (State.reset.port p).arg1 = 0 ∧ (State.reset.port p).handle = 0 ∧
    (State.reset.port p).result = 0 ∧ (State.reset.port p).busy = false ∧ (State.reset.port p).illegal = false ∧
    (State.reset.port p).cf = .zero ∧ (State.reset.port p).ff = .zero ∧ (State.reset.port p).seq = .idle) ∧
  (∀ i : Fin 4, State.reset.lslot[i] = 0) ∧ State.reset.cbmb = List.replicate State.reset.params.numFilters 0 ∧
  State.reset.cbgen = 0 ∧ State.reset.flags = { faulted := false, rxFault := false, txFault := false, fdcap := false } ∧
  State.reset.busSpeed = 0 ∧ State.reset.fdSpeed = 0 ∧ State.reset.enPin = 255 ∧
  (∀ h, MaskFile.get State.reset.lmask h = 0)

/-- An answer to a call, or an acknowledgement of a notification, that is not outstanding is ignored, as it is after RST
(R178; the tags by which the model tells them are log entry 2). -/
def Obligations.LateAnswersAndAcknowledgementsAreIgnored : Prop :=
  (∀ (s : State) (p : PortId) (tag : Nat) (a : DrvAnswer) (rest : List Turn),
    nextTurn s (.input (.driverAnswer p tag a)) rest → (∀ w c b k, (s.port p).seq ≠ .run w (.call tag c b k)) →
    step s = .next { s with schedule := rest }) ∧
  (∀ (s : State) (p : PortId) (tag : Nat) (rest : List Turn),
    nextTurn s (.input (.listenerAck p tag)) rest → (∀ w n v, (s.port p).seq ≠ .run w (.notification tag n v)) →
    step s = .next { s with schedule := rest })

/-- Every segment brings its command strictly nearer its end, and no answer or acknowledgement takes one further from it:
a command ends after at most seven segments (R49, R197, R198; the count rests on the completing segment of log entry
4). -/
def Obligations.EverySegmentBringsTheCommandNearerItsEnd : Prop :=
  (∀ (i : Instr) (s t : State), exec i s = .next t → (t.port s.active).seq.rank < (s.port s.active).seq.rank) ∧
  (∀ (s t : State) (p : PortId) (tag : Nat) (a : DrvAnswer), s.answer p tag a = .next t →
    ∀ q, (t.port q).seq.rank ≤ (s.port q).seq.rank) ∧
  (∀ (s : State) (p q : PortId) (tag : Nat),
    ((s.acknowledge p tag).port q).seq.rank ≤ (s.port q).seq.rank) ∧
  (∀ (s : State) (p : PortId), (s.port p).seq.rank ≤ 7)

/-! ## Filter Synthesizer -/

/-- The first segment of each filter command makes exactly the driver call its rule gives (R100 to R106, R110, R111), and
changes nothing else. WATCH_RANGE's call is the one of R106's loop over every integer from the lower to the upper
operand. -/
def Obligations.FilterCommandsMakeTheirDriverCall : Prop :=
  ∀ (i : Instr) (s : State) (c : DrvCall), s.enabled = some .first → firstFilterCall s i = some c →
    ∃ t, exec i s = .next t ∧ calls s t c (if i = .watchAll then .secondInstall else .last)

/-- R103: WATCH_ALL makes the standard and the extended install, in the order of WATCH_ALL_ORDER, the second whatever the
first status `s1` is, and completes with the second status. -/
def Obligations.WatchAllInstallsBothFilters : Prop :=
  ∀ s : State, s.params.watchAllOrder = .stdFirst →
    (s.enabled = some .first →
      ∃ t, exec .watchAll s = .next t ∧ calls s t (.setFilter 0 0 false) .secondInstall) ∧
    (∀ s1, s.enabled = some (.secondInstall s1) →
      ∃ t, exec .watchAll s = .next t ∧ calls s t (.setFilter 0 0 true) .last) ∧
    (∀ s2, s.enabled = some (.finish s2) → ∃ t, exec .watchAll s = .next t ∧ completes s t s2)

/-- WATCH_ALL with WATCH_ALL_ORDER = EXT_FIRST: the two calls swap (R17, R103). -/
def Obligations.WatchAllExtendedFirstSwapsTheInstalls : Prop :=
  ∀ s : State, s.params.watchAllOrder = .extFirst →
    (s.enabled = some .first →
      ∃ t, exec .watchAll s = .next t ∧ calls s t (.setFilter 0 0 true) .secondInstall) ∧
    (∀ s1, s.enabled = some (.secondInstall s1) →
      ∃ t, exec .watchAll s = .next t ∧ calls s t (.setFilter 0 0 false) .last)

/-- A status answered to a command's last filter call is what the command then completes with, unchanged, and the command
writes nothing but RESULT and BUSY (R51(d), R100, R102). The status of WATCH_ALL's first call completes nothing: it enables
the second install, whatever it is (R103). -/
def Obligations.FilterCommandsCompleteWithTheDriversStatus : Prop :=
  (∀ (i : Instr) (s : State) (v : Word), isFilter i → s.enabled = some (.finish v) →
    ∃ t, exec i s = .next t ∧ completes s t v) ∧
  (∀ (s : State) (p : PortId) (w : Word) (tag : Nat) (c : DrvCall) (b : Bool) (v : Word) (rest : List Turn),
    nextTurn s (.input (.driverAnswer p tag (.status v))) rest → (s.port p).seq = .run w (.call tag c b .last) →
    ((∃ id mask x, c = .setFilter id mask x) ∨ ∃ mb id mask x, c = .setFilterSpecific mb id mask x) →
    ∃ t, step s = .next t ∧ t.port p = { s.port p with seq := .run w (.ready (.finish v)) } ∧ otherPortSame s t p ∧
      sharedSame s t ∧ t.out = s.out ∧ t.faults = s.faults ∧ t.schedule = rest) ∧
  (∀ (s : State) (p : PortId) (w : Word) (tag : Nat) (id mask : Word) (x b : Bool) (s1 : Word) (rest : List Turn),
    nextTurn s (.input (.driverAnswer p tag (.status s1))) rest →
    (s.port p).seq = .run w (.call tag (.setFilter id mask x) b .secondInstall) →
    ∃ t, step s = .next t ∧ t.port p = { s.port p with seq := .run w (.ready (.secondInstall s1)) } ∧
      otherPortSame s t p ∧ sharedSame s t ∧ t.out = s.out ∧ t.faults = s.faults ∧ t.schedule = rest)

/-- R108: the laws of WATCH_RANGE's triple. -/
def Obligations.WatchRangeObeysItsLaws : Prop :=
  ∀ s : State, s.enabled = some .first →
    let a := (s.port s.active).arg0
    let b := (s.port s.active).arg1
    ∃ t id mask, exec .watchRange s = .next t ∧
      t.out = s.out ++ [.call s.active (.setFilter id mask (decide (0x7FF < id.toNat)))] ∧
      (∀ s' : State, s'.enabled = some .first → (s'.port s'.active).arg0 = b → (s'.port s'.active).arg1 = a →
        ∃ t', exec .watchRange s' = .next t' ∧
          t'.out = s'.out ++ [.call s'.active (.setFilter id mask (decide (0x7FF < id.toNat)))]) ∧
      (a = b → id = a ∧ mask = if a.toNat ≤ 0x7FF then 0x7FF else 0x1FFFFFFF) ∧
      (a = 0 → b = 0x7FF → id = 0 ∧ mask = 0) ∧
      (∀ c : Word, min a.toNat b.toNat ≤ c.toNat → c.toNat ≤ max a.toNat b.toNat → c &&& mask = id &&& mask) ∧
      (a = 0x123 → b = 0x456 → mask = 0)

/-- A whole filter command from its issue on: on an idle block, the host's write of the command word, the block's segment,
the driver's status and the block's segment complete it with that status, the only thing shown being the one driver call
(R48, R100, R104 to R106, R110, R111; the schedule is log entry 1). -/
def Obligations.FilterCommandRunsFromIssueToResult : Prop :=
  ∀ (s : State) (p : PortId) (i : Instr) (c : DrvCall) (v : Word) (rest : List Turn),
    s.quiescent → (s.port p).busy = false → i.wellFormed = true → i ≠ .watchAll →
    firstFilterCall (s.issue p (encode i)) i = some c →
    s.schedule = .input (.memWrite (s.params.blockBase + p.base + 0x00) 4 (encode i)) :: .block ::
      .input (.driverAnswer p s.out.length (.status v)) :: .block :: rest →
    ∃ t, core.run 4 s = .next t ∧ t.port p = { s.port p with result := v } ∧ otherPortSame s t p ∧
      sharedSame s t ∧ t.out = s.out ++ [.call p c] ∧ t.faults = s.faults ∧ t.schedule = rest

/-! ## Listener Registry -/

/-- R116: L_ATTACH, its word, with a null handle, with every slot full, and with a free slot. The mask file is in its
canonical form (`State.Inv`, kept by every step). -/
def Obligations.AttachTakesTheLowestEmptySlot : Prop :=
  decode 0x00000020 = .ok .lAttach ∧ ∀ s : State, s.enabled = some .first → MaskFile.wf s.lmask = true →
    let h := (s.port s.active).handle
    ((h = 0 ∨ ∀ i : Fin 4, s.lslot[i] ≠ 0) → ∃ t, exec .lAttach s = .next t ∧ completes s t 0) ∧
    (∀ i : Fin 4, h ≠ 0 → s.lslot[i] = 0 → (∀ j : Fin 4, j < i → s.lslot[j] ≠ 0) →
      ∃ t, exec .lAttach s = .next t ∧ t.port s.active = donePort (s.port s.active) 1 ∧
        (∀ j : Fin 4, t.lslot[j] = if j = i then h else s.lslot[j]) ∧
        (∀ h', MaskFile.get t.lmask h' = if h' = h then 0 else MaskFile.get s.lmask h') ∧
        otherPortSame s t s.active ∧ callbacksSame s t ∧ driverFieldsSame s t ∧ t.params = s.params ∧ quiet s t)

/-- R117: L_DETACH, its word, with a null handle, with a handle in no slot, and with one in some slot; no mask changes. -/
def Obligations.DetachClearsTheLowestSlotOfTheHandle : Prop :=
  decode 0x00000021 = .ok .lDetach ∧ ∀ s : State, s.enabled = some .first →
    let h := (s.port s.active).handle
    ((h = 0 ∨ ∀ i : Fin 4, s.lslot[i] ≠ h) → ∃ t, exec .lDetach s = .next t ∧ completes s t 0) ∧
    (∀ i : Fin 4, h ≠ 0 → s.lslot[i] = h → (∀ j : Fin 4, j < i → s.lslot[j] ≠ h) →
      ∃ t, exec .lDetach s = .next t ∧ t.port s.active = donePort (s.port s.active) 1 ∧
        (∀ j : Fin 4, t.lslot[j] = if j = i then 0 else s.lslot[j]) ∧ t.lmask = s.lmask ∧
        otherPortSame s t s.active ∧ callbacksSame s t ∧ driverFieldsSame s t ∧ t.params = s.params ∧ quiet s t)

/-- R118 to R121: the mask commands write the one bit they name, n for L_MBON and L_MBOFF when n < NUM_FILTERS,
NUM_FILTERS for L_GENON and L_GENOFF, in the mask of a handle that is not null, and nothing else but RESULT = 0. -/
def Obligations.MaskCommandsWriteTheirOneBit : Prop :=
  ∀ (i : Instr) (n : Nat) (b : Bool) (s : State), s.enabled = some .first → s.Inv →
    ((i = .lMbOn n ∧ b = true ∧ n < s.params.numFilters) ∨ (i = .lMbOff n ∧ b = false ∧ n < s.params.numFilters) ∨
      (i = .lGenOn ∧ b = true ∧ n = s.params.numFilters) ∨ (i = .lGenOff ∧ b = false ∧ n = s.params.numFilters)) →
    let h := (s.port s.active).handle
    (h = 0 → ∃ t, exec i s = .next t ∧ completes s t 0) ∧
    (h ≠ 0 → ∃ t, exec i s = .next t ∧ t.port s.active = donePort (s.port s.active) 0 ∧
      (∀ h' j, (MaskFile.get t.lmask h').getLsbD j =
        if h' = h ∧ j = n then b else (MaskFile.get s.lmask h').getLsbD j) ∧
      t.lslot = s.lslot ∧ otherPortSame s t s.active ∧ callbacksSame s t ∧ driverFieldsSame s t ∧
      t.params = s.params ∧ quiet s t)

/-- An L_MBON or L_MBOFF with n ≥ NUM_FILTERS, NUM_FILTERS itself among them, changes nothing but RESULT = 0 (R118, R119,
R193). -/
def Obligations.MaskCommandsIgnoreAnIndexOutOfRange : Prop :=
  ∀ (i : Instr) (n : Nat) (s : State), s.enabled = some .first → s.params.numFilters ≤ n →
    (i = .lMbOn n ∨ i = .lMbOff n) → ∃ t, exec i s = .next t ∧ completes s t 0

/-- R122: L_ACTIVE reads one bit of the handle's mask, of a handle in no slot too, and 0 for a null handle and for
n > NUM_FILTERS. -/
def Obligations.ActiveReadsOneMaskBit : Prop :=
  ∀ (n : Nat) (s : State), s.enabled = some .first →
    let h := (s.port s.active).handle
    ∃ t, exec (.lActive n) s = .next t ∧ completes s t
      (if h = 0 ∨ s.params.numFilters < n then 0 else if (MaskFile.get s.lmask h).getLsbD n then 1 else 0)

/-! ## Dispatch Engine -/

/-- SEND and SENDFD pass their frame register to the driver, RECV and RECVFD ask it for a frame; SEND and SENDFD record a
LENGTH over capacity and go on (R131 to R134, R37, R161; that the first segment records it is log entry 15). -/
def Obligations.TransferCommandsMakeTheirDriverCall : Prop :=
  ∀ s : State, s.enabled = some .first →
    (∃ t, exec .send s = .next t ∧ callsWith s t (.sendRaw (s.port s.active).cf) .last
      (afterConsuming s.faults (s.port s.active).cf.length 8)) ∧
    (∃ t, exec .sendFd s = .next t ∧ callsWith s t (.sendRawFD (s.port s.active).ff) .last
      (afterConsuming s.faults (s.port s.active).ff.length 64)) ∧
    (∃ t, exec .recv s = .next t ∧ calls s t .receiveRaw .last) ∧
    (∃ t, exec .recvFd s = .next t ∧ calls s t .receiveRawFD .last)

/-- After the driver's ok of a transmit: 0 completes the command with 0 and notifies nobody; 1 begins the fan-out of the
frame sent, as TX, with 1 to complete with (R125, R129, R131, R132). -/
def Obligations.TransmitAnswerFansOutOnSuccess : Prop :=
  ∀ (i : Instr) (s : State) (f : Frame), i = .send ∨ i = .sendFd →
    (s.enabled = some (.sent f false) → ∃ t, exec i s = .next t ∧ completes s t 0) ∧
    (s.enabled = some (.sent f true) → ∃ t, exec i s = .next t ∧ atPhase s t (.ready (.slot .tx f 0 1)) ∧
      otherPortSame s t s.active ∧ sharedSame s t ∧ quiet s t)

/-- After the driver's answer (count, fr) of a receive: CF or FF holds fr whatever the count; a count of 0 completes the
command with 0 and notifies nobody; any other count begins the fan-out of fr, as RX, with that count to complete with,
and a LENGTH over capacity is recorded (R125, R133, R134, R161; that this segment records it is log entry 15). -/
def Obligations.ReceiveAnswerStoresTheFrameAndFansOut : Prop :=
  ∀ s : State,
    (∀ f : ClassicFrame, s.enabled = some (.received 0 (.classic f)) →
      ∃ t, exec .recv s = .next t ∧ t.port s.active = donePort { s.port s.active with cf := f } 0 ∧
        otherPortSame s t s.active ∧ sharedSame s t ∧ quiet s t) ∧
    (∀ f : FdFrame, s.enabled = some (.received 0 (.fd f)) →
      ∃ t, exec .recvFd s = .next t ∧ t.port s.active = donePort { s.port s.active with ff := f } 0 ∧
        otherPortSame s t s.active ∧ sharedSame s t ∧ quiet s t) ∧
    (∀ (n : Word) (f : ClassicFrame), n ≠ 0 → s.enabled = some (.received n (.classic f)) →
      ∃ t w, exec .recv s = .next t ∧ (s.port s.active).seq = .run w (.ready (.received n (.classic f))) ∧
        t.port s.active =
          { s.port s.active with cf := f, seq := .run w (.ready (.slot .rx (.classic f) 0 n)) } ∧
        t.faults = afterConsuming s.faults f.length 8 ∧ t.out = s.out ∧ t.schedule = s.schedule ∧
        otherPortSame s t s.active ∧ sharedSame s t) ∧
    (∀ (n : Word) (f : FdFrame), n ≠ 0 → s.enabled = some (.received n (.fd f)) →
      ∃ t w, exec .recvFd s = .next t ∧ (s.port s.active).seq = .run w (.ready (.received n (.fd f))) ∧
        t.port s.active = { s.port s.active with ff := f, seq := .run w (.ready (.slot .rx (.fd f) 0 n)) } ∧
        t.faults = afterConsuming s.faults f.length 64 ∧ t.out = s.out ∧ t.schedule = s.schedule ∧
        otherPortSame s t s.active ∧ sharedSame s t)

/-- One slot of the fan-out: a handle in it is notified, with the fan-out's kind and frame, whatever its mask holds, and
the command waits; an empty slot is passed. After slot 3 the command completes with its value (R126, R127, R128; that its
completion is a segment of its own is log entry 4). -/
def Obligations.FanOutNotifiesTheHandleInTheSlot : Prop :=
  ∀ (i : Instr) (s : State) (k : Kind) (f : Frame) (j : Fin 4) (v : Word), isTransfer i →
    (s.enabled = some (.slot k f j v) → s.lslot[j] ≠ 0 →
      ∃ t, exec i s = .next t ∧
        atPhase s t (.notification s.out.length { kind := k, slot := j, handle := s.lslot[j], frame := f } v) ∧
        t.out = s.out ++ [.notification s.active { kind := k, slot := j, handle := s.lslot[j], frame := f }] ∧
        t.faults = s.faults ∧ t.schedule = s.schedule ∧ otherPortSame s t s.active ∧ sharedSame s t) ∧
    (s.enabled = some (.slot k f j v) → s.lslot[j] = 0 →
      ∃ t, exec i s = .next t ∧ atPhase s t (.ready (Seg.afterSlot k f j v)) ∧ otherPortSame s t s.active ∧
        sharedSame s t ∧ quiet s t) ∧
    (s.enabled = some (.finish v) → ∃ t, exec i s = .next t ∧ completes s t v)

/-- R126, R128, R129 over a whole fan-out: with each notification acknowledged when it is sent, every non-empty slot gets
exactly one notification, in increasing index order, with the same frame, and then the command completes; masks,
callbacks and slots stay as they were. The schedule is log entry 1; the segment that completes is log entry 4. -/
def Obligations.FanOutNotifiesEveryOccupiedSlotInOrder : Prop :=
  ∀ (s : State) (w : Word) (i : Instr) (k : Kind) (f : Frame) (v : Word) (rest : List Turn),
    decode w = .ok i → isTransfer i → (s.port s.active).seq = .run w (.ready (.slot k f 0 v)) →
    s.schedule = fanTurns s.active s.lslot.toList s.out.length ++ rest →
    ∃ t, core.run (fanTurns s.active s.lslot.toList s.out.length).length s = .next t ∧
      t.out = s.out ++ fanOutputs s.active k f s.lslot ∧ t.port s.active = donePort (s.port s.active) v ∧
      otherPortSame s t s.active ∧ sharedSame s t ∧ t.faults = s.faults ∧ t.schedule = rest

/-- A whole successful transfer from its issue on: on an idle block, the host's write of the command word, the driver call,
its non-zero answer, and the fan-out with each notification acknowledged when it is sent, complete the command with the
driver's answer; the call and then one notification per occupied slot, in index order, are all that is shown (R48, R125,
R126, R128, R129, R131 to R135). The schedule is log entry 1, the segment that completes is log entry 4, and the segment that
records a LENGTH over capacity is log entry 15. -/
def Obligations.TransferRunsFromIssueToResult : Prop :=
  ∀ (s : State) (p : PortId) (i : Instr) (c : DrvCall) (a : DrvAnswer) (k : Kind) (f : Frame) (v : Word) (r : Port)
    (fr : FaultRecord) (rest : List Turn),
    s.quiescent → (s.port p).busy = false →
    ((i = .send ∧ c = .sendRaw (s.port p).cf ∧ a = .ok true ∧ k = .tx ∧ f = .classic (s.port p).cf ∧ v = 1 ∧
        r = s.port p ∧ fr = afterConsuming s.faults (s.port p).cf.length 8) ∨
      (i = .sendFd ∧ c = .sendRawFD (s.port p).ff ∧ s.flags.fdcap = true ∧ a = .ok true ∧ k = .tx ∧
        f = .fd (s.port p).ff ∧ v = 1 ∧ r = s.port p ∧ fr = afterConsuming s.faults (s.port p).ff.length 64) ∨
      (∃ n g, i = .recv ∧ c = .receiveRaw ∧ n ≠ 0 ∧ a = .received n g ∧ k = .rx ∧ f = .classic g ∧ v = n ∧
        r = { s.port p with cf := g } ∧ fr = afterConsuming s.faults g.length 8) ∨
      (∃ n g, i = .recvFd ∧ c = .receiveRawFD ∧ s.flags.fdcap = true ∧ n ≠ 0 ∧ a = .receivedFD n g ∧ k = .rx ∧
        f = .fd g ∧ v = n ∧ r = { s.port p with ff := g } ∧ fr = afterConsuming s.faults g.length 64)) →
    s.schedule = .input (.memWrite (s.params.blockBase + p.base + 0x00) 4 (encode i)) :: .block ::
      .input (.driverAnswer p s.out.length a) :: .block :: (fanTurns p s.lslot.toList (s.out.length + 1) ++ rest) →
    ∃ t, core.run (4 + (fanTurns p s.lslot.toList (s.out.length + 1)).length) s = .next t ∧
      t.port p = { r with result := v } ∧ t.out = s.out ++ .call p c :: fanOutputs p k f s.lslot ∧ t.faults = fr ∧
      otherPortSame s t p ∧ sharedSame s t ∧ t.schedule = rest

/-- R51(a): to an FD call made while FDCAP = 0 the model takes no answer but 0 (log entry 9), so the command goes on to
complete with 0 and notifies nobody (R132, R134, R153). -/
def Obligations.FdCallsWithoutCapabilityAnswerZero : Prop :=
  ∀ (s t : State) (p : PortId) (w : Word) (tag : Nat) (c : DrvCall) (k : AfterCall) (a : DrvAnswer) (rest : List Turn),
    nextTurn s (.input (.driverAnswer p tag a)) rest → (s.port p).seq = .run w (.call tag c false k) →
    step s = .next t →
    (∀ f, c = .sendRawFD f → a = .ok false ∧ (t.port p).seq = .run w (.ready (.sent (.fd f) false))) ∧
    (c = .receiveRawFD → ∃ f, a = .receivedFD 0 f ∧ (t.port p).seq = .run w (.ready (.received 0 (.fd f))))

/-- An answer of the call's own kind, and for an FD call made while FDCAP = 0 the answer 0, enables the segment that reads
it, and changes nothing else (R50, R51, R75; the FDCAP value of the call is log entry 9). -/
def Obligations.TransferAnswerEnablesTheNextSegment : Prop :=
  ∀ (s : State) (p : PortId) (w : Word) (tag : Nat) (c : DrvCall) (fdcap : Bool) (k : AfterCall) (a : DrvAnswer) (g : Seg)
    (rest : List Turn),
    nextTurn s (.input (.driverAnswer p tag a)) rest → (s.port p).seq = .run w (.call tag c fdcap k) →
    ((∃ f b, c = .sendRaw f ∧ a = .ok b ∧ g = .sent (.classic f) b) ∨
      (∃ f b, c = .sendRawFD f ∧ a = .ok b ∧ (fdcap = true ∨ b = false) ∧ g = .sent (.fd f) b) ∨
      (∃ n f, c = .receiveRaw ∧ a = .received n f ∧ g = .received n (.classic f)) ∨
      (∃ n f, c = .receiveRawFD ∧ a = .receivedFD n f ∧ (fdcap = true ∨ n = 0) ∧ g = .received n (.fd f))) →
    ∃ t, step s = .next t ∧ t.port p = { s.port p with seq := .run w (.ready g) } ∧ otherPortSame s t p ∧
      sharedSame s t ∧ t.out = s.out ∧ t.faults = s.faults ∧ t.schedule = rest

/-- The acknowledgement of slot i's notification enables the fan-out's next segment: slot i + 1's, or after slot 3 the
completion (R75, R126; log entries 4 and 5 are the model's). -/
def Obligations.AcknowledgementContinuesTheFanOut : Prop :=
  ∀ (s : State) (p : PortId) (w : Word) (tag : Nat) (n : Notification) (v : Word) (rest : List Turn),
    nextTurn s (.input (.listenerAck p tag)) rest → (s.port p).seq = .run w (.notification tag n v) →
    ∃ t g, step s = .next t ∧ t.port p = { s.port p with seq := .run w (.ready g) } ∧
      (n.slot = 3 → g = .finish v) ∧
      (∀ j : Fin 4, j.val = n.slot.val + 1 → g = .slot n.kind n.frame j v) ∧ otherPortSame s t p ∧
      sharedSame s t ∧ t.out = s.out ∧ t.faults = s.faults ∧ t.schedule = rest

/-- R138 to R141, R142(a): the callback commands, in range and out of range. -/
def Obligations.CallbackCommandsWriteTheirEntry : Prop :=
  ∀ (n : Nat) (s : State), s.enabled = some .first → s.Inv →
    (∀ (i : Instr) (v : Word), ((i = .cbSet n ∧ v = (s.port s.active).arg0) ∨ (i = .cbClr n ∧ v = 0)) →
      (n < s.params.numFilters → ∃ t, exec i s = .next t ∧ t.port s.active = donePort (s.port s.active) 0 ∧
        (∀ m, m < s.params.numFilters → t.cbmb[m]? = if m = n then some v else s.cbmb[m]?) ∧
        t.cbmb.length = s.params.numFilters ∧ t.cbgen = s.cbgen ∧
        t.lslot = s.lslot ∧ t.lmask = s.lmask ∧ otherPortSame s t s.active ∧ driverFieldsSame s t ∧
        t.params = s.params ∧ quiet s t) ∧
      (s.params.numFilters ≤ n → ∃ t, exec i s = .next t ∧ completes s t 0)) ∧
    (∀ (i : Instr) (v : Word), ((i = .cbGSet ∧ v = (s.port s.active).arg0) ∨ (i = .cbGClr ∧ v = 0)) →
      ∃ t, exec i s = .next t ∧ t.port s.active = donePort (s.port s.active) 0 ∧ t.cbgen = v ∧ t.cbmb = s.cbmb ∧
        t.lslot = s.lslot ∧ t.lmask = s.lmask ∧ otherPortSame s t s.active ∧ driverFieldsSame s t ∧
        t.params = s.params ∧ quiet s t)

/-- R53: the driver callback reads, each of which changes nothing. -/
def Obligations.CallbackReadPortReturnsTheTables : Prop :=
  ∀ (s : State) (r : CallbackRead) (rest : List Turn), s.cbmb.length = s.params.numFilters →
    nextTurn s (.input (.callbackRead r)) rest →
    ∃ v, step s = .next { s with schedule := rest, out := s.out ++ [.callback r v] } ∧
      (r = .cbGenRead → v = s.cbgen) ∧
      (∀ mb : Byte, r = .cbRead mb →
        (s.params.numFilters ≤ mb.toNat → v = 0) ∧ (mb.toNat < s.params.numFilters → s.cbmb[mb.toNat]? = some v)) ∧
      (∀ mb : Byte, r = .cbSel mb →
        (s.params.numFilters ≤ mb.toNat ∨ s.cbmb[mb.toNat]? = some 0 → v = s.cbgen) ∧
        (∀ c, mb.toNat < s.params.numFilters → s.cbmb[mb.toNat]? = some c → c ≠ 0 → v = c))

/-! ## Format Bridge -/

/-- R146: C2FD and its word. Bytes 8 to 63 of FF keep their values; a LENGTH over 8 is recorded (R161) and copied (R37). -/
def Obligations.ClassicToFdCopiesEveryField : Prop :=
  decode 0x00000040 = .ok .c2fd ∧ ∀ s : State, s.enabled = some .first →
    let cf := (s.port s.active).cf
    let ff := (s.port s.active).ff
    ∃ t ff', exec .c2fd s = .next t ∧ t.port s.active = donePort { s.port s.active with ff := ff' } 1 ∧
      ff'.id = cf.id ∧ ff'.fid = cf.fid ∧ ff'.priority = cf.priority ∧ ff'.ext = cf.ext ∧
      ff'.timestamp = cf.timestamp ∧ ff'.length = cf.length ∧ ff'.rrs = cf.rtr ∧ ff'.fdMode = false ∧
      (∀ j : Fin 8, ff'.data[j.val] = cf.data[j]) ∧ (∀ j : Fin 64, 8 ≤ j.val → ff'.data[j] = ff.data[j]) ∧
      t.faults = afterConsuming s.faults cf.length 8 ∧ t.out = s.out ∧ t.schedule = s.schedule ∧
      otherPortSame s t s.active ∧ sharedSame s t

/-- R147: FD2C and its word. It fails on a LENGTH over 8 or in FD mode and leaves CF alone; a LENGTH over 64 is recorded
(R161). -/
def Obligations.FdToClassicCopiesOrFails : Prop :=
  decode 0x00000041 = .ok .fd2c ∧ ∀ s : State, s.enabled = some .first →
    let cf := (s.port s.active).cf
    let ff := (s.port s.active).ff
    ((8 < ff.length.toNat ∨ ff.fdMode = true) →
      ∃ t, exec .fd2c s = .next t ∧ t.port s.active = donePort (s.port s.active) 0 ∧ (t.port s.active).cf = cf ∧
        t.faults = afterConsuming s.faults ff.length 64 ∧ t.out = s.out ∧ t.schedule = s.schedule ∧
        otherPortSame s t s.active ∧ sharedSame s t) ∧
    (ff.length.toNat ≤ 8 → ff.fdMode = false →
      ∃ t cf', exec .fd2c s = .next t ∧ t.port s.active = donePort { s.port s.active with cf := cf' } 1 ∧
        cf'.id = ff.id ∧ cf'.fid = ff.fid ∧ cf'.priority = ff.priority ∧ cf'.ext = ff.ext ∧
        cf'.timestamp = ff.timestamp ∧ cf'.length = ff.length ∧ cf'.rtr = ff.rrs ∧
        (∀ j : Fin 8, cf'.data[j] = ff.data[j.val]) ∧ quiet s t ∧ otherPortSame s t s.active ∧ sharedSame s t)

/-- R148: (a) C2FD then FD2C gives CF back when its LENGTH is at most 8; (b) FD2C of a LENGTH of 9 or in FD mode completes
with 0 and leaves CF unmodified; (c) after an FD2C that succeeds C2FD leaves FF as it is. -/
def Obligations.FormatBridgeRoundTrips : Prop :=
  ∀ (s : State) (w w' : Word), s.enabled = some .first →
    ((s.port s.active).cf.length.toNat ≤ 8 →
      ∃ t u, exec .c2fd s = .next t ∧ exec .fd2c (t.issue s.active w') = .next u ∧ completedWith t s.active 1 ∧
        completedWith u s.active 1 ∧ (u.port s.active).cf = (s.port s.active).cf) ∧
    ((s.port s.active).ff.length = 9 ∨ (s.port s.active).ff.fdMode = true →
      ∃ t, exec .fd2c s = .next t ∧ completedWith t s.active 0 ∧ (t.port s.active).cf = (s.port s.active).cf) ∧
    ((s.port s.active).ff.length.toNat ≤ 8 → (s.port s.active).ff.fdMode = false →
      ∃ t u, exec .fd2c s = .next t ∧ exec .c2fd (t.issue s.active w) = .next u ∧ completedWith t s.active 1 ∧
        completedWith u s.active 1 ∧ (u.port s.active).ff = (s.port s.active).ff)

/-! ## Capability and fault queries -/

/-- R150 to R153: each query, its word, completes with its own flag and changes nothing else. -/
def Obligations.QueriesReturnTheirFlag : Prop :=
  (decode 0x00000050 = .ok .qFault ∧ decode 0x00000051 = .ok .qRxFault ∧ decode 0x00000052 = .ok .qTxFault ∧
    decode 0x00000053 = .ok .qFdCap) ∧
  ∀ (i : Instr) (b : Bool) (s : State), s.enabled = some .first →
    ((i = .qFault ∧ b = s.flags.faulted) ∨ (i = .qRxFault ∧ b = s.flags.rxFault) ∨
      (i = .qTxFault ∧ b = s.flags.txFault) ∨ (i = .qFdCap ∧ b = s.flags.fdcap)) →
    ∃ t, exec i s = .next t ∧ completes s t (if b then 1 else 0)

/-! ## Host programs -/

/-- A command line of a host program writes to P.CMD a word that, on an idle port, issues that very command (R94, R95). -/
def Obligations.CommandLineIssuesItsCommand : Prop :=
  ∀ (s : State) (p : PortId) (i : Instr) (ls : List HostLine) (rest : List Turn), i.wellFormed = true →
    (s.port p).busy = false →
    ∃ x, nextAccess s p (.command i :: ls) = some (x, p, ls) ∧
      (nextTurn s (.input x) rest → ∃ t w, step s = .next t ∧ (t.port p).seq = .run w (.ready .first) ∧
        (t.port p).busy = true ∧ decode w = .ok i)

/-! ## Whole runs -/

/-- WATCH_ALL from its issue on: on an idle block, the host's write of the command word, two turns of the block each followed
by a status, and the block's last segment complete it with the second status, whatever the first is; the two installs, in
the order of WATCH_ALL_ORDER, are all that is shown (R17, R48, R100, R103; the schedule is log entry 1). -/
def Obligations.WatchAllRunsFromIssueToResult : Prop :=
  ∀ (s : State) (p : PortId) (s1 s2 : Word) (rest : List Turn),
    s.quiescent → (s.port p).busy = false →
    s.schedule = .input (.memWrite (s.params.blockBase + p.base + 0x00) 4 (encode .watchAll)) :: .block ::
      .input (.driverAnswer p s.out.length (.status s1)) :: .block ::
      .input (.driverAnswer p (s.out.length + 1) (.status s2)) :: .block :: rest →
    let extFirst := s.params.watchAllOrder == .extFirst
    ∃ t, core.run 6 s = .next t ∧ t.port p = { s.port p with result := s2 } ∧ otherPortSame s t p ∧ sharedSame s t ∧
      t.out = s.out ++ [.call p (.setFilter 0 0 extFirst), .call p (.setFilter 0 0 !extFirst)] ∧
      t.faults = s.faults ∧ t.schedule = rest

/-- R198: where the driver answers every call, every listener acknowledges every notification and SEQ[ISR] does not stay in
RUN forever, every command of either port ends. That the block itself takes the segments it may take is a premise of the
model's, log entry 21. -/
def Obligations.FairExecutionsEndEveryCommand : Prop :=
  ∀ (states : Nat → State) (turns : Nat → Turn), (states 0).Inv → isExecution states turns →
    driverAnswersEveryCall states turns → listenersAcknowledgeEveryNotification states turns →
    isrDoesNotRunForever states → enabledSegmentsAreTaken states turns →
    ∀ (p : PortId) (n : Nat), ∃ m, n ≤ m ∧ ((states m).port p).seq = .idle

/-- R198, R49, R188: each premise is needed. Until RST, a command whose call is never answered, or whose notification is
never acknowledged, waits for it in every later state, and an APP command in flight does not end while SEQ[ISR] stays in
RUN. -/
def Obligations.UnansweredCommandsNeverEnd : Prop :=
  ∀ (states : Nat → State) (turns : Nat → Turn) (n : Nat), (states 0).Inv → isExecution states turns →
    (∀ m, n ≤ m → turns m ≠ .input .rst) →
    (∀ p tag, (states n).awaitsAnswer p tag → (∀ m, n ≤ m → ¬ (turns m).answers p tag) →
      ∀ m, n ≤ m → (states m).awaitsAnswer p tag) ∧
    (∀ p tag, (states n).awaitsAcknowledgement p tag → (∀ m, n ≤ m → turns m ≠ .input (.listenerAck p tag)) →
      ∀ m, n ≤ m → (states m).awaitsAcknowledgement p tag) ∧
    ((states n).app.seq ≠ .idle → (∀ m, n ≤ m → (states m).isr.seq ≠ .idle) →
      ∀ m, n ≤ m → (states m).app.seq ≠ .idle)
end

