-- ==== Sys2Proof/Laws/Encoding.lean ====
section
/-! SUPPORT. The fields of a command word (30_encoding.md R84): of an encoded one, and of any; and what each of the four
formats admits (R88). -/

namespace Sys2Proof

@[simp] theorem opField_encode (i : Instr) : opField (encode i) = i.opcode := by
  apply BitVec.eq_of_getLsbD_eq
  intro j hj
  simp only [opField, encode, BitVec.getLsbD_extractLsb', BitVec.getLsbD_append, hj]
  simp [hj]

@[simp] theorem nField_encode (i : Instr) : nField (encode i) = BitVec.ofNat 8 i.mailbox := by
  apply BitVec.eq_of_getLsbD_eq
  intro j hj
  simp only [nField, encode, BitVec.getLsbD_extractLsb', BitVec.getLsbD_append, hj]
  have h1 : ¬ (8 + j < 8) := by omega
  have h2 : 8 + j - 8 = j := by omega
  simp [h2, hj]

@[simp] theorem xField_encode (i : Instr) : xField (encode i) = i.extendedFlag := by
  simp only [xField, encode, BitVec.getLsbD_append]
  simp

@[simp] theorem rsvField_encode (i : Instr) : rsvField (encode i) = 0 := by
  apply BitVec.eq_of_getLsbD_eq
  intro j hj
  simp only [rsvField, encode, BitVec.getLsbD_extractLsb', BitVec.getLsbD_append, hj]
  have h1 : ¬ (17 + j < 8) := by omega
  have h2 : ¬ (17 + j - 8 < 8) := by omega
  have h3 : ¬ (17 + j - 8 - 8 < 1) := by omega
  simp [h1, h2, h3]

/-- A word is its four fields. -/
theorem word_eq_fields (w : Word) : w = rsvField w ++ BitVec.ofBool (xField w) ++ nField w ++ opField w := by
  apply BitVec.eq_of_getLsbD_eq
  intro i hi
  simp only [rsvField, xField, nField, opField, BitVec.getLsbD_append, BitVec.getLsbD_extractLsb']
  by_cases h0 : i < 8
  · simp [h0]
  · by_cases h1 : i - 8 < 8
    · simp [h0, h1, show 8 + (i - 8) = i by omega]
    · by_cases h2 : i - 8 - 8 < 1
      · simp [show i = 16 by omega]
      · simp [h0, h1, h2, show i - 8 - 8 - 1 < 15 by omega, show 17 + (i - 8 - 8 - 1) = i by omega]

theorem formatPlain_ok (i j : Instr) (n : Byte) (x : Bool) (h : formatPlain i n x = .ok j) :
    n = 0 ∧ x = false ∧ j = i := by
  unfold formatPlain at h
  split at h
  · cases h
  · split at h
    · cases h
    · simp_all

theorem formatN_ok (i : Nat → Instr) (j : Instr) (n : Byte) (x : Bool) (h : formatN i n x = .ok j) :
    x = false ∧ j = i n.toNat := by
  unfold formatN at h
  split at h
  · cases h
  · simp_all

theorem formatX_ok (i : Bool → Instr) (j : Instr) (n : Byte) (x : Bool) (h : formatX i n x = .ok j) :
    n = 0 ∧ j = i x := by
  unfold formatX at h
  by_cases h0 : n = 0
  · subst h0
    simpa [eq_comm] using h
  · rw [if_pos h0] at h
    cases h

theorem formatNX_ok (i : Nat → Bool → Instr) (j : Instr) (n : Byte) (x : Bool) (h : formatNX i n x = .ok j) :
    j = i n.toNat x := by
  simpa [formatNX, eq_comm] using h

end Sys2Proof
end

