-- ==== Sys2Proof/Laws/State.lean ====
section
/-! SUPPORT. One lemma per field and update of State, so that no later proof unfolds a record update. -/

namespace Sys2Proof.Machine

/-! ## A port is written and read -/

@[simp] theorem port_setPort_same (s : State) (p : PortId) (r : Port) : (s.setPort p r).port p = r := by
  cases p <;> rfl

theorem port_setPort_ne (s : State) (p q : PortId) (r : Port) (h : q ≠ p) : (s.setPort p r).port q = s.port q := by
  cases p <;> cases q <;> first | rfl | exact absurd rfl h

theorem port_setPort (s : State) (p q : PortId) (r : Port) :
    (s.setPort p r).port q = if q = p then r else s.port q := by
  cases p <;> cases q <;> rfl

/-- A step that sets a port's registers to what they are changes nothing. -/
@[simp] theorem setPort_self (s : State) (p : PortId) : s.setPort p (s.port p) = s := by
  cases p <;> rfl

/-! ## setPort -/

@[simp] theorem setPort_lslot (s : State) (p : PortId) (r : Port) :
    (s.setPort p r).lslot = s.lslot := by cases p <;> rfl

@[simp] theorem setPort_cbmb (s : State) (p : PortId) (r : Port) : (s.setPort p r).cbmb = s.cbmb := by cases p <;> rfl

@[simp] theorem setPort_cbgen (s : State) (p : PortId) (r : Port) :
    (s.setPort p r).cbgen = s.cbgen := by cases p <;> rfl

@[simp] theorem setPort_flags (s : State) (p : PortId) (r : Port) :
    (s.setPort p r).flags = s.flags := by cases p <;> rfl

@[simp] theorem setPort_busSpeed (s : State) (p : PortId) (r : Port) :
    (s.setPort p r).busSpeed = s.busSpeed := by cases p <;> rfl

@[simp] theorem setPort_fdSpeed (s : State) (p : PortId) (r : Port) :
    (s.setPort p r).fdSpeed = s.fdSpeed := by cases p <;> rfl

@[simp] theorem setPort_enPin (s : State) (p : PortId) (r : Port) :
    (s.setPort p r).enPin = s.enPin := by cases p <;> rfl

@[simp] theorem setPort_lmask (s : State) (p : PortId) (r : Port) :
    (s.setPort p r).lmask = s.lmask := by cases p <;> rfl

@[simp] theorem setPort_params (s : State) (p : PortId) (r : Port) :
    (s.setPort p r).params = s.params := by cases p <;> rfl

@[simp] theorem setPort_faults (s : State) (p : PortId) (r : Port) :
    (s.setPort p r).faults = s.faults := by cases p <;> rfl

@[simp] theorem setPort_out (s : State) (p : PortId) (r : Port) : (s.setPort p r).out = s.out := by cases p <;> rfl

@[simp] theorem setPort_schedule (s : State) (p : PortId) (r : Port) :
    (s.setPort p r).schedule = s.schedule := by cases p <;> rfl

/-! ## setPhase -/

@[simp] theorem setPhase_lslot (s : State) (p : PortId) (ph : Phase) : (s.setPhase p ph).lslot = s.lslot := by
  unfold State.setPhase; split <;> simp

@[simp] theorem setPhase_cbmb (s : State) (p : PortId) (ph : Phase) : (s.setPhase p ph).cbmb = s.cbmb := by
  unfold State.setPhase; split <;> simp

@[simp] theorem setPhase_cbgen (s : State) (p : PortId) (ph : Phase) : (s.setPhase p ph).cbgen = s.cbgen := by
  unfold State.setPhase; split <;> simp

@[simp] theorem setPhase_flags (s : State) (p : PortId) (ph : Phase) : (s.setPhase p ph).flags = s.flags := by
  unfold State.setPhase; split <;> simp

@[simp] theorem setPhase_busSpeed (s : State) (p : PortId) (ph : Phase) :
    (s.setPhase p ph).busSpeed = s.busSpeed := by
  unfold State.setPhase; split <;> simp

@[simp] theorem setPhase_fdSpeed (s : State) (p : PortId) (ph : Phase) : (s.setPhase p ph).fdSpeed = s.fdSpeed := by
  unfold State.setPhase; split <;> simp

@[simp] theorem setPhase_enPin (s : State) (p : PortId) (ph : Phase) : (s.setPhase p ph).enPin = s.enPin := by
  unfold State.setPhase; split <;> simp

@[simp] theorem setPhase_lmask (s : State) (p : PortId) (ph : Phase) : (s.setPhase p ph).lmask = s.lmask := by
  unfold State.setPhase; split <;> simp

@[simp] theorem setPhase_params (s : State) (p : PortId) (ph : Phase) : (s.setPhase p ph).params = s.params := by
  unfold State.setPhase; split <;> simp

@[simp] theorem setPhase_faults (s : State) (p : PortId) (ph : Phase) : (s.setPhase p ph).faults = s.faults := by
  unfold State.setPhase; split <;> simp

@[simp] theorem setPhase_out (s : State) (p : PortId) (ph : Phase) : (s.setPhase p ph).out = s.out := by
  unfold State.setPhase; split <;> simp

@[simp] theorem setPhase_schedule (s : State) (p : PortId) (ph : Phase) :
    (s.setPhase p ph).schedule = s.schedule := by
  unfold State.setPhase; split <;> simp

/-! ## complete -/

@[simp] theorem complete_lslot (s : State) (p : PortId) (v : Word) :
    (s.complete p v).lslot = s.lslot := by simp [State.complete]

@[simp] theorem complete_cbmb (s : State) (p : PortId) (v : Word) :
    (s.complete p v).cbmb = s.cbmb := by simp [State.complete]

@[simp] theorem complete_cbgen (s : State) (p : PortId) (v : Word) :
    (s.complete p v).cbgen = s.cbgen := by simp [State.complete]

@[simp] theorem complete_flags (s : State) (p : PortId) (v : Word) :
    (s.complete p v).flags = s.flags := by simp [State.complete]

@[simp] theorem complete_busSpeed (s : State) (p : PortId) (v : Word) :
    (s.complete p v).busSpeed = s.busSpeed := by simp [State.complete]

@[simp] theorem complete_fdSpeed (s : State) (p : PortId) (v : Word) :
    (s.complete p v).fdSpeed = s.fdSpeed := by simp [State.complete]

@[simp] theorem complete_enPin (s : State) (p : PortId) (v : Word) :
    (s.complete p v).enPin = s.enPin := by simp [State.complete]

@[simp] theorem complete_lmask (s : State) (p : PortId) (v : Word) :
    (s.complete p v).lmask = s.lmask := by simp [State.complete]

@[simp] theorem complete_params (s : State) (p : PortId) (v : Word) :
    (s.complete p v).params = s.params := by simp [State.complete]

@[simp] theorem complete_faults (s : State) (p : PortId) (v : Word) :
    (s.complete p v).faults = s.faults := by simp [State.complete]

@[simp] theorem complete_out (s : State) (p : PortId) (v : Word) :
    (s.complete p v).out = s.out := by simp [State.complete]

@[simp] theorem complete_schedule (s : State) (p : PortId) (v : Word) :
    (s.complete p v).schedule = s.schedule := by simp [State.complete]

/-! ## issue -/

@[simp] theorem issue_lslot (s : State) (p : PortId) (w : Word) :
    (s.issue p w).lslot = s.lslot := by simp [State.issue]

@[simp] theorem issue_cbmb (s : State) (p : PortId) (w : Word) : (s.issue p w).cbmb = s.cbmb := by simp [State.issue]

@[simp] theorem issue_cbgen (s : State) (p : PortId) (w : Word) :
    (s.issue p w).cbgen = s.cbgen := by simp [State.issue]

@[simp] theorem issue_flags (s : State) (p : PortId) (w : Word) :
    (s.issue p w).flags = s.flags := by simp [State.issue]

@[simp] theorem issue_busSpeed (s : State) (p : PortId) (w : Word) :
    (s.issue p w).busSpeed = s.busSpeed := by simp [State.issue]

@[simp] theorem issue_fdSpeed (s : State) (p : PortId) (w : Word) :
    (s.issue p w).fdSpeed = s.fdSpeed := by simp [State.issue]

@[simp] theorem issue_enPin (s : State) (p : PortId) (w : Word) :
    (s.issue p w).enPin = s.enPin := by simp [State.issue]

@[simp] theorem issue_lmask (s : State) (p : PortId) (w : Word) :
    (s.issue p w).lmask = s.lmask := by simp [State.issue]

@[simp] theorem issue_params (s : State) (p : PortId) (w : Word) :
    (s.issue p w).params = s.params := by simp [State.issue]

@[simp] theorem issue_faults (s : State) (p : PortId) (w : Word) :
    (s.issue p w).faults = s.faults := by simp [State.issue]

@[simp] theorem issue_out (s : State) (p : PortId) (w : Word) : (s.issue p w).out = s.out := by simp [State.issue]

@[simp] theorem issue_schedule (s : State) (p : PortId) (w : Word) :
    (s.issue p w).schedule = s.schedule := by simp [State.issue]

/-! ## emit -/

@[simp] theorem emit_port (s : State) (o : Output) (q : PortId) : (s.emit o).port q = s.port q := by
  cases q <;> rfl

@[simp] theorem emit_lslot (s : State) (o : Output) : (s.emit o).lslot = s.lslot := rfl

@[simp] theorem emit_cbmb (s : State) (o : Output) : (s.emit o).cbmb = s.cbmb := rfl

@[simp] theorem emit_cbgen (s : State) (o : Output) : (s.emit o).cbgen = s.cbgen := rfl

@[simp] theorem emit_flags (s : State) (o : Output) : (s.emit o).flags = s.flags := rfl

@[simp] theorem emit_busSpeed (s : State) (o : Output) : (s.emit o).busSpeed = s.busSpeed := rfl

@[simp] theorem emit_fdSpeed (s : State) (o : Output) : (s.emit o).fdSpeed = s.fdSpeed := rfl

@[simp] theorem emit_enPin (s : State) (o : Output) : (s.emit o).enPin = s.enPin := rfl

@[simp] theorem emit_lmask (s : State) (o : Output) : (s.emit o).lmask = s.lmask := rfl

@[simp] theorem emit_params (s : State) (o : Output) : (s.emit o).params = s.params := rfl

@[simp] theorem emit_faults (s : State) (o : Output) : (s.emit o).faults = s.faults := rfl

@[simp] theorem emit_schedule (s : State) (o : Output) : (s.emit o).schedule = s.schedule := rfl

@[simp] theorem emit_out (s : State) (o : Output) : (s.emit o).out = s.out ++ [o] := rfl

/-! ## callDriver -/

@[simp] theorem callDriver_lslot (s : State) (p : PortId) (c : DrvCall) (k : AfterCall) :
    (s.callDriver p c k).lslot = s.lslot := by simp [State.callDriver]

@[simp] theorem callDriver_cbmb (s : State) (p : PortId) (c : DrvCall) (k : AfterCall) :
    (s.callDriver p c k).cbmb = s.cbmb := by simp [State.callDriver]

@[simp] theorem callDriver_cbgen (s : State) (p : PortId) (c : DrvCall) (k : AfterCall) :
    (s.callDriver p c k).cbgen = s.cbgen := by simp [State.callDriver]

@[simp] theorem callDriver_flags (s : State) (p : PortId) (c : DrvCall) (k : AfterCall) :
    (s.callDriver p c k).flags = s.flags := by simp [State.callDriver]

@[simp] theorem callDriver_busSpeed (s : State) (p : PortId) (c : DrvCall) (k : AfterCall) :
    (s.callDriver p c k).busSpeed = s.busSpeed := by simp [State.callDriver]

@[simp] theorem callDriver_fdSpeed (s : State) (p : PortId) (c : DrvCall) (k : AfterCall) :
    (s.callDriver p c k).fdSpeed = s.fdSpeed := by simp [State.callDriver]

@[simp] theorem callDriver_enPin (s : State) (p : PortId) (c : DrvCall) (k : AfterCall) :
    (s.callDriver p c k).enPin = s.enPin := by simp [State.callDriver]

@[simp] theorem callDriver_lmask (s : State) (p : PortId) (c : DrvCall) (k : AfterCall) :
    (s.callDriver p c k).lmask = s.lmask := by simp [State.callDriver]

@[simp] theorem callDriver_params (s : State) (p : PortId) (c : DrvCall) (k : AfterCall) :
    (s.callDriver p c k).params = s.params := by simp [State.callDriver]

@[simp] theorem callDriver_faults (s : State) (p : PortId) (c : DrvCall) (k : AfterCall) :
    (s.callDriver p c k).faults = s.faults := by simp [State.callDriver]

@[simp] theorem callDriver_schedule (s : State) (p : PortId) (c : DrvCall) (k : AfterCall) :
    (s.callDriver p c k).schedule = s.schedule := by simp [State.callDriver]

@[simp] theorem callDriver_out (s : State) (p : PortId) (c : DrvCall) (k : AfterCall) :
    (s.callDriver p c k).out = s.out ++ [.call p c] := by simp [State.callDriver]

/-! ## notifyListener -/

@[simp] theorem notifyListener_lslot (s : State) (p : PortId) (n : Notification) (v : Word) :
    (s.notifyListener p n v).lslot = s.lslot := by simp [State.notifyListener]

@[simp] theorem notifyListener_cbmb (s : State) (p : PortId) (n : Notification) (v : Word) :
    (s.notifyListener p n v).cbmb = s.cbmb := by simp [State.notifyListener]

@[simp] theorem notifyListener_cbgen (s : State) (p : PortId) (n : Notification) (v : Word) :
    (s.notifyListener p n v).cbgen = s.cbgen := by simp [State.notifyListener]

@[simp] theorem notifyListener_flags (s : State) (p : PortId) (n : Notification) (v : Word) :
    (s.notifyListener p n v).flags = s.flags := by simp [State.notifyListener]

@[simp] theorem notifyListener_busSpeed (s : State) (p : PortId) (n : Notification) (v : Word) :
    (s.notifyListener p n v).busSpeed = s.busSpeed := by simp [State.notifyListener]

@[simp] theorem notifyListener_fdSpeed (s : State) (p : PortId) (n : Notification) (v : Word) :
    (s.notifyListener p n v).fdSpeed = s.fdSpeed := by simp [State.notifyListener]

@[simp] theorem notifyListener_enPin (s : State) (p : PortId) (n : Notification) (v : Word) :
    (s.notifyListener p n v).enPin = s.enPin := by simp [State.notifyListener]

@[simp] theorem notifyListener_lmask (s : State) (p : PortId) (n : Notification) (v : Word) :
    (s.notifyListener p n v).lmask = s.lmask := by simp [State.notifyListener]

@[simp] theorem notifyListener_params (s : State) (p : PortId) (n : Notification) (v : Word) :
    (s.notifyListener p n v).params = s.params := by simp [State.notifyListener]

@[simp] theorem notifyListener_faults (s : State) (p : PortId) (n : Notification) (v : Word) :
    (s.notifyListener p n v).faults = s.faults := by simp [State.notifyListener]

@[simp] theorem notifyListener_schedule (s : State) (p : PortId) (n : Notification) (v : Word) :
    (s.notifyListener p n v).schedule = s.schedule := by simp [State.notifyListener]

@[simp] theorem notifyListener_out (s : State) (p : PortId) (n : Notification) (v : Word) :
    (s.notifyListener p n v).out = s.out ++ [.notification p n] := by simp [State.notifyListener]

/-! ## recordBadAccess -/

@[simp] theorem recordBadAccess_port (s : State) (q : PortId) : (s.recordBadAccess).port q = s.port q := by
  cases q <;> rfl

@[simp] theorem recordBadAccess_lslot (s : State) : (s.recordBadAccess).lslot = s.lslot := rfl

@[simp] theorem recordBadAccess_cbmb (s : State) : (s.recordBadAccess).cbmb = s.cbmb := rfl

@[simp] theorem recordBadAccess_cbgen (s : State) : (s.recordBadAccess).cbgen = s.cbgen := rfl

@[simp] theorem recordBadAccess_flags (s : State) : (s.recordBadAccess).flags = s.flags := rfl

@[simp] theorem recordBadAccess_busSpeed (s : State) : (s.recordBadAccess).busSpeed = s.busSpeed := rfl

@[simp] theorem recordBadAccess_fdSpeed (s : State) : (s.recordBadAccess).fdSpeed = s.fdSpeed := rfl

@[simp] theorem recordBadAccess_enPin (s : State) : (s.recordBadAccess).enPin = s.enPin := rfl

@[simp] theorem recordBadAccess_lmask (s : State) : (s.recordBadAccess).lmask = s.lmask := rfl

@[simp] theorem recordBadAccess_params (s : State) : (s.recordBadAccess).params = s.params := rfl

@[simp] theorem recordBadAccess_out (s : State) : (s.recordBadAccess).out = s.out := rfl

@[simp] theorem recordBadAccess_schedule (s : State) : (s.recordBadAccess).schedule = s.schedule := rfl

/-! ## recordIllegalCommand -/

@[simp] theorem recordIllegalCommand_port (s : State) (q : PortId) : (s.recordIllegalCommand).port q = s.port q := by
  cases q <;> rfl

@[simp] theorem recordIllegalCommand_lslot (s : State) : (s.recordIllegalCommand).lslot = s.lslot := rfl

@[simp] theorem recordIllegalCommand_cbmb (s : State) : (s.recordIllegalCommand).cbmb = s.cbmb := rfl

@[simp] theorem recordIllegalCommand_cbgen (s : State) : (s.recordIllegalCommand).cbgen = s.cbgen := rfl

@[simp] theorem recordIllegalCommand_flags (s : State) : (s.recordIllegalCommand).flags = s.flags := rfl

@[simp] theorem recordIllegalCommand_busSpeed (s : State) : (s.recordIllegalCommand).busSpeed = s.busSpeed := rfl

@[simp] theorem recordIllegalCommand_fdSpeed (s : State) : (s.recordIllegalCommand).fdSpeed = s.fdSpeed := rfl

@[simp] theorem recordIllegalCommand_enPin (s : State) : (s.recordIllegalCommand).enPin = s.enPin := rfl

@[simp] theorem recordIllegalCommand_lmask (s : State) : (s.recordIllegalCommand).lmask = s.lmask := rfl

@[simp] theorem recordIllegalCommand_params (s : State) : (s.recordIllegalCommand).params = s.params := rfl

@[simp] theorem recordIllegalCommand_out (s : State) : (s.recordIllegalCommand).out = s.out := rfl

@[simp] theorem recordIllegalCommand_schedule (s : State) : (s.recordIllegalCommand).schedule = s.schedule := rfl

@[simp] theorem recordBadAccess_faults (s : State) :
    s.recordBadAccess.faults = { s.faults with badRegisterAccess := true } := rfl

@[simp] theorem recordIllegalCommand_faults (s : State) :
    s.recordIllegalCommand.faults = { s.faults with illegalCommand := true } := rfl

/-! ## raiseIllegalCommand -/

@[simp] theorem raiseIllegalCommand_lslot (s : State) (p : PortId) :
    (s.raiseIllegalCommand p).lslot = s.lslot := by simp [State.raiseIllegalCommand]

@[simp] theorem raiseIllegalCommand_cbmb (s : State) (p : PortId) :
    (s.raiseIllegalCommand p).cbmb = s.cbmb := by simp [State.raiseIllegalCommand]

@[simp] theorem raiseIllegalCommand_cbgen (s : State) (p : PortId) :
    (s.raiseIllegalCommand p).cbgen = s.cbgen := by simp [State.raiseIllegalCommand]

@[simp] theorem raiseIllegalCommand_flags (s : State) (p : PortId) :
    (s.raiseIllegalCommand p).flags = s.flags := by simp [State.raiseIllegalCommand]

@[simp] theorem raiseIllegalCommand_busSpeed (s : State) (p : PortId) :
    (s.raiseIllegalCommand p).busSpeed = s.busSpeed := by simp [State.raiseIllegalCommand]

@[simp] theorem raiseIllegalCommand_fdSpeed (s : State) (p : PortId) :
    (s.raiseIllegalCommand p).fdSpeed = s.fdSpeed := by simp [State.raiseIllegalCommand]

@[simp] theorem raiseIllegalCommand_enPin (s : State) (p : PortId) :
    (s.raiseIllegalCommand p).enPin = s.enPin := by simp [State.raiseIllegalCommand]

@[simp] theorem raiseIllegalCommand_lmask (s : State) (p : PortId) :
    (s.raiseIllegalCommand p).lmask = s.lmask := by simp [State.raiseIllegalCommand]

@[simp] theorem raiseIllegalCommand_params (s : State) (p : PortId) :
    (s.raiseIllegalCommand p).params = s.params := by simp [State.raiseIllegalCommand]

@[simp] theorem raiseIllegalCommand_out (s : State) (p : PortId) :
    (s.raiseIllegalCommand p).out = s.out := by simp [State.raiseIllegalCommand]

@[simp] theorem raiseIllegalCommand_schedule (s : State) (p : PortId) :
    (s.raiseIllegalCommand p).schedule = s.schedule := by simp [State.raiseIllegalCommand]

@[simp] theorem raiseIllegalCommand_faults (s : State) (p : PortId) :
    (s.raiseIllegalCommand p).faults = { s.faults with illegalCommand := true } := by simp [State.raiseIllegalCommand]

/-! ## consumeFrame -/

@[simp] theorem consumeFrame_port (s : State) (f : Frame) (q : PortId) : (s.consumeFrame f).port q = s.port q := by
  cases q <;> rfl

@[simp] theorem consumeFrame_lslot (s : State) (f : Frame) : (s.consumeFrame f).lslot = s.lslot := rfl

@[simp] theorem consumeFrame_cbmb (s : State) (f : Frame) : (s.consumeFrame f).cbmb = s.cbmb := rfl

@[simp] theorem consumeFrame_cbgen (s : State) (f : Frame) : (s.consumeFrame f).cbgen = s.cbgen := rfl

@[simp] theorem consumeFrame_flags (s : State) (f : Frame) : (s.consumeFrame f).flags = s.flags := rfl

@[simp] theorem consumeFrame_busSpeed (s : State) (f : Frame) : (s.consumeFrame f).busSpeed = s.busSpeed := rfl

@[simp] theorem consumeFrame_fdSpeed (s : State) (f : Frame) : (s.consumeFrame f).fdSpeed = s.fdSpeed := rfl

@[simp] theorem consumeFrame_enPin (s : State) (f : Frame) : (s.consumeFrame f).enPin = s.enPin := rfl

@[simp] theorem consumeFrame_lmask (s : State) (f : Frame) : (s.consumeFrame f).lmask = s.lmask := rfl

@[simp] theorem consumeFrame_params (s : State) (f : Frame) : (s.consumeFrame f).params = s.params := rfl

@[simp] theorem consumeFrame_out (s : State) (f : Frame) : (s.consumeFrame f).out = s.out := rfl

@[simp] theorem consumeFrame_schedule (s : State) (f : Frame) : (s.consumeFrame f).schedule = s.schedule := rfl

@[simp] theorem consumeFrame_faults (s : State) (f : Frame) :
    (s.consumeFrame f).faults = { s.faults with lengthContract := s.faults.lengthContract || f.overCapacity } := rfl

/-! ## storeFrame -/

@[simp] theorem storeFrame_lslot (s : State) (p : PortId) (f : Frame) :
    (s.storeFrame p f).lslot = s.lslot := by cases f <;> simp [State.storeFrame]

@[simp] theorem storeFrame_cbmb (s : State) (p : PortId) (f : Frame) :
    (s.storeFrame p f).cbmb = s.cbmb := by cases f <;> simp [State.storeFrame]

@[simp] theorem storeFrame_cbgen (s : State) (p : PortId) (f : Frame) :
    (s.storeFrame p f).cbgen = s.cbgen := by cases f <;> simp [State.storeFrame]

@[simp] theorem storeFrame_flags (s : State) (p : PortId) (f : Frame) :
    (s.storeFrame p f).flags = s.flags := by cases f <;> simp [State.storeFrame]

@[simp] theorem storeFrame_busSpeed (s : State) (p : PortId) (f : Frame) :
    (s.storeFrame p f).busSpeed = s.busSpeed := by cases f <;> simp [State.storeFrame]

@[simp] theorem storeFrame_fdSpeed (s : State) (p : PortId) (f : Frame) :
    (s.storeFrame p f).fdSpeed = s.fdSpeed := by cases f <;> simp [State.storeFrame]

@[simp] theorem storeFrame_enPin (s : State) (p : PortId) (f : Frame) :
    (s.storeFrame p f).enPin = s.enPin := by cases f <;> simp [State.storeFrame]

@[simp] theorem storeFrame_lmask (s : State) (p : PortId) (f : Frame) :
    (s.storeFrame p f).lmask = s.lmask := by cases f <;> simp [State.storeFrame]

@[simp] theorem storeFrame_params (s : State) (p : PortId) (f : Frame) :
    (s.storeFrame p f).params = s.params := by cases f <;> simp [State.storeFrame]

@[simp] theorem storeFrame_faults (s : State) (p : PortId) (f : Frame) :
    (s.storeFrame p f).faults = s.faults := by cases f <;> simp [State.storeFrame]

@[simp] theorem storeFrame_out (s : State) (p : PortId) (f : Frame) :
    (s.storeFrame p f).out = s.out := by cases f <;> simp [State.storeFrame]

@[simp] theorem storeFrame_schedule (s : State) (p : PortId) (f : Frame) :
    (s.storeFrame p f).schedule = s.schedule := by cases f <;> simp [State.storeFrame]

/-! ## setSlot -/

@[simp] theorem setSlot_port (s : State) (i : Fin 4) (h : Word) (q : PortId) : (s.setSlot i h).port q = s.port q := by
  cases q <;> rfl

@[simp] theorem setSlot_cbmb (s : State) (i : Fin 4) (h : Word) : (s.setSlot i h).cbmb = s.cbmb := rfl

@[simp] theorem setSlot_cbgen (s : State) (i : Fin 4) (h : Word) : (s.setSlot i h).cbgen = s.cbgen := rfl

@[simp] theorem setSlot_flags (s : State) (i : Fin 4) (h : Word) : (s.setSlot i h).flags = s.flags := rfl

@[simp] theorem setSlot_busSpeed (s : State) (i : Fin 4) (h : Word) : (s.setSlot i h).busSpeed = s.busSpeed := rfl

@[simp] theorem setSlot_fdSpeed (s : State) (i : Fin 4) (h : Word) : (s.setSlot i h).fdSpeed = s.fdSpeed := rfl

@[simp] theorem setSlot_enPin (s : State) (i : Fin 4) (h : Word) : (s.setSlot i h).enPin = s.enPin := rfl

@[simp] theorem setSlot_lmask (s : State) (i : Fin 4) (h : Word) : (s.setSlot i h).lmask = s.lmask := rfl

@[simp] theorem setSlot_params (s : State) (i : Fin 4) (h : Word) : (s.setSlot i h).params = s.params := rfl

@[simp] theorem setSlot_faults (s : State) (i : Fin 4) (h : Word) : (s.setSlot i h).faults = s.faults := rfl

@[simp] theorem setSlot_out (s : State) (i : Fin 4) (h : Word) : (s.setSlot i h).out = s.out := rfl

@[simp] theorem setSlot_schedule (s : State) (i : Fin 4) (h : Word) : (s.setSlot i h).schedule = s.schedule := rfl

@[simp] theorem setSlot_lslot (s : State) (i : Fin 4) (h : Word) : (s.setSlot i h).lslot = s.lslot.set i h := rfl

/-! ## setMask -/

@[simp] theorem setMask_port (s : State) (h : Word) (m : Mask) (q : PortId) : (s.setMask h m).port q = s.port q := by
  cases q <;> rfl

@[simp] theorem setMask_lslot (s : State) (h : Word) (m : Mask) : (s.setMask h m).lslot = s.lslot := rfl

@[simp] theorem setMask_cbmb (s : State) (h : Word) (m : Mask) : (s.setMask h m).cbmb = s.cbmb := rfl

@[simp] theorem setMask_cbgen (s : State) (h : Word) (m : Mask) : (s.setMask h m).cbgen = s.cbgen := rfl

@[simp] theorem setMask_flags (s : State) (h : Word) (m : Mask) : (s.setMask h m).flags = s.flags := rfl

@[simp] theorem setMask_busSpeed (s : State) (h : Word) (m : Mask) : (s.setMask h m).busSpeed = s.busSpeed := rfl

@[simp] theorem setMask_fdSpeed (s : State) (h : Word) (m : Mask) : (s.setMask h m).fdSpeed = s.fdSpeed := rfl

@[simp] theorem setMask_enPin (s : State) (h : Word) (m : Mask) : (s.setMask h m).enPin = s.enPin := rfl

@[simp] theorem setMask_params (s : State) (h : Word) (m : Mask) : (s.setMask h m).params = s.params := rfl

@[simp] theorem setMask_faults (s : State) (h : Word) (m : Mask) : (s.setMask h m).faults = s.faults := rfl

@[simp] theorem setMask_out (s : State) (h : Word) (m : Mask) : (s.setMask h m).out = s.out := rfl

@[simp] theorem setMask_schedule (s : State) (h : Word) (m : Mask) : (s.setMask h m).schedule = s.schedule := rfl

@[simp] theorem setMask_lmask (s : State) (h : Word) (m : Mask) :
    (s.setMask h m).lmask = MaskFile.set s.lmask h m := rfl

/-! ## setCallback -/

@[simp] theorem setCallback_port (s : State) (n : Nat) (v : Word) (q : PortId) :
    (s.setCallback n v).port q = s.port q := by
  unfold State.setCallback; split <;> cases q <;> rfl

@[simp] theorem setCallback_lslot (s : State) (n : Nat) (v : Word) : (s.setCallback n v).lslot = s.lslot := by
  unfold State.setCallback; split <;> rfl

@[simp] theorem setCallback_cbgen (s : State) (n : Nat) (v : Word) : (s.setCallback n v).cbgen = s.cbgen := by
  unfold State.setCallback; split <;> rfl

@[simp] theorem setCallback_flags (s : State) (n : Nat) (v : Word) : (s.setCallback n v).flags = s.flags := by
  unfold State.setCallback; split <;> rfl

@[simp] theorem setCallback_busSpeed (s : State) (n : Nat) (v : Word) :
    (s.setCallback n v).busSpeed = s.busSpeed := by
  unfold State.setCallback; split <;> rfl

@[simp] theorem setCallback_fdSpeed (s : State) (n : Nat) (v : Word) : (s.setCallback n v).fdSpeed = s.fdSpeed := by
  unfold State.setCallback; split <;> rfl

@[simp] theorem setCallback_enPin (s : State) (n : Nat) (v : Word) : (s.setCallback n v).enPin = s.enPin := by
  unfold State.setCallback; split <;> rfl

@[simp] theorem setCallback_lmask (s : State) (n : Nat) (v : Word) : (s.setCallback n v).lmask = s.lmask := by
  unfold State.setCallback; split <;> rfl

@[simp] theorem setCallback_params (s : State) (n : Nat) (v : Word) : (s.setCallback n v).params = s.params := by
  unfold State.setCallback; split <;> rfl

@[simp] theorem setCallback_faults (s : State) (n : Nat) (v : Word) : (s.setCallback n v).faults = s.faults := by
  unfold State.setCallback; split <;> rfl

@[simp] theorem setCallback_out (s : State) (n : Nat) (v : Word) : (s.setCallback n v).out = s.out := by
  unfold State.setCallback; split <;> rfl

@[simp] theorem setCallback_schedule (s : State) (n : Nat) (v : Word) :
    (s.setCallback n v).schedule = s.schedule := by
  unfold State.setCallback; split <;> rfl

theorem setCallback_cbmb (s : State) (n : Nat) (v : Word) :
    (s.setCallback n v).cbmb = if n < s.params.numFilters then s.cbmb.set n v else s.cbmb := by
  unfold State.setCallback; split <;> rfl

/-! ## writeStatus -/

@[simp] theorem writeStatus_port (s : State) (x : StatusWrite) (q : PortId) :
    (s.writeStatus x).port q = s.port q := by
  cases x <;> cases q <;> rfl

@[simp] theorem writeStatus_lslot (s : State) (x : StatusWrite) :
    (s.writeStatus x).lslot = s.lslot := by cases x <;> rfl

@[simp] theorem writeStatus_cbmb (s : State) (x : StatusWrite) : (s.writeStatus x).cbmb = s.cbmb := by cases x <;> rfl

@[simp] theorem writeStatus_cbgen (s : State) (x : StatusWrite) :
    (s.writeStatus x).cbgen = s.cbgen := by cases x <;> rfl

@[simp] theorem writeStatus_lmask (s : State) (x : StatusWrite) :
    (s.writeStatus x).lmask = s.lmask := by cases x <;> rfl

@[simp] theorem writeStatus_params (s : State) (x : StatusWrite) :
    (s.writeStatus x).params = s.params := by cases x <;> rfl

@[simp] theorem writeStatus_faults (s : State) (x : StatusWrite) :
    (s.writeStatus x).faults = s.faults := by cases x <;> rfl

@[simp] theorem writeStatus_out (s : State) (x : StatusWrite) : (s.writeStatus x).out = s.out := by cases x <;> rfl

@[simp] theorem writeStatus_schedule (s : State) (x : StatusWrite) :
    (s.writeStatus x).schedule = s.schedule := by cases x <;> rfl

/-! ## rst -/

@[simp] theorem rst_params (s : State) : (s.rst).params = s.params := rfl

@[simp] theorem rst_faults (s : State) : (s.rst).faults = s.faults := rfl

@[simp] theorem rst_out (s : State) : (s.rst).out = s.out := rfl

@[simp] theorem rst_schedule (s : State) : (s.rst).schedule = s.schedule := rfl

@[simp] theorem rst_port (s : State) (q : PortId) : s.rst.port q = .reset := by cases q <;> rfl

/-! ## The schedule is the model's own: popping it changes nothing else -/

@[simp] theorem withSchedule_port (s : State) (l : List Turn) (q : PortId) :
    State.port { s with schedule := l } q = s.port q := by cases q <;> rfl

@[simp] theorem withSchedule_active (s : State) (l : List Turn) :
    State.active { s with schedule := l } = s.active := rfl

@[simp] theorem withSchedule_enabled (s : State) (l : List Turn) :
    State.enabled { s with schedule := l } = s.enabled := by simp [State.enabled]

@[simp] theorem withSchedule_fetch (s : State) (l : List Turn) :
    State.fetch { s with schedule := l } = s.fetch := by simp [State.fetch]

end Sys2Proof.Machine
end

