-- ==== Sys2Proof/Laws/MaskFile.lean ====
section
/-! SUPPORT. The laws of the mask file LMASK (10_state.md R43): a read after a write, the canonical form, and the width of
the masks. -/

namespace Sys2Proof.Machine

theorem word_lt_trans {a b c : Word} (h : a < b) (h' : b < c) : a < c := by
  simp only [BitVec.lt_def] at *; omega

/-- Rising handles, said of every two entries. -/
theorem rising_iff_pairwise (f : MaskFile) : MaskFile.rising f = true ↔ f.Pairwise fun a b => a.1 < b.1 := by
  induction f with
  | nil => simp [MaskFile.rising]
  | cons e rest ih =>
    cases rest with
    | nil => simp [MaskFile.rising]
    | cons e' rest =>
      simp only [MaskFile.rising, Bool.and_eq_true, decide_eq_true_eq, ih, List.pairwise_cons (a := e)]
      constructor
      · rintro ⟨h, hp⟩
        refine ⟨?_, hp⟩
        intro x hx
        rcases List.mem_cons.1 hx with rfl | hx
        · exact h
        · exact word_lt_trans h ((List.pairwise_cons.1 hp).1 x hx)
      · rintro ⟨h, hp⟩
        exact ⟨h e' (by simp), hp⟩

theorem wf_iff (f : MaskFile) :
    MaskFile.wf f = true ↔ (f.Pairwise fun a b => a.1 < b.1) ∧ ∀ e ∈ f, e.1 ≠ 0 ∧ e.2 ≠ 0 := by
  simp [MaskFile.wf, rising_iff_pairwise]

/-- A handle that is not listed reads 0 (R59). -/
theorem get_of_not_listed (f : MaskFile) (h : Word) (hn : ∀ e ∈ f, e.1 ≠ h) : MaskFile.get f h = 0 := by
  induction f with
  | nil => rfl
  | cons e rest ih =>
    have he := hn e (by simp)
    simp only [MaskFile.get, if_neg he]
    exact ih fun x hx => hn x (by simp [hx])

theorem get_insert (f : MaskFile) (h h' : Word) (m : Mask) :
    MaskFile.get (MaskFile.insert f h m) h' = if h' = h then m else MaskFile.get f h' := by
  induction f with
  | nil => by_cases hh : h = h' <;> simp [MaskFile.insert, MaskFile.get, hh, eq_comm]
  | cons e rest ih =>
    simp only [MaskFile.insert]
    split
    · rename_i he
      subst he
      by_cases hh : e.1 = h'
      · simp [MaskFile.get, hh]
      · simp [MaskFile.get, hh, Ne.symm hh]
    · split
      · by_cases hh : h = h'
        · simp [MaskFile.get, hh]
        · simp [MaskFile.get, hh, Ne.symm hh]
      · rename_i he _
        simp only [MaskFile.get, ih]
        by_cases hh : h' = h
        · subst hh; simp [he]
        · simp [hh]

theorem get_erase_ne (f : MaskFile) (h h' : Word) (hn : h' ≠ h) :
    MaskFile.get (MaskFile.erase f h) h' = MaskFile.get f h' := by
  induction f with
  | nil => rfl
  | cons e rest ih =>
    simp only [MaskFile.erase]
    split
    · rename_i he
      simp [MaskFile.get, he, Ne.symm hn]
    · simp [MaskFile.get, ih]

theorem get_erase_same (f : MaskFile) (h : Word) (hw : MaskFile.wf f = true) :
    MaskFile.get (MaskFile.erase f h) h = 0 := by
  have hp := ((wf_iff f).1 hw).1
  clear hw
  induction f with
  | nil => rfl
  | cons e rest ih =>
    obtain ⟨hlt, hrest⟩ := List.pairwise_cons.1 hp
    simp only [MaskFile.erase]
    split
    · rename_i he
      refine get_of_not_listed _ _ fun x hx hxh => ?_
      have := hlt x hx
      rw [he, hxh] at this
      simp at this
    · rename_i he
      simp [MaskFile.get, he, ih hrest]

/-- A read after a write: the handle written reads the mask written, every other handle reads as before. -/
theorem get_set (f : MaskFile) (h h' : Word) (m : Mask) (hw : MaskFile.wf f = true) :
    MaskFile.get (MaskFile.set f h m) h' = if h' = h then m else MaskFile.get f h' := by
  unfold MaskFile.set
  split
  · rename_i hm
    subst hm
    by_cases hh : h' = h
    · subst hh; simp [get_erase_same f h' hw]
    · simp [hh, get_erase_ne f h h' hh]
  · exact get_insert f h h' m

theorem mem_erase (f : MaskFile) (h : Word) (e : Word × Mask) (he : e ∈ MaskFile.erase f h) : e ∈ f := by
  induction f with
  | nil => simp [MaskFile.erase] at he
  | cons x rest ih =>
    simp only [MaskFile.erase] at he
    split at he
    · simp [he]
    · rcases List.mem_cons.1 he with rfl | he
      · simp
      · simp [ih he]

theorem mem_insert (f : MaskFile) (h : Word) (m : Mask) (e : Word × Mask) (he : e ∈ MaskFile.insert f h m) :
    e = (h, m) ∨ e ∈ f := by
  induction f with
  | nil => simpa [MaskFile.insert] using he
  | cons x rest ih =>
    simp only [MaskFile.insert] at he
    split at he
    · rcases List.mem_cons.1 he with rfl | he <;> simp_all
    · split at he
      · rcases List.mem_cons.1 he with rfl | he <;> simp_all
      · rcases List.mem_cons.1 he with rfl | he
        · simp
        · rcases ih he with h | h <;> simp [h]

theorem pairwise_erase (f : MaskFile) (h : Word) (hp : f.Pairwise fun a b => a.1 < b.1) :
    (MaskFile.erase f h).Pairwise fun a b => a.1 < b.1 := by
  induction f with
  | nil => exact hp
  | cons e rest ih =>
    obtain ⟨hlt, hrest⟩ := List.pairwise_cons.1 hp
    simp only [MaskFile.erase]
    split
    · exact hrest
    · exact List.pairwise_cons.2 ⟨fun x hx => hlt x (mem_erase _ _ _ hx), ih hrest⟩

theorem pairwise_insert (f : MaskFile) (h : Word) (m : Mask) (hp : f.Pairwise fun a b => a.1 < b.1) :
    (MaskFile.insert f h m).Pairwise fun a b => a.1 < b.1 := by
  induction f with
  | nil => simp [MaskFile.insert]
  | cons e rest ih =>
    obtain ⟨hlt, hrest⟩ := List.pairwise_cons.1 hp
    simp only [MaskFile.insert]
    split
    · rename_i he
      exact List.pairwise_cons.2 ⟨fun x hx => by simpa [← he] using hlt x hx, hrest⟩
    · split
      · rename_i hh
        refine List.pairwise_cons.2 ⟨fun x hx => ?_, hp⟩
        rcases List.mem_cons.1 hx with rfl | hx
        · exact hh
        · exact word_lt_trans hh (hlt x hx)
      · rename_i he hh
        refine List.pairwise_cons.2 ⟨fun x hx => ?_, ih hrest⟩
        rcases mem_insert _ _ _ _ hx with rfl | hx
        · have hne : e.1.toNat ≠ h.toNat := fun hc => he (BitVec.eq_of_toNat_eq hc)
          simp only [BitVec.lt_def] at hh ⊢
          omega
        · exact hlt x hx

/-- A write keeps the canonical form; handle 0 has no entry (R43) and no command writes one. -/
theorem wf_set (f : MaskFile) (h : Word) (m : Mask) (hh : h ≠ 0) (hw : MaskFile.wf f = true) :
    MaskFile.wf (MaskFile.set f h m) = true := by
  obtain ⟨hp, hz⟩ := (wf_iff f).1 hw
  unfold MaskFile.set
  split
  · exact (wf_iff _).2 ⟨pairwise_erase f h hp, fun e he => hz e (mem_erase _ _ _ he)⟩
  · rename_i hm
    refine (wf_iff _).2 ⟨pairwise_insert f h m hp, fun e he => ?_⟩
    rcases mem_insert _ _ _ _ he with rfl | he
    · exact ⟨hh, hm⟩
    · exact hz e he

/-- A write of a mask of NUM_FILTERS + 1 bits keeps every mask that wide (R43). -/
theorem forall_set (f : MaskFile) (h : Word) (m : Mask) (P : Mask → Prop) (hm : P m) (hf : ∀ e ∈ f, P e.2) :
    ∀ e ∈ MaskFile.set f h m, P e.2 := by
  intro e he
  unfold MaskFile.set at he
  split at he
  · exact hf e (mem_erase _ _ _ he)
  · rcases mem_insert _ _ _ _ he with rfl | he
    · exact hm
    · exact hf e he

theorem get_cases (f : MaskFile) (h : Word) (P : Mask → Prop) (h0 : P 0) (hf : ∀ e ∈ f, P e.2) :
    P (MaskFile.get f h) := by
  induction f with
  | nil => exact h0
  | cons e rest ih =>
    simp only [MaskFile.get]
    split
    · exact hf e (by simp)
    · exact ih fun x hx => hf x (by simp [hx])

/-! ## Mask bits -/

theorem getLsbD_maskSetBit (m : Mask) (n j : Nat) (hn : n ≤ 32) :
    (maskSetBit m n).getLsbD j = if j = n then true else m.getLsbD j := by
  by_cases hj : j = n
  · subst hj
    simp [maskSetBit, show j < 33 by omega]
  · by_cases hlt : j < n
    · simp [maskSetBit, BitVec.getLsbD_shiftLeft, hj, hlt]
    · have : j - n ≠ 0 := by omega
      simp [maskSetBit, BitVec.getLsbD_shiftLeft, hj, hlt, this]

theorem getLsbD_maskClearBit (m : Mask) (n j : Nat) (hn : n ≤ 32) :
    (maskClearBit m n).getLsbD j = if j = n then false else m.getLsbD j := by
  by_cases hj33 : j < 33
  · by_cases hj : j = n
    · subst hj
      simp [maskClearBit, hj33]
    · by_cases hlt : j < n
      · simp [maskClearBit, hj, hlt, hj33]
      · have : j - n ≠ 0 := by omega
        simp [maskClearBit, hj, hlt, this, hj33]
  · have h1 : m.getLsbD j = false := BitVec.getLsbD_of_ge m j (by omega)
    simp [maskClearBit, h1]

/-- A mask is below 2^(k+1) exactly when it has no bit above bit k. -/
theorem toNat_lt_iff_getLsbD (m : Mask) (k : Nat) :
    m.toNat < 2 ^ (k + 1) ↔ ∀ j, k < j → m.getLsbD j = false := by
  constructor
  · intro h j hj
    rw [BitVec.getLsbD]
    exact Nat.testBit_lt_two_pow (lt_of_lt_of_le h (Nat.pow_le_pow_right (by omega) (by omega)))
  · intro h
    refine Nat.lt_pow_two_of_testBit _ fun j hj => ?_
    have := h j (by omega)
    rwa [BitVec.getLsbD] at this

theorem maskSetBit_narrow (m : Mask) (n k : Nat) (hn : n ≤ k) (hk : k ≤ 32) (hm : m.toNat < 2 ^ (k + 1)) :
    (maskSetBit m n).toNat < 2 ^ (k + 1) := by
  rw [toNat_lt_iff_getLsbD] at *
  intro j hj
  rw [getLsbD_maskSetBit m n j (by omega), if_neg (by omega)]
  exact hm j hj

theorem maskClearBit_narrow (m : Mask) (n k : Nat) (hn : n ≤ k) (hk : k ≤ 32) (hm : m.toNat < 2 ^ (k + 1)) :
    (maskClearBit m n).toNat < 2 ^ (k + 1) := by
  rw [toNat_lt_iff_getLsbD] at *
  intro j hj
  rw [getLsbD_maskClearBit m n j (by omega), if_neg (by omega)]
  exact hm j hj

end Sys2Proof.Machine
end

