-- ==== Sys2Proof/Laws/Ops.lean ====
section
/-! SUPPORT. What each shared operation does to the ports, and the one way every meaning runs: `exec` is the segment the
active port stands at (`exec_eq`). Later proofs cite these and do not unfold the operations. -/

namespace Sys2Proof.Machine

/-! ## Ports after an operation -/

theorem setPhase_port_same (s : State) (p : PortId) (w : Word) (ph0 ph : Phase) (h : (s.port p).seq = .run w ph0) :
    (s.setPhase p ph).port p = { s.port p with seq := .run w ph } := by
  simp [State.setPhase, h]

theorem setPhase_port_ne (s : State) (p q : PortId) (ph : Phase) (h : q ≠ p) :
    (s.setPhase p ph).port q = s.port q := by
  unfold State.setPhase
  split
  · rfl
  · exact port_setPort_ne _ _ _ _ h

/-- Whatever the port's sequencer holds, a change of phase leaves the port's other registers. -/
theorem setPhase_port_fields (s : State) (p q : PortId) (ph : Phase) :
    ((s.setPhase p ph).port q) = { s.port q with seq := ((s.setPhase p ph).port q).seq } := by
  by_cases h : q = p
  · subst h
    unfold State.setPhase
    split <;> simp
  · rw [setPhase_port_ne _ _ _ _ h]

@[simp] theorem complete_port_same (s : State) (p : PortId) (v : Word) :
    (s.complete p v).port p = { s.port p with result := v, busy := false, seq := .idle } := by
  simp [State.complete]

theorem complete_port_ne (s : State) (p q : PortId) (v : Word) (h : q ≠ p) :
    (s.complete p v).port q = s.port q := port_setPort_ne _ _ _ _ h

@[simp] theorem issue_port_same (s : State) (p : PortId) (w : Word) :
    (s.issue p w).port p = { s.port p with busy := true, seq := .run w (.ready .first) } := by
  simp [State.issue]

theorem issue_port_ne (s : State) (p q : PortId) (w : Word) (h : q ≠ p) :
    (s.issue p w).port q = s.port q := port_setPort_ne _ _ _ _ h

theorem callDriver_port_same (s : State) (p : PortId) (c : DrvCall) (k : AfterCall) (w : Word) (ph : Phase)
    (h : (s.port p).seq = .run w ph) :
    (s.callDriver p c k).port p =
      { s.port p with seq := .run w (.call s.out.length c s.flags.fdcap k) } := by
  simp [State.callDriver, setPhase_port_same (s.emit _) p w ph _ (by simpa using h)]

theorem callDriver_port_ne (s : State) (p q : PortId) (c : DrvCall) (k : AfterCall) (h : q ≠ p) :
    (s.callDriver p c k).port q = s.port q := by
  simp [State.callDriver, setPhase_port_ne _ _ _ _ h]

theorem notifyListener_port_same (s : State) (p : PortId) (n : Notification) (v w : Word) (ph : Phase)
    (h : (s.port p).seq = .run w ph) :
    (s.notifyListener p n v).port p = { s.port p with seq := .run w (.notification s.out.length n v) } := by
  simp [State.notifyListener, setPhase_port_same (s.emit _) p w ph _ (by simpa using h)]

theorem notifyListener_port_ne (s : State) (p q : PortId) (n : Notification) (v : Word) (h : q ≠ p) :
    (s.notifyListener p n v).port q = s.port q := by
  simp [State.notifyListener, setPhase_port_ne _ _ _ _ h]

theorem storeFrame_port_ne (s : State) (p q : PortId) (f : Frame) (h : q ≠ p) :
    (s.storeFrame p f).port q = s.port q := by
  cases f <;> exact port_setPort_ne _ _ _ _ h

@[simp] theorem storeFrame_classic_port (s : State) (p : PortId) (f : ClassicFrame) :
    (s.storeFrame p (.classic f)).port p = { s.port p with cf := f } := by
  simp [State.storeFrame]

@[simp] theorem storeFrame_fd_port (s : State) (p : PortId) (f : FdFrame) :
    (s.storeFrame p (.fd f)).port p = { s.port p with ff := f } := by
  simp [State.storeFrame]

/-- A stored frame changes no register of its port but CF and FF. -/
theorem storeFrame_port_seq (s : State) (p q : PortId) (f : Frame) :
    ((s.storeFrame p f).port q).seq = (s.port q).seq := by
  by_cases h : q = p
  · subst h; cases f <;> simp
  · rw [storeFrame_port_ne _ _ _ _ h]

@[simp] theorem raiseIllegalCommand_port_same (s : State) (p : PortId) :
    (s.raiseIllegalCommand p).port p = { s.port p with illegal := true } := by
  simp [State.raiseIllegalCommand]

theorem raiseIllegalCommand_port_ne (s : State) (p q : PortId) (h : q ≠ p) :
    (s.raiseIllegalCommand p).port q = s.port q := by
  simp [State.raiseIllegalCommand, port_setPort_ne _ _ _ _ h]

/-! ## The segment that may execute -/

theorem enabled_iff (s : State) (g : Seg) :
    s.enabled = some g ↔ ∃ w, (s.port s.active).seq = .run w (.ready g) := by
  unfold State.enabled
  split <;> rename_i h <;> simp [h]

theorem enabled_of_seq (s : State) (w : Word) (g : Seg) (h : (s.port s.active).seq = .run w (.ready g)) :
    s.enabled = some g := (enabled_iff s g).2 ⟨w, h⟩

/-- The active port depends on the ISR port's sequencer alone. -/
theorem active_eq_of_isr_seq (s t : State) (h : t.isr.seq.isRun = s.isr.seq.isRun) : t.active = s.active := by
  simp [State.active, h]

/-- Issuing on the active port leaves it the active one. -/
theorem active_issue (s : State) (w : Word) : (s.issue s.active w).active = s.active := by
  cases h : s.active with
  | app => rw [← h]; exact active_eq_of_isr_seq _ _ (by rw [h]; rfl)
  | isr => rfl

@[simp] theorem active_consumeFrame (s : State) (f : Frame) : (s.consumeFrame f).active = s.active := rfl

theorem enabled_issue (s : State) (w : Word) : (s.issue s.active w).enabled = some .first := by
  rw [enabled_iff, active_issue]
  exact ⟨w, by simp⟩

/-! ## `exec` -/

/-- The first segment of each command, as its meaning gives it. -/
def firstSegment (i : Instr) (s : State) (p : PortId) : State :=
  match i with
  | .watchAll => s.callDriver p (.setFilter 0 0 (watchAllExt s.params.watchAllOrder).1) .secondInstall
  | .watchId => s.callDriver p (.setFilter (s.port p).arg0 (seed (s.port p).arg0) (stdOrExt (s.port p).arg0)) .last
  | .watchIdMask => s.callDriver p (.setFilter (s.port p).arg0 (s.port p).arg1 (stdOrExt (s.port p).arg0)) .last
  | .watchRange =>
    s.callDriver p (.setFilter (rangeFilter (s.port p).arg0 (s.port p).arg1).1
      (rangeFilter (s.port p).arg0 (s.port p).arg1).2
      (stdOrExt (rangeFilter (s.port p).arg0 (s.port p).arg1).1)) .last
  | .setFilter x => s.callDriver p (.setFilter (s.port p).arg0 (s.port p).arg1 x) .last
  | .setFilterMb n x =>
    s.callDriver p (.setFilterSpecific (BitVec.ofNat 8 n) (s.port p).arg0 (s.port p).arg1 x) .last
  | .lAttach =>
    if (s.port p).handle = 0 then s.complete p 0
    else match lowestSlot s.lslot 0 with
      | some i => ((s.setSlot i (s.port p).handle).setMask (s.port p).handle 0).complete p 1
      | none => s.complete p 0
  | .lDetach =>
    if (s.port p).handle = 0 then s.complete p 0
    else match lowestSlot s.lslot (s.port p).handle with
      | some i => (s.setSlot i 0).complete p 1
      | none => s.complete p 0
  | .lMbOn n => if n < s.params.numFilters then s.updateMask p (maskSetBit · n) else s.complete p 0
  | .lMbOff n => if n < s.params.numFilters then s.updateMask p (maskClearBit · n) else s.complete p 0
  | .lGenOn => s.updateMask p (maskSetBit · s.params.numFilters)
  | .lGenOff => s.updateMask p (maskClearBit · s.params.numFilters)
  | .lActive n =>
    if (s.port p).handle = 0 ∨ s.params.numFilters < n then s.complete p 0
    else s.complete p (zextBit ((MaskFile.get s.lmask (s.port p).handle).getLsbD n))
  | .send => (s.consumeFrame (.classic (s.port p).cf)).callDriver p (.sendRaw (s.port p).cf) .last
  | .sendFd => (s.consumeFrame (.fd (s.port p).ff)).callDriver p (.sendRawFD (s.port p).ff) .last
  | .recv => s.callDriver p .receiveRaw .last
  | .recvFd => s.callDriver p .receiveRawFD .last
  | .cbSet n => (s.setCallback n (s.port p).arg0).complete p 0
  | .cbClr n => (s.setCallback n 0).complete p 0
  | .cbGSet => State.complete { s with cbgen := (s.port p).arg0 } p 0
  | .cbGClr => State.complete { s with cbgen := 0 } p 0
  | .c2fd =>
    ((s.consumeFrame (.classic (s.port p).cf)).storeFrame p (.fd (classicToFd (s.port p).cf (s.port p).ff))).complete p 1
  | .fd2c =>
    if fdToClassicFails (s.port p).ff then (s.consumeFrame (.fd (s.port p).ff)).complete p 0
    else ((s.consumeFrame (.fd (s.port p).ff)).storeFrame p (.classic (fdToClassic (s.port p).ff))).complete p 1
  | .qFault => s.complete p (zextBit s.flags.faulted)
  | .qRxFault => s.complete p (zextBit s.flags.rxFault)
  | .qTxFault => s.complete p (zextBit s.flags.txFault)
  | .qFdCap => s.complete p (zextBit s.flags.fdcap)

/-- Every meaning runs the next segment of the active port, its own first segment being `firstSegment`. -/
theorem exec_eq (i : Instr) (s : State) : exec i s = s.runCommand (firstSegment i s) := by
  cases i <;> rfl

theorem exec_of_enabled (i : Instr) (s : State) (g : Seg) (h : s.enabled = some g) :
    exec i s = .next (s.runSeg s.active (firstSegment i s s.active) g) := by
  rw [exec_eq]
  simp [State.runCommand, h]

theorem exec_first (i : Instr) (s : State) (h : s.enabled = some .first) :
    exec i s = .next (firstSegment i s s.active) := exec_of_enabled i s _ h

/-- All that `exec` can answer: the segment the active port stands at, or the stuck state where none may execute. -/
theorem exec_next (i : Instr) (s t : State) (h : exec i s = .next t) :
    ∃ g, s.enabled = some g ∧ t = s.runSeg s.active (firstSegment i s s.active) g := by
  rw [exec_eq] at h
  unfold State.runCommand at h
  split at h
  · rename_i g hg
    exact ⟨g, hg, by simpa using h.symm⟩
  · cases h

theorem exec_stuck (i : Instr) (s : State) (h : s.enabled = none) : exec i s = .fault (.stuck s.active) := by
  rw [exec_eq]
  simp [State.runCommand, h]

/-! ## The block's turn -/

theorem fetch_command (s : State) (w : Word) (g : Seg) (i : Instr) (hs : (s.port s.active).seq = .run w (.ready g))
    (hd : decode w = .ok i) : s.fetch = .command i := by
  simp [State.fetch, hs, hd]

/-- What the block's turn fetches, and when. -/
theorem fetch_command_iff (s : State) (i : Instr) :
    s.fetch = .command i ↔ ∃ w g, (s.port s.active).seq = .run w (.ready g) ∧ decode w = .ok i := by
  unfold State.fetch
  split
  · rename_i h; simp [h]
  · rename_i w g h
    split
    · rename_i j hj; simp [h, hj]
    · rename_i e he; simp [h, he]
  · rename_i h; simp [h]
  · rename_i h; simp [h]

theorem step_of_nil (s : State) (h : s.schedule = []) : step s = blockTurn s := by
  simp [step, h]

theorem step_of_block (s : State) (rest : List Turn) (h : s.schedule = .block :: rest) :
    step s = blockTurn { s with schedule := rest } := by
  simp [step, h]

theorem step_of_input (s : State) (x : Input) (rest : List Turn) (h : s.schedule = .input x :: rest) :
    step s = State.input { s with schedule := rest } x := by
  simp [step, h]

theorem blockTurn_command (s : State) (i : Instr) (h : s.fetch = .command i) : blockTurn s = exec i s := by
  simp [blockTurn, h]

/-- All that a turn of the block can answer when it answers a next state: nothing to run, or a segment of the fetched
command. -/
theorem blockTurn_next (s t : State) (h : blockTurn s = .next t) :
    (s.fetch = .nothing ∧ t = s) ∨
      ∃ i g, s.fetch = .command i ∧ s.enabled = some g ∧ t = s.runSeg s.active (firstSegment i s s.active) g := by
  unfold blockTurn at h
  split at h
  · rename_i hf; exact .inl ⟨hf, by simpa using h.symm⟩
  · cases h
  · cases h
  · rename_i i hf
    obtain ⟨g, hg, ht⟩ := exec_next i s t h
    exact .inr ⟨i, g, hf, hg, ht⟩

/-- All that a step can be: a turn of the block, with or without an entry of the schedule for it, or one input. -/
theorem step_cases (s : State) :
    (∃ l, (s.schedule = [] ∧ l = [] ∨ s.schedule = .block :: l) ∧ step s = blockTurn { s with schedule := l }) ∨
      ∃ x l, s.schedule = .input x :: l ∧ step s = State.input { s with schedule := l } x := by
  cases hs : s.schedule with
  | nil => exact .inl ⟨[], .inl ⟨rfl, rfl⟩, by rw [step_of_nil s hs, ← hs]⟩
  | cons x l =>
    cases x with
    | block => exact .inl ⟨l, .inr rfl, step_of_block s l hs⟩
    | input x => exact .inr ⟨x, l, rfl, step_of_input s x l hs⟩

end Sys2Proof.Machine
end

