-- ==== Sys2Proof/Laws/Segment.lean ====
section
/-! SUPPORT. All that one segment of a command can do (20_memory.md R75): to the port that runs it, to the other port, and
to each part of the shared state. Later proofs cite these and do not take the commands apart again. -/

namespace Sys2Proof.Machine

/-! ## The other port -/

theorem updateMask_port_ne (s : State) (p q : PortId) (f : Mask → Mask) (h : q ≠ p) :
    (s.updateMask p f).port q = s.port q := by
  unfold State.updateMask
  simp only
  split <;> rw [complete_port_ne _ _ _ _ h]
  simp

theorem updateMask_port_same (s : State) (p : PortId) (f : Mask → Mask) :
    (s.updateMask p f).port p = { s.port p with result := 0, busy := false, seq := .idle } := by
  unfold State.updateMask
  simp only
  split <;> simp

theorem firstSegment_port_ne (i : Instr) (s : State) (p q : PortId) (h : q ≠ p) :
    (firstSegment i s p).port q = s.port q := by
  cases i <;> simp only [firstSegment]
  all_goals (repeat' split)
  all_goals first
    | (simp only [complete_port_ne _ _ _ _ h, callDriver_port_ne _ _ _ _ _ h, updateMask_port_ne _ _ _ _ h,
        storeFrame_port_ne _ _ _ _ h]; done)
    | (simp [complete_port_ne _ _ _ _ h, callDriver_port_ne _ _ _ _ _ h, storeFrame_port_ne _ _ _ _ h]; done)
    | (rw [complete_port_ne _ _ _ _ h]; cases q <;> rfl)

/-- A segment changes no register of the port that does not run it. -/
theorem runSeg_port_ne (i : Instr) (s : State) (p q : PortId) (g : Seg) (h : q ≠ p) :
    (s.runSeg p (firstSegment i s p) g).port q = s.port q := by
  cases g
  · exact firstSegment_port_ne i s p q h
  all_goals simp only [State.runSeg, State.secondInstall, State.afterSend, State.afterReceive, State.slotSegment]
  all_goals (repeat' split)
  all_goals simp [complete_port_ne _ _ _ _ h, callDriver_port_ne _ _ _ _ _ h, storeFrame_port_ne _ _ _ _ h,
    setPhase_port_ne _ _ _ _ h, notifyListener_port_ne _ _ _ _ _ h]

/-! ## The port that runs the segment -/

/-- What a segment makes of the registers `r` of its port, running the word `w` from a position of rank `n`: CF and FF may
change; and the command completes, or stands at a phase nearer its end. -/
def SegPort (r r' : Port) (w : Word) (n : Nat) : Prop :=
  ∃ cf ff, (∃ v, r' = { r with cf := cf, ff := ff, result := v, busy := false, seq := .idle }) ∨
    ∃ ph, ph.rank < n ∧ r' = { r with cf := cf, ff := ff, seq := .run w ph }

theorem segPort_complete (s : State) (p : PortId) (r : Port) (w v : Word) (n : Nat)
    (h : ∃ cf ff, s.port p = { r with cf := cf, ff := ff }) : SegPort r ((s.complete p v).port p) w n := by
  obtain ⟨cf, ff, h⟩ := h
  exact ⟨cf, ff, .inl ⟨v, by simp [h]⟩⟩

theorem segPort_setPhase (s : State) (p : PortId) (r : Port) (w : Word) (ph ph0 : Phase) (n : Nat) (hn : ph.rank < n)
    (h : ∃ cf ff, s.port p = { r with cf := cf, ff := ff }) (hs : r.seq = .run w ph0) :
    SegPort r ((s.setPhase p ph).port p) w n := by
  obtain ⟨cf, ff, h⟩ := h
  exact ⟨cf, ff, .inr ⟨ph, hn, by rw [setPhase_port_same s p w ph0 ph (by simp [h, hs]), h]⟩⟩

theorem segPort_callDriver (s : State) (p : PortId) (w : Word) (c : DrvCall) (k : AfterCall) (ph0 : Phase) (n : Nat)
    (hn : Phase.rank (.call s.out.length c s.flags.fdcap k) < n) (hs : (s.port p).seq = .run w ph0) :
    SegPort (s.port p) ((s.callDriver p c k).port p) w n :=
  ⟨_, _, .inr ⟨_, hn, callDriver_port_same s p c k w ph0 hs⟩⟩

theorem call_rank_lt (tag : Nat) (c : DrvCall) (b : Bool) (k : AfterCall) :
    (Phase.call tag c b k).rank < Seg.rank .first := by
  cases c <;> cases k <;> simp [Phase.rank, Seg.rank]

theorem storeFrame_port_eq (s : State) (p : PortId) (f : Frame) :
    ∃ cf ff, (s.storeFrame p f).port p = { s.port p with cf := cf, ff := ff } := by
  cases f
  · exact ⟨_, _, storeFrame_classic_port _ _ _⟩
  · exact ⟨_, _, storeFrame_fd_port _ _ _⟩

theorem segPort_storeComplete (s : State) (p : PortId) (f g : Frame) (w v : Word) (n : Nat) :
    SegPort (s.port p) ((((s.consumeFrame f).storeFrame p g).complete p v).port p) w n := by
  refine segPort_complete _ _ _ _ _ _ ?_
  obtain ⟨cf, ff, h⟩ := storeFrame_port_eq (s.consumeFrame f) p g
  exact ⟨cf, ff, by rw [h, consumeFrame_port]⟩

theorem segPort_consumeCall (s : State) (p : PortId) (f : Frame) (w : Word) (c : DrvCall) (k : AfterCall) (ph0 : Phase)
    (hs : (s.port p).seq = .run w ph0) :
    SegPort (s.port p) (((s.consumeFrame f).callDriver p c k).port p) w (Seg.rank .first) := by
  have h := segPort_callDriver (s.consumeFrame f) p w c k ph0 (Seg.rank .first) (call_rank_lt _ _ _ _) (by simpa using hs)
  simpa using h

theorem segPort_first (i : Instr) (s : State) (p : PortId) (w : Word) (ph0 : Phase)
    (hs : (s.port p).seq = .run w ph0) :
    SegPort (s.port p) ((firstSegment i s p).port p) w (Seg.rank .first) := by
  have hcbg : ∀ v : Word, State.port { s with cbgen := v } p = s.port p := by
    intro v
    cases p <;> rfl
  cases i <;> simp only [firstSegment]
  all_goals (repeat' split)
  all_goals first
    | exact segPort_complete _ _ _ _ _ _ ⟨_, _, rfl⟩
    | exact segPort_callDriver s p w _ _ ph0 _ (call_rank_lt _ _ _ _) hs
    | exact ⟨_, _, .inl ⟨_, updateMask_port_same _ _ _⟩⟩
    | exact segPort_storeComplete s p _ _ w _ _
    | exact segPort_consumeCall s p _ w _ _ ph0 hs
    | exact segPort_complete _ _ _ _ _ _ ⟨(s.port p).cf, (s.port p).ff, hcbg _⟩
    | exact segPort_complete _ _ _ _ _ _ ⟨(s.port p).cf, (s.port p).ff, by simp⟩

/-- A segment changes of its own port CF and FF at most, and RESULT, BUSY and the sequencer by completing, or the
sequencer's phase, which comes nearer the end. -/
theorem runSeg_port_same (i : Instr) (s : State) (p : PortId) (w : Word) (g : Seg)
    (hs : (s.port p).seq = .run w (.ready g)) :
    SegPort (s.port p) ((s.runSeg p (firstSegment i s p) g).port p) w g.rank := by
  cases g with
  | first => exact segPort_first i s p w _ hs
  | secondInstall s1 => exact segPort_callDriver s p w _ _ _ _ (by simp [Phase.rank, Seg.rank]) hs
  | sent f ok =>
    simp only [State.runSeg, State.afterSend]
    split
    · exact segPort_setPhase s p _ w _ _ _ (by simp [Phase.rank, Seg.rank]) ⟨_, _, rfl⟩ hs
    · exact segPort_complete _ _ _ _ _ _ ⟨_, _, rfl⟩
  | received n f =>
    simp only [State.runSeg, State.afterReceive]
    split
    · exact segPort_complete _ _ _ _ _ _ (storeFrame_port_eq s p f)
    · exact segPort_setPhase _ p _ w _ _ _ (by simp [Phase.rank, Seg.rank]) (by simpa using storeFrame_port_eq s p f) hs
  | slot k f j v =>
    simp only [State.runSeg, State.slotSegment]
    split
    · refine segPort_setPhase s p _ w _ _ _ ?_ ⟨_, _, rfl⟩ hs
      simp only [Phase.rank, Seg.afterSlot]
      have := j.isLt
      split <;> simp only [Seg.rank] <;> omega
    · refine ⟨_, _, .inr ⟨_, ?_, notifyListener_port_same s p _ v w _ hs⟩⟩
      simp only [Phase.rank, Seg.rank]
      have := j.isLt
      omega
  | finish v => exact segPort_complete _ _ _ _ _ _ ⟨_, _, rfl⟩

/-! ## Shared state -/

/-- No segment writes FLAGS, BUSSPEED, FDSPEED, ENPIN, a parameter or the schedule. -/
theorem runSeg_driverFields (i : Instr) (s : State) (p : PortId) (g : Seg) :
    let t := s.runSeg p (firstSegment i s p) g
    t.flags = s.flags ∧ t.busSpeed = s.busSpeed ∧ t.fdSpeed = s.fdSpeed ∧ t.enPin = s.enPin ∧ t.params = s.params ∧
      t.schedule = s.schedule := by
  cases g
  · cases i <;> simp only [State.runSeg, firstSegment, State.updateMask]
    all_goals (repeat' split)
    all_goals simp
  all_goals simp only [State.runSeg, State.secondInstall, State.afterSend, State.afterReceive, State.slotSegment]
  all_goals (repeat' split)
  all_goals simp

/-- A segment records no fault but LengthContract, and clears none. -/
theorem runSeg_faults (i : Instr) (s : State) (p : PortId) (g : Seg) :
    let t := s.runSeg p (firstSegment i s p) g
    t.faults = s.faults ∨ ∃ b, t.faults = { s.faults with lengthContract := s.faults.lengthContract || b } := by
  cases g
  · cases i <;> simp only [State.runSeg, firstSegment, State.updateMask]
    all_goals (repeat' split)
    all_goals first
      | (left; simp; done)
      | (right; exact ⟨_, by simp; rfl⟩)
  all_goals simp only [State.runSeg, State.secondInstall, State.afterSend, State.afterReceive, State.slotSegment]
  all_goals (repeat' split)
  all_goals first
    | (left; simp; done)
    | (right; exact ⟨_, by simp; rfl⟩)

/-- Which commands' segments write which file. -/
theorem runSeg_files (i : Instr) (s : State) (p : PortId) (g : Seg) :
    let t := s.runSeg p (firstSegment i s p) g
    (t.lslot ≠ s.lslot → i = .lAttach ∨ i = .lDetach) ∧
    (t.lmask ≠ s.lmask → i = .lAttach ∨ i = .lGenOn ∨ i = .lGenOff ∨ ∃ n, i = .lMbOn n ∨ i = .lMbOff n) ∧
    (t.cbmb ≠ s.cbmb → ∃ n, i = .cbSet n ∨ i = .cbClr n) ∧
    (t.cbgen ≠ s.cbgen → i = .cbGSet ∨ i = .cbGClr) := by
  cases g
  · cases i <;> simp only [State.runSeg, firstSegment, State.updateMask]
    all_goals (repeat' split)
    all_goals simp
  all_goals simp only [State.runSeg, State.secondInstall, State.afterSend, State.afterReceive, State.slotSegment]
  all_goals (repeat' split)
  all_goals simp

end Sys2Proof.Machine
end

