-- ==== Sys2Proof/Laws/Window.lean ====
section
/-! SUPPORT. The register window: where each register is found, and what an access of the hosts comes to
(10_state.md R44, R45; 20_memory.md R66 to R69, R201). -/

namespace Sys2Proof.Machine

/-! ## The map -/

theorem base_offset_lt (p : PortId) (r : Reg) : p.base + r.offset < 0x200 := by
  cases p <;> cases r <;> simp [PortId.base, Reg.offset] <;> omega

theorem base_offset_aligned (p : PortId) (r : Reg) : (p.base + r.offset) % 4 = 0 := by
  cases p <;> cases r <;> simp [PortId.base, Reg.offset] <;> omega

theorem targetAt_port (p : PortId) (r : Reg) : targetAt (p.base + r.offset) = .port p r := by
  cases p <;> cases r <;> first | rfl | (rename_i k; revert k; decide)

theorem targetAt_shared (r : SharedReg) : targetAt r.offset = .shared r := by
  cases r <;> rfl

theorem sharedOffset_lt (r : SharedReg) : r.offset < 0x300 ∧ r.offset % 4 = 0 := by
  cases r <;> decide

theorem mem_Reg_all (r : Reg) : r ∈ Reg.all := by
  cases r <;> simp [Reg.all]

theorem mem_SharedReg_all (r : SharedReg) : r ∈ SharedReg.all := by
  cases r <;> simp [SharedReg.all]

/-- Where no register is mapped, none is found. -/
theorem targetAt_unmapped (o : Nat) (hp : ∀ (p : PortId) (r : Reg), o ≠ p.base + r.offset)
    (hs : ∀ r : SharedReg, o ≠ r.offset) : targetAt o = .unmapped := by
  have hport : ∀ p : PortId, p.base ≤ o → portRegAt (o - p.base) = none := by
    intro p hb
    refine List.find?_eq_none.2 fun r _ => ?_
    have := hp p r
    simp only [beq_iff_eq]
    omega
  have hshared : sharedRegAt o = none := by
    refine List.find?_eq_none.2 fun r _ => ?_
    have := hs r
    simp only [beq_iff_eq]
    omega
  have happ := hport .app
  have hisr := hport .isr
  simp only [PortId.base, Nat.sub_zero, Nat.zero_le, forall_true_left] at happ hisr
  unfold targetAt
  split
  · simp [happ]
  · split
    · rw [hisr (by omega)]; rfl
    · rw [hshared]; rfl

theorem windowOffset_base_add (pr : Params) (o : Nat) (h : o < 0x300) :
    windowOffset pr (pr.blockBase + o) = some o := by
  simp [windowOffset, windowSize, h]

theorem windowOffset_some (pr : Params) (a o : Nat) (h : windowOffset pr a = some o) :
    a = pr.blockBase + o ∧ o < 0x300 := by
  unfold windowOffset at h
  split at h
  · rename_i hh
    simp only [Option.some.injEq] at h
    unfold windowSize at hh
    omega
  · cases h

/-- The register found at an offset lies there. -/
theorem targetAt_port_inv (o : Nat) (p : PortId) (r : Reg) (h : targetAt o = .port p r) :
    o = p.base + r.offset := by
  unfold targetAt at h
  split at h
  · cases hh : portRegAt o with
    | none =>
      rw [hh] at h
      cases h
    | some r' =>
      rw [hh] at h
      cases h
      have := List.find?_some hh
      simp only [beq_iff_eq] at this
      simp [PortId.base, this]
  · split at h
    · cases hh : portRegAt (o - 0x100) with
      | none =>
        rw [hh] at h
        cases h
      | some r' =>
        rw [hh] at h
        cases h
        have := List.find?_some hh
        simp only [beq_iff_eq] at this
        simp only [PortId.base, this]
        omega
    · cases hh : sharedRegAt o with
      | none =>
        rw [hh] at h
        cases h
      | some r' =>
        rw [hh] at h
        cases h

theorem targetAt_shared_inv (o : Nat) (r : SharedReg) (h : targetAt o = .shared r) : o = r.offset := by
  unfold targetAt at h
  split at h
  · cases hh : portRegAt o with
    | none =>
      rw [hh] at h
      cases h
    | some r' =>
      rw [hh] at h
      cases h
  · split at h
    · cases hh : portRegAt (o - 0x100) with
      | none =>
        rw [hh] at h
        cases h
      | some r' =>
        rw [hh] at h
        cases h
    · cases hh : sharedRegAt o with
      | none =>
        rw [hh] at h
        cases h
      | some r' =>
        rw [hh] at h
        cases h
        have := List.find?_some hh
        simp only [beq_iff_eq] at this
        simp [this]

theorem legalAccess_of_aligned (o : Nat) (h : o % 4 = 0) : legalAccess o 4 = true := by
  simp [legalAccess, h]

theorem not_legalAccess (o n : Nat) (h : n ≠ 4 ∨ o % 4 ≠ 0) : legalAccess o n = false := by
  rcases h with h | h <;> simp [legalAccess, h]

/-! ## Reads -/

theorem memRead_port (s : State) (p : PortId) (r : Reg) :
    s.memRead (s.params.blockBase + p.base + r.offset) 4 =
      s.emit (.hostRead (s.params.blockBase + p.base + r.offset) 4 ((s.port p).readReg r)) := by
  have h := windowOffset_base_add s.params (p.base + r.offset) (by have := base_offset_lt p r; omega)
  simp only [Nat.add_assoc] at *
  simp [State.memRead, h, State.readOffset, legalAccess_of_aligned _ (base_offset_aligned p r), targetAt_port]

theorem memRead_shared (s : State) (r : SharedReg) :
    s.memRead (s.params.blockBase + r.offset) 4 =
      s.emit (.hostRead (s.params.blockBase + r.offset) 4 (s.readShared r)) := by
  have h := windowOffset_base_add s.params r.offset (sharedOffset_lt r).1
  simp [State.memRead, h, State.readOffset, legalAccess_of_aligned _ (sharedOffset_lt r).2, targetAt_shared]

theorem memRead_bad (s : State) (o n : Nat) (ho : o < 0x300)
    (h : legalAccess o n = false ∨ targetAt o = .unmapped) :
    s.memRead (s.params.blockBase + o) n =
      s.recordBadAccess.emit (.hostRead (s.params.blockBase + o) n 0) := by
  have hw := windowOffset_base_add s.params o ho
  rcases h with h | h
  · simp [State.memRead, hw, State.readOffset, h]
  · simp [State.memRead, hw, State.readOffset, h]

/-- A read changes nothing but the outputs and, for a bad access, the fault record (R69). -/
theorem memRead_cases (s : State) (addr n : Nat) :
    s.memRead addr n = s ∨ (∃ v, s.memRead addr n = s.emit (.hostRead addr n v)) ∨
      s.memRead addr n = s.recordBadAccess.emit (.hostRead addr n 0) := by
  unfold State.memRead
  split
  · right
    simp only [State.readOffset]
    split
    · split
      · exact .inl ⟨_, rfl⟩
      · exact .inl ⟨_, rfl⟩
      · exact .inr rfl
    · exact .inr rfl
  · exact .inl rfl

/-! ## Packed registers -/

/-- CF_CTRL reads back what is written but for its reserved bits (R44). -/
theorem packCfCtrl_writeCfCtrl (f : ClassicFrame) (v : Word) :
    packCfCtrl (writeCfCtrl f v) = v &&& 0x00FFFF03 := by
  apply BitVec.eq_of_getLsbD_eq
  intro i hi
  simp only [packCfCtrl, writeCfCtrl, BitVec.getLsbD_append, BitVec.getLsbD_and, BitVec.getLsbD_extractLsb',
    BitVec.getLsbD_ofBool]
  interval_cases i <;> simp

/-- FF_CTRL reads back what is written but for its reserved bits (R44). -/
theorem packFfCtrl_writeFfCtrl (f : FdFrame) (v : Word) :
    packFfCtrl (writeFfCtrl f v) = v &&& 0x00FFFF07 := by
  apply BitVec.eq_of_getLsbD_eq
  intro i hi
  simp only [packFfCtrl, writeFfCtrl, BitVec.getLsbD_append, BitVec.getLsbD_and, BitVec.getLsbD_extractLsb',
    BitVec.getLsbD_ofBool]
  interval_cases i <;> simp

/-! ## Writes -/

theorem memWrite_port (s : State) (p : PortId) (r : Reg) (v : Word) :
    s.memWrite (s.params.blockBase + p.base + r.offset) 4 v = s.writeReg p r v := by
  have h := windowOffset_base_add s.params (p.base + r.offset) (by have := base_offset_lt p r; omega)
  simp only [Nat.add_assoc] at *
  simp [State.memWrite, h, State.writeOffset, legalAccess_of_aligned _ (base_offset_aligned p r), targetAt_port]

theorem memWrite_bad (s : State) (o n : Nat) (v : Word) (ho : o < 0x300)
    (h : legalAccess o n = false ∨ targetAt o = .unmapped ∨ (∃ r, targetAt o = .shared r) ∨
      ∃ p r, targetAt o = .port p r ∧ r.readOnly = true) :
    s.memWrite (s.params.blockBase + o) n v = s.recordBadAccess := by
  have hw := windowOffset_base_add s.params o ho
  rcases h with h | h | ⟨r, h⟩ | ⟨p, r, h, hr⟩
  · simp [State.memWrite, hw, State.writeOffset, h]
  · simp [State.memWrite, hw, State.writeOffset, h]
  · simp [State.memWrite, hw, State.writeOffset, h]
  · simp [State.memWrite, hw, State.writeOffset, h, State.writeReg, hr]

theorem writeReg_busy (s : State) (p : PortId) (r : Reg) (v : Word) (hr : r.readOnly = false)
    (hb : (s.port p).busy = true) : s.writeReg p r v = s.raiseIllegalCommand p := by
  simp [State.writeReg, hr, hb]

theorem writeReg_cmd (s : State) (p : PortId) (w : Word) (hb : (s.port p).busy = false) :
    s.writeReg p .cmd w = if isLegal w then s.issue p w else s.raiseIllegalCommand p := by
  simp [State.writeReg, Reg.readOnly, hb, State.writeCommand]

theorem writeReg_store (s : State) (p : PortId) (r : Reg) (v : Word) (hr : r.readOnly = false) (hc : r ≠ .cmd)
    (hb : (s.port p).busy = false) : s.writeReg p r v = s.setPort p ((s.port p).storeReg r v) := by
  simp [State.writeReg, hr, hb, hc]

/-- All that a host write can do to the block: nothing, a recorded bad access, a refusal, an issue of a legal word on an
idle port, or a store into an idle port. -/
theorem memWrite_cases (s : State) (addr n : Nat) (v : Word) :
    s.memWrite addr n v = s ∨ s.memWrite addr n v = s.recordBadAccess ∨
      ∃ p, s.memWrite addr n v = s.raiseIllegalCommand p ∨
        ((s.port p).busy = false ∧ ((isLegal v = true ∧ s.memWrite addr n v = s.issue p v) ∨
          ∃ r, s.memWrite addr n v = s.setPort p ((s.port p).storeReg r v))) := by
  unfold State.memWrite
  split
  · unfold State.writeOffset
    split
    · split
      · rename_i p r _
        unfold State.writeReg
        split
        · exact .inr (.inl rfl)
        · split
          · exact .inr (.inr ⟨p, .inl rfl⟩)
          · rename_i hb
            have hb : (s.port p).busy = false := by simpa using hb
            split
            · unfold State.writeCommand
              split
              · rename_i hl; exact .inr (.inr ⟨p, .inr ⟨hb, .inl ⟨hl, rfl⟩⟩⟩)
              · exact .inr (.inr ⟨p, .inl rfl⟩)
            · exact .inr (.inr ⟨p, .inr ⟨hb, .inr ⟨r, rfl⟩⟩⟩)
      · exact .inr (.inl rfl)
      · exact .inr (.inl rfl)
    · exact .inr (.inl rfl)
  · exact .inl rfl

/-- A store changes no register of the port but an operand or a frame register. -/
theorem storeReg_fields (r : Port) (reg : Reg) (v : Word) :
    (r.storeReg reg v).result = r.result ∧ (r.storeReg reg v).busy = r.busy ∧
      (r.storeReg reg v).illegal = r.illegal ∧ (r.storeReg reg v).seq = r.seq := by
  cases reg <;> simp [Port.storeReg]

end Sys2Proof.Machine
end

