-- ==== Sys2Proof/Laws/Step.lean ====
section
/-! SUPPORT. All that one step can do (20_memory.md R74): a turn of the block, one input, and what either makes of a port;
and how a run is put together from its steps. -/

namespace Sys2Proof.Machine

/-! ## The block's turn -/

/-- A turn of the block leaves the state, or runs the enabled segment of the fetched command. -/
theorem blockTurn_cases (s t : State) (h : blockTurn s = .next t) :
    t = s ∨ ∃ i g w, s.fetch = .command i ∧ (s.port s.active).seq = .run w (.ready g) ∧
      t = s.runSeg s.active (firstSegment i s s.active) g := by
  rcases blockTurn_next s t h with ⟨_, rfl⟩ | ⟨i, g, hf, hg, rfl⟩
  · exact .inl rfl
  · obtain ⟨w, hs⟩ := (enabled_iff s g).1 hg
    exact .inr ⟨i, g, w, hf, hs, rfl⟩

/-! ## Inputs -/

theorem memRead_port_same (s : State) (a n : Nat) (q : PortId) : (s.memRead a n).port q = s.port q := by
  rcases memRead_cases s a n with e | ⟨v, e⟩ | e <;> rw [e]
  · simp
  · simp

/-- An accepted answer leaves the state, or enables the segment that the outstanding call's answer enables. -/
theorem answer_cases (s t : State) (p : PortId) (tag : Nat) (a : DrvAnswer) (h : s.answer p tag a = .next t) :
    t = s ∨ ∃ w c b k g, (s.port p).seq = .run w (.call tag c b k) ∧ c.segAfter k a = some g ∧ a.allowed c b = true ∧
      t = s.setPhase p (.ready g) := by
  unfold State.answer at h
  split at h
  · rename_i w t0 c fd k hs
    split at h
    · rename_i ht
      subst ht
      split at h
      · rename_i g hg
        split at h
        · rename_i ha
          cases h
          exact .inr ⟨w, c, fd, k, g, hs, hg, ha, rfl⟩
        · cases h
      · cases h
    · cases h
      exact .inl rfl
  all_goals
    cases h
    exact .inl rfl

/-- An answer that the driver may give to an outstanding call enables the call's next segment. -/
theorem answer_next (s : State) (p : PortId) (w : Word) (tag : Nat) (c : DrvCall) (b : Bool) (k : AfterCall)
    (a : DrvAnswer) (g : Seg) (hs : (s.port p).seq = .run w (.call tag c b k)) (hg : c.segAfter k a = some g)
    (ha : a.allowed c b = true) : s.answer p tag a = .next (s.setPhase p (.ready g)) := by
  simp [State.answer, hs, hg, ha]

theorem segAfter_rank_le (c : DrvCall) (k : AfterCall) (a : DrvAnswer) (g : Seg) (tag : Nat) (b : Bool)
    (h : c.segAfter k a = some g) : (Phase.ready g).rank ≤ (Phase.call tag c b k).rank := by
  unfold DrvCall.segAfter at h
  cases c <;> cases a <;> simp at h <;> (try (cases k)) <;> (try simp at h) <;> subst h <;> simp [Phase.rank, Seg.rank]

theorem afterSlot_rank_le (n : Notification) (tag : Nat) (v : Word) :
    (Phase.ready (Seg.afterSlot n.kind n.frame n.slot v)).rank ≤ (Phase.notification tag n v).rank := by
  simp only [Phase.rank, Seg.afterSlot]
  split <;> simp only [Seg.rank] <;> omega

/-- An acknowledgement leaves the state, or enables the segment after the notification's slot. -/
theorem acknowledge_cases (s : State) (p : PortId) (tag : Nat) :
    s.acknowledge p tag = s ∨ ∃ w n v, (s.port p).seq = .run w (.notification tag n v) ∧
      s.acknowledge p tag = s.setPhase p (.ready (Seg.afterSlot n.kind n.frame n.slot v)) := by
  unfold State.acknowledge
  split
  · rename_i w t0 n v hs
    split
    · rename_i ht
      subst ht
      exact .inr ⟨w, n, v, hs, rfl⟩
    · exact .inl rfl
  all_goals exact .inl rfl

/-- What an input other than RST makes of the registers of a port: nothing; a set ILLEGAL bit; an enabled next segment; or,
on an idle port, an issued command or a stored register. -/
inductive InputPort (r : Port) : Port → Prop where
  | same : InputPort r r
  | illegal : InputPort r { r with illegal := true }
  | phase (w : Word) (ph ph' : Phase) (hs : r.seq = .run w ph) (hr : ph'.rank ≤ ph.rank) :
    InputPort r { r with seq := .run w ph' }
  | issued (w : Word) (hb : r.busy = false) (hl : isLegal w = true) :
    InputPort r { r with busy := true, seq := .run w (.ready .first) }
  | stored (reg : Reg) (v : Word) (hb : r.busy = false) : InputPort r (r.storeReg reg v)

theorem input_port (s t : State) (x : Input) (q : PortId) (h : s.input x = .next t) (hx : x ≠ .rst) :
    InputPort (s.port q) (t.port q) := by
  cases x with
  | memRead a n =>
    cases h
    rw [memRead_port_same]
    exact .same
  | memWrite a n v =>
    cases h
    rcases memWrite_cases s a n v with e | e | ⟨p, e | ⟨hb, ⟨hl, e⟩ | ⟨r, e⟩⟩⟩ <;> rw [e]
    · exact .same
    · rw [recordBadAccess_port]
      exact .same
    all_goals
      by_cases hq : q = p
      · subst hq
        first
          | (rw [raiseIllegalCommand_port_same]; exact .illegal)
          | (rw [issue_port_same]; exact .issued v hb hl)
          | (rw [port_setPort_same]; exact .stored r v hb)
      · first
          | (rw [raiseIllegalCommand_port_ne _ _ _ hq]; exact .same)
          | (rw [issue_port_ne _ _ _ _ hq]; exact .same)
          | (rw [port_setPort_ne _ _ _ _ hq]; exact .same)
  | driverAnswer p tag a =>
    rcases answer_cases _ _ _ _ _ h with rfl | ⟨w, c, b, k, g, hs, hg, _, rfl⟩
    · exact .same
    · by_cases hq : q = p
      · subst hq
        rw [setPhase_port_same _ _ _ _ _ hs]
        exact .phase w _ _ hs (segAfter_rank_le c k a g tag b hg)
      · rw [setPhase_port_ne _ _ _ _ hq]
        exact .same
  | listenerAck p tag =>
    cases h
    rcases acknowledge_cases s p tag with e | ⟨w, n, v, hs, e⟩ <;> rw [e]
    · exact .same
    · by_cases hq : q = p
      · subst hq
        rw [setPhase_port_same _ _ _ _ _ hs]
        exact .phase w _ _ hs (afterSlot_rank_le n tag v)
      · rw [setPhase_port_ne _ _ _ _ hq]
        exact .same
  | driverStatus w =>
    cases h
    rw [writeStatus_port]
    exact .same
  | callbackRead r =>
    cases h
    rw [emit_port]
    exact .same
  | rst => exact absurd rfl hx

/-- No input but a driver status write and RST changes shared state. -/
theorem input_shared (s t : State) (x : Input) (h : s.input x = .next t) (hx : x ≠ .rst)
    (hd : ∀ w, x ≠ .driverStatus w) :
    t.lslot = s.lslot ∧ t.lmask = s.lmask ∧ t.cbmb = s.cbmb ∧ t.cbgen = s.cbgen ∧ t.flags = s.flags ∧
      t.busSpeed = s.busSpeed ∧ t.fdSpeed = s.fdSpeed ∧ t.enPin = s.enPin ∧ t.params = s.params ∧
      t.schedule = s.schedule := by
  cases x with
  | memRead a n =>
    cases h
    rcases memRead_cases s a n with e | ⟨v, e⟩ | e <;> rw [e] <;> simp
  | memWrite a n v =>
    cases h
    rcases memWrite_cases s a n v with e | e | ⟨p, e | ⟨hb, ⟨hl, e⟩ | ⟨r, e⟩⟩⟩ <;> rw [e] <;> simp
  | driverAnswer p tag a =>
    rcases answer_cases _ _ _ _ _ h with rfl | ⟨w, c, b, k, g, hs, hg, _, rfl⟩ <;> simp
  | listenerAck p tag =>
    cases h
    rcases acknowledge_cases s p tag with e | ⟨w, n, v, hs, e⟩ <;> rw [e] <;> simp
  | driverStatus w => exact absurd rfl (hd w)
  | callbackRead r =>
    cases h
    simp
  | rst => exact absurd rfl hx

/-! ## One port's sequencer -/

/-- What a step that is the turn `x` makes of SEQ[p] where it was `q` and the active port was `act`: nothing; idle, by RST; an issued command; a segment
of its command, which ends it or brings it nearer its end; or the segment that its answer or acknowledgement enables. -/
inductive SeqStep (act : PortId) (q : Seq) (p : PortId) (x : Turn) : Seq → Prop where
  | same : SeqStep act q p x q
  | reset (hx : x = .input .rst) : SeqStep act q p x .idle
  | issued (w : Word) (hs : q = .idle) : SeqStep act q p x (.run w (.ready .first))
  | ended (w : Word) (g : Seg) (hx : x = .block) (ha : act = p) (hs : q = .run w (.ready g)) :
    SeqStep act q p x .idle
  | segment (w : Word) (g : Seg) (ph : Phase) (hx : x = .block) (ha : act = p)
    (hs : q = .run w (.ready g)) (hr : ph.rank < g.rank) : SeqStep act q p x (.run w ph)
  | answered (w : Word) (tag : Nat) (c : DrvCall) (b : Bool) (k : AfterCall) (a : DrvAnswer) (g : Seg)
    (hx : x = .input (.driverAnswer p tag a)) (hs : q = .run w (.call tag c b k))
    (hr : g.rank ≤ (Phase.call tag c b k).rank) : SeqStep act q p x (.run w (.ready g))
  | acknowledged (w : Word) (tag : Nat) (n : Notification) (v : Word) (g : Seg)
    (hx : x = .input (.listenerAck p tag)) (hs : q = .run w (.notification tag n v))
    (hr : g.rank ≤ (Phase.notification tag n v).rank) : SeqStep act q p x (.run w (.ready g))

theorem seqStep_of_same (s t : State) (p : PortId) (x : Turn) (h : t.port p = s.port p) :
    SeqStep s.active (s.port p).seq p x (t.port p).seq := by
  rw [h]
  exact .same

theorem seqStep_blockTurn (s t : State) (p : PortId) (h : blockTurn s = .next t) : SeqStep s.active (s.port p).seq p .block (t.port p).seq := by
  rcases blockTurn_cases s t h with rfl | ⟨i, g, w, _, hs, rfl⟩
  · exact .same
  · by_cases hp : p = s.active
    · subst hp
      obtain ⟨cf, ff, ⟨v, e⟩ | ⟨ph, hr, e⟩⟩ := runSeg_port_same i s _ w g hs <;> rw [e]
      · exact .ended w g rfl rfl hs
      · exact .segment w g ph rfl rfl hs hr
    · exact seqStep_of_same _ _ _ _ (runSeg_port_ne i s _ p g hp)

theorem seqStep_memWrite (s : State) (p : PortId) (x : Turn) (a n : Nat) (v : Word)
    (hb : (s.port p).busy = (s.port p).seq.isRun) : SeqStep s.active (s.port p).seq p x ((s.memWrite a n v).port p).seq := by
  rcases memWrite_cases s a n v with e | e | ⟨q, e | ⟨hq, ⟨_, e⟩ | ⟨r, e⟩⟩⟩ <;> rw [e]
  · exact .same
  · exact seqStep_of_same _ _ _ _ (recordBadAccess_port _ _)
  all_goals
    by_cases hp : p = q
    · subst hp
      first
        | (rw [raiseIllegalCommand_port_same]; exact .same)
        | (rw [port_setPort_same, (storeReg_fields _ _ _).2.2.2]; exact .same)
        | (rw [issue_port_same]
           refine .issued v ?_
           cases hs : (s.port p).seq with
           | idle => rfl
           | run w ph => simp [hq, hs, Seq.isRun] at hb)
    · first
        | exact seqStep_of_same _ _ _ _ (raiseIllegalCommand_port_ne _ _ _ hp)
        | exact seqStep_of_same _ _ _ _ (issue_port_ne _ _ _ _ hp)
        | exact seqStep_of_same _ _ _ _ (port_setPort_ne _ _ _ _ hp)

theorem seqStep_input (s t : State) (p : PortId) (x : Input) (hb : (s.port p).busy = (s.port p).seq.isRun)
    (h : s.input x = .next t) : SeqStep s.active (s.port p).seq p (.input x) (t.port p).seq := by
  cases x with
  | memRead a n =>
    cases h
    exact seqStep_of_same _ _ _ _ (memRead_port_same s a n p)
  | memWrite a n v =>
    cases h
    exact seqStep_memWrite s p _ a n v hb
  | driverAnswer q tag a =>
    rcases answer_cases _ _ _ _ _ h with rfl | ⟨w, c, b, k, g, hs, hg, _, rfl⟩
    · exact .same
    · by_cases hp : p = q
      · subst hp
        rw [setPhase_port_same _ _ _ _ _ hs]
        exact .answered w tag c b k a g rfl hs (segAfter_rank_le c k a g tag b hg)
      · exact seqStep_of_same _ _ _ _ (setPhase_port_ne _ _ _ _ hp)
  | listenerAck q tag =>
    cases h
    rcases acknowledge_cases s q tag with e | ⟨w, n, v, hs, e⟩ <;> rw [e]
    · exact .same
    · by_cases hp : p = q
      · subst hp
        rw [setPhase_port_same _ _ _ _ _ hs]
        exact .acknowledged w tag n v _ rfl hs (afterSlot_rank_le n tag v)
      · exact seqStep_of_same _ _ _ _ (setPhase_port_ne _ _ _ _ hp)
  | driverStatus w =>
    cases h
    exact seqStep_of_same _ _ _ _ (writeStatus_port _ _ _)
  | callbackRead r =>
    cases h
    exact seqStep_of_same _ _ _ _ (emit_port _ _ _)
  | rst =>
    cases h
    cases p <;> exact .reset rfl

/-- All that one step of an execution can do to one port's sequencer. -/
theorem step_seq (s t : State) (p : PortId) (x : Turn) (hb : (s.port p).busy = (s.port p).seq.isRun)
    (h : step { s with schedule := [x] } = .next t) : SeqStep s.active (s.port p).seq p x (t.port p).seq := by
  cases x with
  | block => simpa only [withSchedule_active, withSchedule_port] using seqStep_blockTurn _ t p h
  | input x =>
    have h' := seqStep_input _ t p x (by simpa only [withSchedule_port] using hb) h
    simpa only [withSchedule_active, withSchedule_port] using h'

/-! ## Runs -/

theorem host_run_succ (M : Host.Core) (k : Nat) (s t : M.State) (h : M.step s = .next t) :
    M.run (k + 1) s = M.run k t := by
  rw [Host.Core.run, h]

theorem host_run_add (M : Host.Core) (a b : Nat) (s t : M.State) (h : M.run a s = .next t) :
    M.run (a + b) s = M.run b t := by
  induction a generalizing s with
  | zero =>
    rw [Host.Core.run] at h
    cases h
    simp
  | succ a ih =>
    rw [show a + 1 + b = (a + b) + 1 by omega]
    rw [Host.Core.run] at h ⊢
    split at h
    · rename_i u hu
      exact ih u h
    · cases h
    · cases h

theorem run_zero (s : State) : Sys2Proof.core.run 0 s = .next s := rfl

/-- A run of k + 1 steps is a step and a run of k. -/
theorem run_succ (k : Nat) (s t : State) (h : step s = .next t) :
    Sys2Proof.core.run (k + 1) s = Sys2Proof.core.run k t := host_run_succ Sys2Proof.core k s t h

/-- Runs compose. -/
theorem run_add (a b : Nat) (s t : State) (h : Sys2Proof.core.run a s = .next t) :
    Sys2Proof.core.run (a + b) s = Sys2Proof.core.run b t := host_run_add Sys2Proof.core a b s t h

end Sys2Proof.Machine
end

