-- ==== Sys2Proof/Laws/Inv.lean ====
section
/-! SUPPORT. Every operation of the block keeps its invariant (`State.Inv`), one operation at a time. -/

namespace Sys2Proof.Machine

theorem shown_append (q : Seq) (p : PortId) (out l : List Output) (h : q.shown p out) : q.shown p (out ++ l) := by
  unfold Seq.shown at *
  split at h
  · trivial
  · trivial
  all_goals
    rw [List.getElem?_append_left (List.getElem?_eq_some_iff.1 h).1]; exact h

theorem portInv_of_same (s t : State) (p : PortId) (hb : (t.port p).busy = (s.port p).busy) (hs : (t.port p).seq =
    (s.port p).seq)
   (hi : (t.port p).illegal = true → (s.port p).illegal = true ∨ t.faults.illegalCommand = true)
   (hf : s.faults.illegalCommand = true → t.faults.illegalCommand = true)
   (ho : ∃ l, t.out = s.out ++ l) (h : s.PortInv p) : t.PortInv p := by
  obtain ⟨h1, h2, h3, h4⟩ := h
  obtain ⟨l, ho⟩ := ho
  refine ⟨by rw [hb, hs, h1], by rw [hs, h2], by rw [hs, ho]; exact shown_append _ _ _ _ h3, fun h => ?_⟩
  rcases hi h with h | h
  · exact hf (h4 h)
  · exact h

theorem State.Inv.port (s : State) (h : s.Inv) (p : PortId) : s.PortInv p :=
    by cases p; exact h.app_inv; exact h.isr_inv

theorem State.Inv.mk' (s : State) (h1 : 1 ≤ s.params.numFilters) (h2 : s.params.numFilters ≤ 32)
    (h3 : s.cbmb.length = s.params.numFilters)
  (h4 : MaskFile.wf s.lmask = true) (h5 : MaskFile.narrow s.lmask s.params.numFilters) (h6 : ∀ p,
      s.PortInv p) : s.Inv :=
  ⟨h1, h2, h3, h4, h5, h6 .app, h6 .isr⟩

/-- The invariant carries over where the parameters, the mask file and the length of CBMB are the same and both ports
meet theirs. -/
theorem inv_of_same (s t : State) (hp : t.params = s.params) (hc : t.cbmb.length = s.cbmb.length)
    (hl : t.lmask = s.lmask)
   (h6 : ∀ p, t.PortInv p) (h : s.Inv) : t.Inv := by
  apply State.Inv.mk'
  · rw [hp]; exact h.filters_pos
  · rw [hp]; exact h.filters_le
  · rw [hp, hc]; exact h.cbmb_length
  · rw [hl]; exact h.lmask_wf
  · rw [hp, hl]; exact h.lmask_narrow
  · exact h6

theorem inv_withSchedule (s : State) (l : List Turn) (h : s.Inv) : State.Inv {s with schedule := l} := by
  refine inv_of_same s _ rfl rfl rfl (fun p => ?_) h
  exact portInv_of_same s _ p (by simp) (by simp) (by simp; tauto) (by simp) ⟨[], by simp⟩ (State.Inv.port s h p)

theorem portInv_complete (s : State) (p q : PortId) (v : Word) (h : s.PortInv q) : (s.complete p v).PortInv q := by
  by_cases hq : q = p
  · subst hq
    refine ⟨by simp [Seq.isRun], by simp [Seq.latchedFits], by simp [Seq.shown], ?_⟩
    simpa using h.illegal_recorded
  · refine portInv_of_same s _ q ?_ ?_ ?_ ?_ ⟨[], by simp⟩ h <;> simp [complete_port_ne _ _ _ _ hq]; tauto

theorem inv_complete (s : State) (p : PortId) (v : Word) (h : s.Inv) : (s.complete p v).Inv :=
  inv_of_same s _ (by simp) (by simp) (by simp) (fun q => portInv_complete s p q v (State.Inv.port s h q)) h

/-- A phase of the same command keeps the invariant. -/
theorem portInv_setPhase (s : State) (p q : PortId) (w : Word) (ph0 ph : Phase) (i : Instr) (hs :
    (s.port p).seq = .run w ph0)
   (hd : decode w = .ok i) (hf : ph.fits i = true) (hsh : Seq.shown p s.out (.run w ph)) (h : s.PortInv q) :
       (s.setPhase p ph).PortInv q := by
  by_cases hq : q = p
  · subst hq
    have e := setPhase_port_same s q w ph0 ph hs
    refine ⟨?_, ?_, ?_, ?_⟩
    · rw [e]; simp [Seq.isRun, h.busy_iff_run, hs]
    · rw [e]; simp [Seq.latchedFits, hd, hf]
    · rw [e]; simpa using hsh
    · rw [e]; simpa using h.illegal_recorded
  · refine portInv_of_same s _ q ?_ ?_ ?_ ?_ ⟨[], by simp⟩ h <;> simp [setPhase_port_ne _ _ _ _ hq]; tauto

theorem inv_setPhase (s : State) (p : PortId) (w : Word) (ph0 ph : Phase) (i : Instr) (hs :
    (s.port p).seq = .run w ph0)
   (hd : decode w = .ok i) (hf : ph.fits i = true) (hsh : Seq.shown p s.out (.run w ph)) (h : s.Inv) :
       (s.setPhase p ph).Inv :=
  inv_of_same s _ (by simp) (by simp) (by simp) (fun q => portInv_setPhase s p q w ph0 ph i hs hd hf hsh
      (State.Inv.port s h q)) h

theorem inv_emit (s : State) (o : Output) (h : s.Inv) : (s.emit o).Inv := by
  refine inv_of_same s _ rfl rfl rfl (fun p => ?_) h
  exact portInv_of_same s _ p (by simp) (by simp) (by simp; tauto) (by simp) ⟨[o], by simp⟩ (State.Inv.port s h p)

theorem inv_callDriver (s : State) (p : PortId) (w : Word) (ph0 : Phase) (i : Instr) (c : DrvCall) (k : AfterCall)
    (hs : (s.port p).seq = .run w ph0)
   (hd : decode w = .ok i) (hf : c.fits i k = true) (h : s.Inv) : (s.callDriver p c k).Inv := by
  unfold State.callDriver
  refine inv_setPhase _ p w ph0 _ i (by simpa using hs) hd hf ?_ (inv_emit _ _ h)
  simp [Seq.shown]

theorem inv_notifyListener (s : State) (p : PortId) (w : Word) (ph0 : Phase) (i : Instr) (n : Notification)
    (v : Word) (hs : (s.port p).seq = .run w ph0)
   (hd : decode w = .ok i) (hf : dispatchKind i = some (n.kind,
       n.frame.isClassic)) (h : s.Inv) : (s.notifyListener p n v).Inv := by
  unfold State.notifyListener
  refine inv_setPhase _ p w ph0 _ i (by simpa using hs) hd (by simp [Phase.fits, hf]) ?_ (inv_emit _ _ h)
  simp [Seq.shown]

/-- A port written with the same BUSY, ILLEGAL and sequencer keeps the invariant. -/
theorem inv_setPort (s : State) (p : PortId) (r : Port) (hb : r.busy = (s.port p).busy) (hs : r.seq =
    (s.port p).seq) (hi : r.illegal = (s.port p).illegal)
   (h : s.Inv) : (s.setPort p r).Inv := by
  refine inv_of_same s _ (by simp) (by simp) (by simp) (fun q => ?_) h
  by_cases hq : q = p
  · subst hq
    exact portInv_of_same s _ q (by simp [hb]) (by simp [hs]) (by simp [hi]; tauto) (by simp) ⟨[],
        by simp⟩ (State.Inv.port s h q)
  · exact portInv_of_same s _ q (by simp [port_setPort_ne _ _ _ _ hq]) (by simp [port_setPort_ne _ _ _ _ hq])
        (by simp [port_setPort_ne _ _ _ _ hq]; tauto) (by simp) ⟨[], by simp⟩ (State.Inv.port s h q)

theorem inv_withFaults (s : State) (f : FaultRecord) (hf : s.faults.illegalCommand = true →
    f.illegalCommand = true) (h : s.Inv) : State.Inv {s with faults := f} := by
  refine inv_of_same s _ rfl rfl rfl (fun p => ?_) h
  have e : State.port {s with faults := f} p = s.port p := by cases p <;> rfl
  exact portInv_of_same s _ p (by rw [e]) (by rw [e]) (by rw [e]; tauto) hf ⟨[], by simp⟩ (State.Inv.port s h p)

theorem inv_storeFrame (s : State) (p : PortId) (f : Frame) (h : s.Inv) : (s.storeFrame p f).Inv := by
  cases f
  · exact inv_setPort s p _ rfl rfl rfl h
  · exact inv_setPort s p _ rfl rfl rfl h

theorem inv_consumeFrame (s : State) (f : Frame) (h : s.Inv) : (s.consumeFrame f).Inv := inv_withFaults s _
    (by simp) h

theorem inv_raiseIllegalCommand (s : State) (p : PortId) (h : s.Inv) : (s.raiseIllegalCommand p).Inv := by
  refine inv_of_same s _ (by simp [State.raiseIllegalCommand, State.recordIllegalCommand])
      (by simp [State.raiseIllegalCommand, State.recordIllegalCommand]) (by simp [State.raiseIllegalCommand,
      State.recordIllegalCommand]) (fun q => ?_) h
  have hf : (s.raiseIllegalCommand p).faults.illegalCommand = true := rfl
  by_cases hq : q = p
  · subst hq
    exact portInv_of_same s _ q (by simp) (by simp) (fun _ => .inr hf) (fun _ => hf) ⟨[],
        by simp [State.raiseIllegalCommand, State.recordIllegalCommand]⟩ (State.Inv.port s h q)
  · exact portInv_of_same s _ q (by rw [raiseIllegalCommand_port_ne _ _ _ hq])
        (by rw [raiseIllegalCommand_port_ne _ _ _ hq]) (fun _ => .inr hf) (fun _ => hf) ⟨[],
        by simp [State.raiseIllegalCommand, State.recordIllegalCommand]⟩ (State.Inv.port s h q)

theorem inv_issue (s : State) (p : PortId) (w : Word) (hl : isLegal w = true) (h : s.Inv) : (s.issue p w).Inv := by
  refine inv_of_same s _ (by simp) (by simp) (by simp) (fun q => ?_) h
  by_cases hq : q = p
  · subst hq
    refine ⟨by simp [Seq.isRun], ?_, by simp [Seq.shown], ?_⟩
    · simp [Seq.latchedFits]
      unfold isLegal at hl
      split at hl
      · rename_i i hi; simp [hi, Phase.fits, Seg.fits]
      · cases hl
    · simpa using (State.Inv.port s h q).illegal_recorded
  · exact portInv_of_same s _ q (by rw [issue_port_ne _ _ _ _ hq]) (by rw [issue_port_ne _ _ _ _ hq])
        (by rw [issue_port_ne _ _ _ _ hq]; tauto) (by simp) ⟨[], by simp⟩ (State.Inv.port s h q)

theorem inv_setSlot (s : State) (i : Fin 4) (v : Word) (h : s.Inv) : (s.setSlot i v).Inv := by
  refine inv_of_same s _ rfl rfl rfl (fun p => ?_) h
  have e : State.port (s.setSlot i v) p = s.port p := by cases p <;> rfl
  exact portInv_of_same s _ p (by rw [e]) (by rw [e]) (by rw [e]; tauto) (fun h => h) ⟨[],
      by simp⟩ (State.Inv.port s h p)

theorem inv_setMask (s : State) (hd : Word) (m : Mask) (h0 : hd ≠ 0) (hm : m.toNat < 2 ^
    (s.params.numFilters + 1)) (h : s.Inv) : (s.setMask hd m).Inv := by
  refine State.Inv.mk' _ h.filters_pos h.filters_le h.cbmb_length (wf_set _ _ _ h0 h.lmask_wf) ?_ ?_
  · exact forall_set s.lmask hd m (fun m => m.toNat < 2 ^ (s.params.numFilters + 1)) hm h.lmask_narrow
  · intro p
    have e : State.port (s.setMask hd m) p = s.port p := by cases p <;> rfl
    exact portInv_of_same s _ p (by rw [e]) (by rw [e]) (by rw [e]; tauto) (fun h => h) ⟨[],
        by simp⟩ (State.Inv.port s h p)

theorem inv_setCallback (s : State) (n : Nat) (v : Word) (h : s.Inv) : (s.setCallback n v).Inv := by
  unfold State.setCallback; split
  · refine inv_of_same s _ rfl (by simp) rfl (fun p => ?_) h
    have e : State.port { s with cbmb := s.cbmb.set n v } p = s.port p := by cases p <;> rfl
    exact portInv_of_same s _ p (by rw [e]) (by rw [e]) (by rw [e]; tauto) (fun h => h) ⟨[],
        by simp⟩ (State.Inv.port s h p)
  · exact h

theorem inv_withCbgen (s : State) (v : Word) (h : s.Inv) : State.Inv {s with cbgen := v} := by
  refine inv_of_same s _ rfl (by simp) rfl (fun p => ?_) h
  have e : State.port { s with cbgen := v } p = s.port p := by cases p <;> rfl
  exact portInv_of_same s _ p (by rw [e]) (by rw [e]) (by rw [e]; tauto) (fun h => h) ⟨[],
      by simp⟩ (State.Inv.port s h p)

theorem inv_updateMask (s : State) (p : PortId) (f : Mask → Mask) (hf : ∀ m : Mask,
    m.toNat < 2 ^ (s.params.numFilters + 1) → (f m).toNat < 2 ^ (s.params.numFilters + 1)) (h : s.Inv) :
   (s.updateMask p f).Inv := by
  unfold State.updateMask; simp only; split
  · exact inv_complete _ _ _ h
  · rename_i h0
    refine inv_complete _ _ _ (inv_setMask _ _ _ h0 (hf _ ?_) h)
    exact get_cases s.lmask _ (fun m => m.toNat < 2 ^ (s.params.numFilters + 1)) (by simp) h.lmask_narrow

theorem inv_firstSegment (s : State) (p : PortId) (w : Word) (ph0 : Phase) (i : Instr) (hs :
    (s.port p).seq = .run w ph0)
   (hd : decode w = .ok i) (h : s.Inv) : (firstSegment i s p).Inv := by
  have hle := h.filters_le
  have hsc : ∀ f, ((s.consumeFrame f).port p).seq = .run w ph0 := by intro f; simpa using hs
  cases i <;> simp only [firstSegment]
  all_goals (repeat' split)
  all_goals first
    | exact inv_complete _ _ _ h
    | exact inv_callDriver _ _ w ph0 _ _ _ hs hd rfl h
    | exact inv_callDriver _ _ w ph0 _ _ _ (hsc _) hd rfl (inv_consumeFrame _ _ h)
    | exact inv_updateMask _ _ _ (fun m hm => maskSetBit_narrow _ _ _ (by omega) hle hm) h
    | exact inv_updateMask _ _ _ (fun m hm => maskClearBit_narrow _ _ _ (by omega) hle hm) h
    | exact inv_complete _ _ _ (inv_setCallback _ _ _ h)
    | exact inv_complete _ _ _ (inv_withCbgen _ _ h)
    | exact inv_complete _ _ _ (inv_storeFrame _ _ _ (inv_consumeFrame _ _ h))
    | exact inv_complete _ _ _ (inv_consumeFrame _ _ h)
    | exact inv_complete _ _ _ (inv_setSlot _ _ _ h)
    | exact inv_complete _ _ _ (inv_setMask _ _ _ (by assumption) (by simp) (inv_setSlot _ _ _ h))

theorem inv_runSeg (s : State) (p : PortId) (w : Word) (g : Seg) (i : Instr) (hs : (s.port p).seq = .run w (.ready g))
   (hd : decode w = .ok i) (h : s.Inv) : (s.runSeg p (firstSegment i s p) g).Inv := by
  have hfit : g.fits i = true := by
    have := (State.Inv.port s h p).latched_fits
    simpa [hs, Seq.latchedFits, hd, Phase.fits] using this
  cases g with
  | first => exact inv_firstSegment s p w _ i hs hd h
  | secondInstall s1 =>
    have : i = .watchAll := by simpa [Seg.fits] using hfit
    subst this
    exact inv_callDriver _ _ w _ _ _ _ hs hd rfl h
  | sent f ok =>
    simp only [State.runSeg, State.afterSend]
    split
    · exact inv_setPhase _ _ w _ _ i hs hd hfit trivial h
    · exact inv_complete _ _ _ h
  | received n f =>
    simp only [State.runSeg, State.afterReceive]
    split
    · exact inv_complete _ _ _ (inv_storeFrame _ _ _ h)
    · exact inv_setPhase _ _ w (.ready (.received n f)) _ i (by simp [storeFrame_port_seq,
          hs]) hd hfit trivial (inv_consumeFrame _ _ (inv_storeFrame _ _ _ h))
  | slot k f j v =>
    simp only [State.runSeg, State.slotSegment]
    split
    · refine inv_setPhase _ _ w _ _ i hs hd ?_ trivial h
      simp only [Seg.fits, beq_iff_eq] at hfit
      simp only [Phase.fits, Seg.afterSlot]
      split <;> simp [Seg.fits, hfit]
    · refine inv_notifyListener _ _ w _ i _ _ hs hd ?_ h
      simpa [Seg.fits] using hfit
  | finish v => exact inv_complete _ _ _ h

theorem inv_memWrite (s : State) (a n : Nat) (v : Word) (h : s.Inv) : (s.memWrite a n v).Inv := by
  rcases memWrite_cases s a n v with e | e | ⟨p, e | ⟨hb, ⟨hl, e⟩ | ⟨r, e⟩⟩⟩ <;> rw [e]
  · exact h
  · exact inv_withFaults s _ (by simp) h
  · exact inv_raiseIllegalCommand _ _ h
  · exact inv_issue _ _ _ hl h
  · obtain ⟨h1, h2, h3, h4⟩ := storeReg_fields (s.port p) r v
    exact inv_setPort _ _ _ h2 h4 h3 h

theorem inv_memRead (s : State) (a n : Nat) (h : s.Inv) : (s.memRead a n).Inv := by
  rcases memRead_cases s a n with e | ⟨v, e⟩ | e <;> rw [e]
  · exact h
  · exact inv_emit _ _ h
  · exact inv_emit _ _ (inv_withFaults s _ (by simp) h)

theorem inv_writeStatus (s : State) (x : StatusWrite) (h : s.Inv) : (s.writeStatus x).Inv := by
  refine inv_of_same s _ (by simp) (by cases x <;> rfl) (by simp) (fun p => ?_) h
  exact portInv_of_same s _ p (by simp) (by simp) (by simp; tauto) (by simp) ⟨[], by simp⟩ (State.Inv.port s h p)

theorem inv_answer (s t : State) (p : PortId) (tag : Nat) (a : DrvAnswer) (h : s.Inv)
    (ht : s.answer p tag a = .next t) : t.Inv := by
  unfold State.answer at ht
  split at ht
  · rename_i w t0 c fd k hs
    split at ht
    · split at ht
      · rename_i g hg
        split at ht
        · cases ht
          have hl := (State.Inv.port s h p).latched_fits
          simp only [hs, Seq.latchedFits] at hl
          split at hl
          · rename_i i hd
            refine inv_setPhase _ _ w _ _ i hs hd ?_ trivial h
            simp only [Phase.fits] at hl ⊢
            unfold DrvCall.segAfter at hg
            cases c <;> cases a <;> simp at hg <;> (try (cases k)) <;> (try simp at hg) <;> subst hg <;>
              simp_all [DrvCall.fits, Seg.fits, dispatchKind, Frame.isClassic]
          · cases hl
        · cases ht
      · cases ht
    · cases ht; exact h
  · cases ht; exact h
  · cases ht; exact h
  · cases ht; exact h

theorem inv_acknowledge (s : State) (p : PortId) (tag : Nat) (h : s.Inv) : (s.acknowledge p tag).Inv := by
  unfold State.acknowledge
  split
  · rename_i w t0 n v hs
    split
    · have hl := (State.Inv.port s h p).latched_fits
      simp only [hs, Seq.latchedFits] at hl
      split at hl
      · rename_i i hd
        refine inv_setPhase _ _ w _ _ i hs hd ?_ trivial h
        simp only [Phase.fits, beq_iff_eq, Seg.afterSlot] at hl ⊢
        split <;> simp [Seg.fits, hl]
      · cases hl
    · exact h
  · exact h
  · exact h
  · exact h

theorem inv_rst (s : State) (h : s.Inv) : s.rst.Inv := by
  refine State.Inv.mk' _ h.filters_pos h.filters_le (by simp [State.rst, State.resetWith]) (by simp [State.rst,
      State.resetWith, MaskFile.wf, MaskFile.rising]) (by simp [MaskFile.narrow, State.rst, State.resetWith]) ?_
  intro p
  refine ⟨by simp [Port.reset, Seq.isRun], by simp [Port.reset, Seq.latchedFits],by simp [Port.reset,
      Seq.shown],by simp [Port.reset]⟩

end Sys2Proof.Machine
end

