-- ==== Sys2Proof/Laws/Payload.lean ====
section
/-! SUPPORT. The bytes of a payload seen through its views (20_memory.md R63 to R65). -/

namespace Sys2Proof.Machine

theorem payloadByte_eq {n : Nat} (d : Vector Byte n) (j : Nat) (h : j < n) : payloadByte d j = d[j] := by
  simp [payloadByte, Vector.getD, h]

@[simp] theorem getElem_setDataWord {n : Nat} (d : Vector Byte n) (k : Nat) (v : Word) (j : Nat) (h : j < n) :
    (setDataWord d k v)[j] = if j / 4 = k then byteOf v (j % 4) else d[j] := by
  simp [setDataWord]

theorem byteOf_leWord (b : Fin 4 → Byte) (j : Fin 4) : byteOf (leWord (b 0) (b 1) (b 2) (b 3)) j.val = b j := by
  apply BitVec.eq_of_getLsbD_eq
  intro i hi
  simp only [byteOf, leWord, BitVec.getLsbD_extractLsb', BitVec.getLsbD_append, hi]
  fin_cases j
  · simp [hi]
  · have h : ¬ (8 + i < 8) := by omega
    simp [hi, show 8 + i - 8 = i by omega]
  · simp [hi, show ¬ (16 + i < 8) by omega, show ¬ (16 + i - 8 < 8) by omega, show 16 + i - 8 - 8 = i by omega]
  · simp [hi, show ¬ (24 + i < 8) by omega, show ¬ (24 + i - 8 < 8) by omega, show ¬ (24 + i - 8 - 8 < 8) by omega,
      show 24 + i - 8 - 8 - 8 = i by omega]

/-- A word is its four bytes. -/
theorem leWord_byteOf (v : Word) : leWord (byteOf v 0) (byteOf v 1) (byteOf v 2) (byteOf v 3) = v := by
  apply BitVec.eq_of_getLsbD_eq
  intro i hi
  simp only [byteOf, leWord, BitVec.getLsbD_extractLsb', BitVec.getLsbD_append]
  by_cases h0 : i < 8
  · simp [h0]
  · by_cases h1 : i - 8 < 8
    · simp [h0, h1, show 8 + (i - 8) = i by omega]
    · by_cases h2 : i - 8 - 8 < 8
      · simp [h0, h1, h2, show 16 + (i - 8 - 8) = i by omega]
      · simp [h0, h1, h2, show i - 8 - 8 - 8 < 8 by omega, show 24 + (i - 8 - 8 - 8) = i by omega]

/-- A data word read after it is written. -/
theorem dataWord_setDataWord_same {n : Nat} (d : Vector Byte n) (k : Nat) (v : Word) (h : 4 * k + 3 < n) :
    dataWord (setDataWord d k v) k = v := by
  unfold dataWord
  rw [payloadByte_eq _ _ (by omega), payloadByte_eq _ _ (by omega), payloadByte_eq _ _ (by omega),
    payloadByte_eq _ _ (by omega)]
  simp only [getElem_setDataWord]
  rw [if_pos (by omega), if_pos (by omega), if_pos (by omega), if_pos (by omega)]
  rw [show 4 * k % 4 = 0 by omega, show (4 * k + 1) % 4 = 1 by omega, show (4 * k + 2) % 4 = 2 by omega,
    show (4 * k + 3) % 4 = 3 by omega]
  exact leWord_byteOf v

/-- Another data word is as before. -/
theorem dataWord_setDataWord_ne {n : Nat} (d : Vector Byte n) (k k' : Nat) (v : Word) (h : 4 * k' + 3 < n)
    (hk : k' ≠ k) : dataWord (setDataWord d k v) k' = dataWord d k' := by
  unfold dataWord
  rw [payloadByte_eq _ _ (by omega), payloadByte_eq _ _ (by omega), payloadByte_eq _ _ (by omega),
    payloadByte_eq _ _ (by omega), payloadByte_eq d _ (by omega), payloadByte_eq d _ (by omega),
    payloadByte_eq d _ (by omega), payloadByte_eq d _ (by omega)]
  simp only [getElem_setDataWord]
  rw [if_neg (by omega), if_neg (by omega), if_neg (by omega), if_neg (by omega)]

/-- Byte `j` of data word `k` (R63). -/
theorem byteOf_dataWord {n : Nat} (d : Vector Byte n) (k : Nat) (j : Fin 4) (h : 4 * k + 3 < n) :
    byteOf (dataWord d k) j.val = d[4 * k + j.val]'(by omega) := by
  have h' := byteOf_leWord (fun i => payloadByte d (4 * k + i.val)) j
  rw [← payloadByte_eq d (4 * k + j.val) (by omega)]
  exact h'

end Sys2Proof.Machine
end

