-- ==== Sys2Proof/Laws/PerInstr.lean ====
section
/-! SUPPORT. Per command: the OP field of its encoding is its opcode of the map (30_encoding.md R84, R88). -/

namespace Sys2Proof.Laws.EncodeOpcode

/-- The OP field of the encoded command is the command's opcode, and its RSV field is 0. -/
def Statement (i : Instr) : Prop := opField (encode i) = i.opcode ∧ rsvField (encode i) = 0

theorem watchAll : Statement .watchAll := ⟨opField_encode _, rsvField_encode _⟩
theorem watchId : Statement .watchId := ⟨opField_encode _, rsvField_encode _⟩
theorem watchIdMask : Statement .watchIdMask := ⟨opField_encode _, rsvField_encode _⟩
theorem watchRange : Statement .watchRange := ⟨opField_encode _, rsvField_encode _⟩
theorem setFilter (x : Bool) : Statement (.setFilter x) := ⟨opField_encode _, rsvField_encode _⟩
theorem setFilterMb (n : Nat) (x : Bool) : Statement (.setFilterMb n x) := ⟨opField_encode _, rsvField_encode _⟩
theorem lAttach : Statement .lAttach := ⟨opField_encode _, rsvField_encode _⟩
theorem lDetach : Statement .lDetach := ⟨opField_encode _, rsvField_encode _⟩
theorem lMbOn (n : Nat) : Statement (.lMbOn n) := ⟨opField_encode _, rsvField_encode _⟩
theorem lMbOff (n : Nat) : Statement (.lMbOff n) := ⟨opField_encode _, rsvField_encode _⟩
theorem lGenOn : Statement .lGenOn := ⟨opField_encode _, rsvField_encode _⟩
theorem lGenOff : Statement .lGenOff := ⟨opField_encode _, rsvField_encode _⟩
theorem lActive (n : Nat) : Statement (.lActive n) := ⟨opField_encode _, rsvField_encode _⟩
theorem send : Statement .send := ⟨opField_encode _, rsvField_encode _⟩
theorem sendFd : Statement .sendFd := ⟨opField_encode _, rsvField_encode _⟩
theorem recv : Statement .recv := ⟨opField_encode _, rsvField_encode _⟩
theorem recvFd : Statement .recvFd := ⟨opField_encode _, rsvField_encode _⟩
theorem cbSet (n : Nat) : Statement (.cbSet n) := ⟨opField_encode _, rsvField_encode _⟩
theorem cbClr (n : Nat) : Statement (.cbClr n) := ⟨opField_encode _, rsvField_encode _⟩
theorem cbGSet : Statement .cbGSet := ⟨opField_encode _, rsvField_encode _⟩
theorem cbGClr : Statement .cbGClr := ⟨opField_encode _, rsvField_encode _⟩
theorem c2fd : Statement .c2fd := ⟨opField_encode _, rsvField_encode _⟩
theorem fd2c : Statement .fd2c := ⟨opField_encode _, rsvField_encode _⟩
theorem qFault : Statement .qFault := ⟨opField_encode _, rsvField_encode _⟩
theorem qRxFault : Statement .qRxFault := ⟨opField_encode _, rsvField_encode _⟩
theorem qTxFault : Statement .qTxFault := ⟨opField_encode _, rsvField_encode _⟩
theorem qFdCap : Statement .qFdCap := ⟨opField_encode _, rsvField_encode _⟩

end Sys2Proof.Laws.EncodeOpcode
end

