-- ==== Sys2Proof/Laws/Range.lean ====
section
/-! SUPPORT. WATCH_RANGE's loop (40_filter_synthesizer.md R106) bit by bit, and its closed form (R107), which gives the same
id and mask. -/

namespace Sys2Proof.Machine

theorem getLsbD_extMask (j : Nat) : (Config.extMask).getLsbD j = decide (j < 29) := by
  by_cases h : j < 32
  · revert h; revert j; decide
  · rw [BitVec.getLsbD_of_ge _ _ (by omega)]; simp; omega

theorem getLsbD_ofNat_word (c j : Nat) (hj : j < 32) : (BitVec.ofNat 32 c).getLsbD j = c.testBit j := by
  rw [BitVec.getLsbD_ofNat]; simp [hj]

/-- The top bit of a number below 2^(L+1). -/
theorem testBit_top (x L : Nat) (h : x < 2^(L+1)) : x.testBit L = decide (2^L ≤ x) := by
  by_cases hx : 2^L ≤ x
  · have h1 := Nat.testBit_two_pow_add_eq (x - 2^L) L
    rw [show 2^L + (x - 2^L) = x by omega] at h1
    rw [Nat.testBit_lt_two_pow (x := x - 2^L) (by rw [pow_succ] at h; omega)] at h1
    simpa [hx] using h1
  · simp [hx]; exact Nat.testBit_lt_two_pow (by omega)

/-- Bit `j` of the synthesized id is set when it is set in the start value and in every integer of the loop. -/
theorem getLsbD_rangeLoop_id (lo : Word) (m c : Nat) (acc : Word × Word) (j : Nat) (hj : j < 32) :
    (rangeLoop lo m c acc).1.getLsbD j = true ↔ acc.1.getLsbD j = true ∧ ∀ k, k < m → (c + k).testBit j = true := by
  induction m generalizing c acc with
  | zero => simp [rangeLoop]
  | succ m ih =>
    simp only [rangeLoop, ih, rangeIter, BitVec.getLsbD_and, Bool.and_eq_true, getLsbD_ofNat_word _ _ hj]
    constructor
    · rintro ⟨⟨h1, h2⟩, h3⟩
      refine ⟨h1, fun k hk => ?_⟩
      cases k with
      | zero => simpa using h2
      | succ k => have := h3 k (by omega); rwa [show c + 1 + k = c + (k + 1) by omega] at this
    · rintro ⟨h1, h2⟩
      refine ⟨⟨h1, by simpa using h2 0 (by omega)⟩, fun k hk => ?_⟩
      have := h2 (k+1) (by omega); rwa [show c + 1 + k = c + (k + 1) by omega]

/-- Bit `j` of the synthesized mask is set when it is set in the start value, lies within EXT_MASK, and every integer of the
loop has the bit that lo has. -/
theorem getLsbD_rangeLoop_mask (lo : Word) (m c : Nat) (acc : Word × Word) (j : Nat) (hj : j < 32) (hm : 0 < m):
    (rangeLoop lo m c acc).2.getLsbD j = true ↔ acc.2.getLsbD j = true ∧ j < 29 ∧ ∀ k,
        k < m → (c + k).testBit j = lo.getLsbD j := by
  have key : ∀ m c acc, (rangeLoop lo m c acc).2.getLsbD j = true ↔ acc.2.getLsbD j = true ∧ ∀ k,
      k < m → j < 29 ∧ (c + k).testBit j = lo.getLsbD j := by
    intro m
    induction m with
    | zero => intro c acc; simp [rangeLoop]
    | succ m ih =>
      intro c acc
      simp only [rangeLoop, ih, rangeIter, BitVec.getLsbD_and, Bool.and_eq_true, BitVec.getLsbD_not,
          BitVec.getLsbD_xor, getLsbD_ofNat_word _ _ hj, getLsbD_extMask, hj]
      have hx : (decide True && !(lo.getLsbD j ^^ c.testBit j)) = true ↔ c.testBit j = lo.getLsbD j := by
        cases lo.getLsbD j <;> cases c.testBit j <;> simp
      have hx' : (True ∧ (!(lo.getLsbD j ^^ c.testBit j)) = true) ↔ c.testBit j = lo.getLsbD j := by
        cases lo.getLsbD j <;> cases c.testBit j <;> simp
      simp only [decide_eq_true_eq, hx']
      constructor
      · rintro ⟨⟨h1, h2, h2'⟩, h3⟩
        refine ⟨h1, fun k hk => ?_⟩
        cases k with
        | zero => exact ⟨h2', h2⟩
        | succ k => have := h3 k (by omega); rwa [show c + 1 + k = c + (k + 1) by omega] at this
      · rintro ⟨h1, h2⟩
        refine ⟨⟨h1, (h2 0 (by omega)).2, (h2 0 (by omega)).1⟩, fun k hk => ?_⟩
        have := h2 (k+1) (by omega); rwa [show c + 1 + k = c + (k + 1) by omega]
  rw [key]
  constructor
  · rintro ⟨h1, h2⟩; exact ⟨h1, (h2 0 hm).1, fun k hk => (h2 k hk).2⟩
  · rintro ⟨h1, h2, h3⟩; exact ⟨h1, fun k hk => ⟨h2, h3 k hk⟩⟩

/-- The closed form's prefix mask has the bits from `L` on (R107). -/
theorem getLsbD_prefixMask (L j : Nat) (hL : L ≤ 32) (hj : j < 32) : (~~~((1#32 <<< L) - 1#32)).getLsbD j = decide
    (L ≤ j) := by
  rcases Nat.lt_or_ge L 32 with h | h
  · have : (1#32 <<< L) - 1#32 = BitVec.ofNat 32 (2^L - 1) := by
      apply BitVec.eq_of_toNat_eq
      have h2 : 2 ^ L < 2 ^ 32 := Nat.pow_lt_pow_right (by omega) h
      have h3 : 0 < 2 ^ L := Nat.two_pow_pos L
      simp [BitVec.toNat_sub, Nat.shiftLeft_eq]
      omega
    rw [this, BitVec.getLsbD_not, getLsbD_ofNat_word _ _ hj, Nat.testBit_two_pow_sub_one]
    simp only [hj, decide_true, Bool.true_and]
    by_cases hh : j < L
    · simp [hh]
    · simp [hh]; omega
  · have : L = 32 := by omega
    subst this
    have : (~~~((1#32 <<< 32) - 1#32)) = 0#32 := by decide
    rw [this]; simp; omega

theorem bitLength_le (d : Word) : bitLength d ≤ 32 := by
  unfold bitLength; split
  · omega
  · rename_i h
    have : d.toNat ≠ 0 := fun hc => h (BitVec.eq_of_toNat_eq (by simpa using hc))
    have := (Nat.log2_lt this (k := 32)).2 d.isLt
    omega

theorem seed_within_extMask (v : Word) (j : Nat) (h : (seed v).getLsbD j = true) : j < 29 := by
  unfold seed at h; split at h
  · by_contra hc
    by_cases h32 : j < 32
    · have : ∀ j, j < 32 → ¬ j < 29 → (Config.stdMask).getLsbD j = false := by decide
      rw [this j h32 hc] at h; cases h
    · rw [BitVec.getLsbD_of_ge _ _ (by omega)] at h; cases h
  · rw [getLsbD_extMask] at h; simpa using h

/-- From the bit length of `lo ^ hi` on, lo and hi agree. -/
theorem getLsbD_eq_above (lo hi : Word) (j : Nat) (h : bitLength (lo ^^^ hi) ≤ j) : lo.getLsbD j = hi.getLsbD j := by
  have : (lo ^^^ hi).getLsbD j = false := by
    unfold bitLength at h
    split at h
    · rename_i h0; rw [h0]; simp
    · rw [BitVec.getLsbD]
      apply Nat.testBit_lt_two_pow
      have := Nat.lt_log2_self (n := (lo ^^^ hi).toNat)
      exact lt_of_lt_of_le this (Nat.pow_le_pow_right (by omega) h)
  rw [BitVec.getLsbD_xor] at this
  cases h1 : lo.getLsbD j <;> cases h2 : hi.getLsbD j <;> simp_all

/-- lo and hi lie on the two sides of a multiple of 2^L, within one block of 2^(L+1), where L + 1 is the bit length of
`lo ^ hi`. -/
theorem range_split (lo hi : Word) (hne : lo ^^^ hi ≠ 0) (hle : lo.toNat ≤ hi.toNat) :
   ∃ H, ∃ L, bitLength (lo ^^^ hi) = L + 1 ∧
     H * 2^(L+1) ≤ lo.toNat ∧ lo.toNat < H * 2^(L+1) + 2^L ∧ H * 2^(L+1) + 2^L ≤ hi.toNat ∧ hi.toNat <
         (H+1) * 2^(L+1) := by
  have hd0 : (lo ^^^ hi).toNat ≠ 0 := fun hc => hne (BitVec.eq_of_toNat_eq (by simpa using hc))
  refine ⟨lo.toNat / 2^((lo ^^^ hi).toNat.log2 + 1), (lo ^^^ hi).toNat.log2, ?_, ?_⟩
  · unfold bitLength; rw [if_neg hne]
  · have hL : bitLength (lo ^^^ hi) = (lo ^^^ hi).toNat.log2 + 1 := by unfold bitLength; rw [if_neg hne]
    generalize hl : (lo ^^^ hi).toNat.log2 = L at *
    have hdiv : lo.toNat / 2^(L+1) = hi.toNat / 2^(L+1) := by
      apply Nat.eq_of_testBit_eq
      intro i
      simp only [Nat.testBit_div_two_pow]
      rw [Nat.add_comm i]; exact getLsbD_eq_above lo hi (L + 1 + i) (by omega)
    have htop : (lo ^^^ hi).toNat.testBit L = true := by
      rw [← hl]; exact Nat.testBit_log2 hd0
    have hxor : (lo.toNat.testBit L ^^ hi.toNat.testBit L) = true := by
      simpa [BitVec.toNat_xor, Nat.testBit_xor] using htop
    have e1 := Nat.div_add_mod lo.toNat (2^(L+1))
    have e2 := Nat.div_add_mod hi.toNat (2^(L+1))
    have hlt1 := Nat.mod_lt lo.toNat (Nat.two_pow_pos (L+1))
    have hlt2 := Nat.mod_lt hi.toNat (Nat.two_pow_pos (L+1))
    have b1 : lo.toNat.testBit L = decide (2^L ≤ lo.toNat % 2^(L+1)) := by
      have : lo.toNat.testBit L = (lo.toNat % 2^(L+1)).testBit L := by simp [Nat.testBit_mod_two_pow]
      rw [this, testBit_top _ _ hlt1]
    have b2 : hi.toNat.testBit L = decide (2^L ≤ hi.toNat % 2^(L+1)) := by
      have : hi.toNat.testBit L = (hi.toNat % 2^(L+1)).testBit L := by simp [Nat.testBit_mod_two_pow]
      rw [this, testBit_top _ _ hlt2]
    rw [b1, b2] at hxor
    have hpow : 2^(L+1) = 2^L + 2^L := by rw [pow_succ]; omega
    rw [← hdiv] at e2
    rw [Nat.mul_comm] at e1 e2
    rw [Nat.add_mul, Nat.one_mul]
    have : ¬ (2^L ≤ lo.toNat % 2^(L+1)) ∧ 2^L ≤ hi.toNat % 2^(L+1) := by
      by_cases h1 : 2^L ≤ lo.toNat % 2^(L+1) <;> by_cases h2 : 2^L ≤ hi.toNat % 2^(L+1) <;> simp [h1, h2] at hxor ⊢
      omega
    omega

/-- The loop and the closed form give the same id and mask (R107). -/
theorem rangeByLoop_eq_rangeClosed (lo hi : Word) (hle : lo.toNat ≤ hi.toNat) : rangeByLoop lo hi = rangeClosed lo
    hi := by
  unfold rangeByLoop rangeClosed
  have hm : hi.toNat - lo.toNat + 1 > 0 := by omega
  by_cases hd : lo ^^^ hi = 0
  · have : lo = hi := by
      apply BitVec.eq_of_getLsbD_eq; intro j hj
      exact getLsbD_eq_above lo hi j (by simp [bitLength, hd])
    subst this
    simp only [hd, if_true]
    have h1 : lo.toNat - lo.toNat + 1 = 1 := by omega
    rw [h1]
    simp only [rangeLoop, rangeIter, BitVec.ofNat_toNat, BitVec.setWidth_eq, BitVec.and_self, BitVec.xor_self]
    congr 1
    apply BitVec.eq_of_getLsbD_eq; intro j hj
    rw [Bool.eq_iff_iff]
    simp only [BitVec.getLsbD_and, BitVec.getLsbD_not, getLsbD_extMask, hj]
    simp
    exact seed_within_extMask lo j
  · simp only [hd, if_false]
    obtain ⟨H, L, hL, a1, a2, a3, a4⟩ := range_split lo hi hd hle
    have hL32 := bitLength_le (lo ^^^ hi)
    rw [hL] at hL32
    have hhigh : ∀ j, L + 1 ≤ j → ∀ c, lo.toNat ≤ c → c ≤ hi.toNat → c.testBit j = lo.getLsbD j := by
      intro j hj c h1 h2
      have e : c / 2^(L+1) = lo.toNat / 2^(L+1) := by
        have hx : c / 2^(L+1) = H := Nat.div_eq_of_lt_le (by omega) (by omega)
        have hy : lo.toNat / 2^(L+1) = H := Nat.div_eq_of_lt_le (by omega) (by omega)
        omega
      have := congrArg (fun n => n.testBit (j - (L+1))) e
      simp only [Nat.testBit_div_two_pow] at this
      rw [show j - (L+1) + (L + 1) = j by omega] at this
      exact this
    have hlow : ∀ j, j < L + 1 → ∃ c c', lo.toNat ≤ c ∧ c ≤ hi.toNat ∧ lo.toNat ≤ c' ∧ c' ≤ hi.toNat ∧
        c.testBit j = false ∧ c'.testBit j = true := by
      intro j hj
      have hp := Nat.two_pow_pos L
      by_cases hjL : j = L
      · subst hjL
        refine ⟨H * 2^(j+1) + 2^j - 1, H * 2^(j+1) + 2^j, by omega, by omega, by omega, by omega, ?_, ?_⟩
        · rw [show H * 2^(j+1) + 2^j - 1 = 2^(j+1) * H + (2^j - 1) by rw [Nat.mul_comm]; omega]
          rw [Nat.testBit_two_pow_mul_add _ (by rw [pow_succ]; omega)]
          simp [Nat.testBit_two_pow_sub_one]
        · rw [show H * 2^(j+1) + 2^j = 2^(j+1) * H + (2^j) by rw [Nat.mul_comm]]
          rw [Nat.testBit_two_pow_mul_add _ (by rw [pow_succ]; omega)]
          simp
      · refine ⟨H * 2^(L+1) + 2^L, H * 2^(L+1) + 2^L - 1, by omega, by omega, by omega, by omega, ?_, ?_⟩
        · rw [show H * 2^(L+1) + 2^L = 2^(L+1) * H + (2^L) by rw [Nat.mul_comm]]
          rw [Nat.testBit_two_pow_mul_add _ (by rw [pow_succ]; omega)]
          simp [hj]; rw [Nat.testBit_two_pow]; simp; omega
        · rw [show H * 2^(L+1) + 2^L - 1 = 2^(L+1) * H + (2^L - 1) by rw [Nat.mul_comm]; omega]
          rw [Nat.testBit_two_pow_mul_add _ (by rw [pow_succ]; omega)]
          rw [Nat.testBit_two_pow_sub_one]; have : j < L := by omega
          simp [this, hj]
    rw [Prod.ext_iff]
    constructor
    · apply BitVec.eq_of_getLsbD_eq; intro j hj
      rw [Bool.eq_iff_iff, getLsbD_rangeLoop_id _ _ _ _ _ hj, BitVec.getLsbD_and, Bool.and_eq_true, hL,
          getLsbD_prefixMask _ _ hL32 hj, decide_eq_true_eq]
      constructor
      · rintro ⟨h1, h2⟩
        refine ⟨h1, ?_⟩
        by_contra hc
        obtain ⟨c, c', b1, b2, _, _, b3, _⟩ := hlow j (by omega)
        have := h2 (c - lo.toNat) (by omega)
        rw [show lo.toNat + (c - lo.toNat) = c by omega, b3] at this; cases this
      · rintro ⟨h1, h2⟩
        exact ⟨h1, fun k hk => by rw [hhigh j h2 _ (by omega) (by omega), h1]⟩
    · apply BitVec.eq_of_getLsbD_eq; intro j hj
      rw [Bool.eq_iff_iff, getLsbD_rangeLoop_mask _ _ _ _ _ hj hm]
      simp only [BitVec.getLsbD_and, Bool.and_eq_true, hL, getLsbD_prefixMask _ _ hL32 hj, decide_eq_true_eq,
          getLsbD_extMask]
      constructor
      · rintro ⟨h1, h2, h3⟩
        refine ⟨⟨h1, ?_⟩, h2⟩
        by_contra hc
        obtain ⟨c, c', b1, b2, b3, b4, b5, b6⟩ := hlow j (by omega)
        have e1 := h3 (c - lo.toNat) (by omega)
        have e2 := h3 (c' - lo.toNat) (by omega)
        rw [show lo.toNat + (c - lo.toNat) = c by omega, b5] at e1
        rw [show lo.toNat + (c' - lo.toNat) = c' by omega, b6] at e2
        rw [← e1] at e2; cases e2
      · rintro ⟨⟨h1, h2⟩, h3⟩
        exact ⟨h1, h3, fun k hk => hhigh j h2 _ (by omega) (by omega)⟩

/-- WATCH_RANGE's id and mask are those of the loop over the ordered operands (R106). -/
theorem rangeFilter_eq_loop (a b : Word) :
    rangeFilter a b = if b.toNat < a.toNat then rangeByLoop b a else rangeByLoop a b := by
  unfold rangeFilter orderedRange
  simp only [BitVec.lt_def]
  split
  · rw [rangeByLoop_eq_rangeClosed _ _ (by omega)]
  · rw [rangeByLoop_eq_rangeClosed _ _ (by omega)]

end Sys2Proof.Machine
end

