-- ==== Sys2Proof/Tests/Slice0.lean ====
section
/-! SUPPORT. Tests of the model against the vectors of 95_test_vectors.md and the examples of the rules, and for each
obligation with hypotheses a concrete state that meets them. Every expected value is taken from the spec. -/

namespace Sys2Proof.Tests

open Sys2Proof.Machine Sys2Proof.Claims

/-! ## Small states -/

/-- The parameters of the vectors: NUM_FILTERS = 8, STD_FIRST, BLOCK_BASE = 0. -/
def vectorParams : Params := { numFilters := 8, watchAllOrder := .stdFirst, blockBase := 0 }

/-- "Start: reset" of the vectors. -/
def start : State := .resetWith vectorParams .none [] []

/-- The same with EXT_FIRST. -/
def startExt : State := .resetWith { vectorParams with watchAllOrder := .extFirst } .none [] []

/-- APP's operand registers set. -/
def operands (s : State) (arg0 arg1 handle : Word) : State :=
  { s with app := { s.app with arg0 := arg0, arg1 := arg1, handle := handle } }

/-- APP's frame registers set. -/
def frames (s : State) (cf : ClassicFrame) (ff : FdFrame) : State := { s with app := { s.app with cf := cf, ff := ff } }

/-- APP has issued `i`. -/
def issued (s : State) (i : Instr) : State := s.issue .app (encode i)

/-- APP runs `i` and stands at the phase `ph`. -/
def running (s : State) (i : Instr) (ph : Phase) : State :=
  { s with app := { s.app with busy := true, seq := .run (encode i) ph } }

/-- The schedule set. -/
def scheduled (s : State) (l : List Turn) : State := { s with schedule := l }

/-- The next state, or the old one. -/
def nextOr (o : Host.Outcome State Fault Refusal) (s : State) : State :=
  match o with
  | .next t => t
  | .fault _ => s
  | .refused _ => s

/-- The state after the first segment of `i`, issued on APP. -/
def after (i : Instr) (s : State) : State := nextOr (exec i (issued s i)) s

/-- The state after one step in which `x` happens. -/
def with1 (s : State) (x : Input) : State := nextOr (step (scheduled s [.input x])) s

/-- fr1 of the vectors. -/
def fr1 : ClassicFrame := { ClassicFrame.zero with id := 0x123, length := 2, data := #v[0x11, 0x22, 0, 0, 0, 0, 0, 0] }

/-- A classic frame of LENGTH 9. -/
def fr9 : ClassicFrame := { fr1 with length := 9 }

/-- An FD frame of LENGTH 8 that FD2C converts. -/
def fd8 : FdFrame := { FdFrame.zero with id := 0x18DAF110, ext := true, length := 8 }

/-- An FD frame of LENGTH 65. -/
def fd65 : FdFrame := { FdFrame.zero with length := 65 }

/-! ## Well-formedness and encoding -/

theorem test_wellFormed_refuses : (Instr.setFilterMb 256 true).wellFormed = false ∧ (Instr.lMbOn 256).wellFormed = false ∧
    (Instr.lMbOff 256).wellFormed = false ∧ (Instr.lActive 256).wellFormed = false ∧
    (Instr.cbSet 256).wellFormed = false ∧ (Instr.cbClr 256).wellFormed = false := by decide

theorem test_wellFormed_accepts : (Instr.setFilterMb 255 true).wellFormed = true ∧ (Instr.lMbOn 255).wellFormed = true ∧
    (Instr.lMbOff 255).wellFormed = true ∧ (Instr.lActive 255).wellFormed = true ∧
    (Instr.cbSet 255).wellFormed = true ∧ (Instr.cbClr 255).wellFormed = true := by decide

-- 95_test_vectors.md L2.1, the words as they stand there.
theorem test_decode_filters : decode 0x00000010 = .ok .watchAll ∧ decode 0x00000011 = .ok .watchId ∧
    decode 0x00000012 = .ok .watchIdMask ∧ decode 0x00000013 = .ok .watchRange ∧
    decode 0x00000014 = .ok (.setFilter false) ∧ decode 0x00010014 = .ok (.setFilter true) ∧
    decode 0x00000215 = .ok (.setFilterMb 2 false) ∧ decode 0x0001FF15 = .ok (.setFilterMb 255 true) := by decide

theorem test_decode_registry : decode 0x00000020 = .ok .lAttach ∧ decode 0x00000021 = .ok .lDetach ∧
    decode 0x00000322 = .ok (.lMbOn 3) ∧ decode 0x00000323 = .ok (.lMbOff 3) ∧ decode 0x00000024 = .ok .lGenOn ∧
    decode 0x00000025 = .ok .lGenOff ∧ decode 0x00000826 = .ok (.lActive 8) := by decide

theorem test_decode_dispatch : decode 0x00000030 = .ok .send ∧ decode 0x00000031 = .ok .sendFd ∧
    decode 0x00000032 = .ok .recv ∧ decode 0x00000033 = .ok .recvFd ∧ decode 0x00000734 = .ok (.cbSet 7) ∧
    decode 0x00000735 = .ok (.cbClr 7) ∧ decode 0x00000036 = .ok .cbGSet ∧ decode 0x00000037 = .ok .cbGClr := by decide

theorem test_decode_bridge_and_queries : decode 0x00000040 = .ok .c2fd ∧ decode 0x00000041 = .ok .fd2c ∧
    decode 0x00000050 = .ok .qFault ∧ decode 0x00000051 = .ok .qRxFault ∧ decode 0x00000052 = .ok .qTxFault ∧
    decode 0x00000053 = .ok .qFdCap := by decide

-- The fields of 30_encoding.md R84 written out bit by bit: RSV, X, N, OP of SETFILTER_MB n=5 x=1.
theorem test_decode_by_bits :
    decode (0b000000000000000#15 ++ 0b1#1 ++ 0b00000101#8 ++ 0b00010101#8) = .ok (.setFilterMb 5 true) := by decide

theorem test_illegal_words : ([0x00000000, 0x0000000F, 0x00000016, 0x00000027, 0x00000038, 0x00000042, 0x00000054,
    0x000000FF, 0x00000110, 0x00010010, 0x00000130, 0x00010022, 0x00010026, 0x00000114, 0x00020010, 0x80000015,
    0xFFFFFFFF] : List Word).all (fun w => !isLegal w) = true := by decide

/-! ## Filter Synthesizer (L2.3) -/

theorem test_watchAll : (after .watchAll start).out = [.call .app (.setFilter 0 0 false)] ∧
    (after .watchAll startExt).out = [.call .app (.setFilter 0 0 true)] := by decide

theorem test_watchAll_status : (nextOr (exec .watchAll (running start .watchAll (.ready (.secondInstall 0xFFFFFFFF))))
      start).out = [.call .app (.setFilter 0 0 true)] ∧
    (nextOr (exec .watchAll (running start .watchAll (.ready (.finish 7)))) start).app.result = 7 := by decide

theorem test_watchId : (after .watchId (operands start 0x7FF 0 0)).out = [.call .app (.setFilter 0x7FF 0x7FF false)] ∧
    (after .watchId (operands start 0x800 0 0)).out = [.call .app (.setFilter 0x800 0x1FFFFFFF true)] := by decide

theorem test_watchIdMask :
    (after .watchIdMask (operands start 0x7FF 0xFFFFFFFF 0)).out = [.call .app (.setFilter 0x7FF 0xFFFFFFFF false)] ∧
    (after .watchIdMask (operands start 0x800 0 0)).out = [.call .app (.setFilter 0x800 0 true)] := by decide

theorem test_watchRange :
    (after .watchRange (operands start 0x456 0x123 0)).out = [.call .app (.setFilter 0 0 false)] ∧
    (after .watchRange (operands start 0x7FF 0x800 0)).out = [.call .app (.setFilter 0 0x1FFFF000 false)] ∧
    (after .watchRange (operands start 0x100 0x1FF 0)).out = [.call .app (.setFilter 0x100 0x700 false)] := by decide

theorem test_watchRange_high : (after .watchRange (operands start 0xFFFFFFFE 0xFFFFFFFF 0)).out =
      [.call .app (.setFilter 0xFFFFFFFE 0x1FFFFFFE true)] ∧
    (after .watchRange (operands start 0 0xFFFFFFFF 0)).out = [.call .app (.setFilter 0 0 false)] ∧
    (after .watchRange (operands start 0x10 0x20 0)).out = [.call .app (.setFilter 0 0x7C0 false)] := by decide

theorem test_setFilter : (after (.setFilter true) (operands start 0x100 0x7FF 0)).out =
    [.call .app (.setFilter 0x100 0x7FF true)] := by decide

theorem test_setFilterMb : (after (.setFilterMb 200 false) (operands start 1 0x7FF 0)).out =
    [.call .app (.setFilterSpecific 200 1 0x7FF false)] := by decide

/-! ## Listener Registry (L2.4) -/

theorem test_lAttach : (after .lAttach { operands start 0 0 0xD with
      lslot := #v[0xA, 0, 0xC, 0], lmask := [(0xD, 0x1FF)] }).lslot = #v[0xA, 0xD, 0xC, 0] ∧
    (after .lAttach { operands start 0 0 0xD with
      lslot := #v[0xA, 0, 0xC, 0], lmask := [(0xD, 0x1FF)] }).lmask = [] := by decide

theorem test_lAttach_full : (after .lAttach { operands start 0 0 0xE with
      lslot := #v[0xA, 0xB, 0xC, 0xD], lmask := [(0xE, 5)] }).lmask = [(0xE, 5)] ∧
    (after .lAttach { operands start 0 0 0xE with lslot := #v[0xA, 0xB, 0xC, 0xD] }).app.result = 0 := by decide

theorem test_lDetach : (after .lDetach { operands start 0 0 0xA with
      lslot := #v[0xA, 0xA, 0, 0], lmask := [(0xA, 0x108)] }).lslot = #v[0, 0xA, 0, 0] ∧
    (after .lDetach { operands start 0 0 0xA with
      lslot := #v[0xA, 0xA, 0, 0], lmask := [(0xA, 0x108)] }).lmask = [(0xA, 0x108)] := by decide

theorem test_lDetach_unknown : (after .lDetach (operands start 0 0 0xA)).app.result = 0 ∧
    (after .lDetach (operands start 0 0 0)).app.result = 0 := by decide

theorem test_lMbOn : (after (.lMbOn 7) { operands start 0 0 0xA with lmask := [(0xA, 1)] }).lmask = [(0xA, 0x081)] ∧
    (after (.lMbOn 8) { operands start 0 0 0xA with lmask := [(0xA, 0x081)] }).lmask = [(0xA, 0x081)] := by decide

theorem test_lMbOff : (after (.lMbOff 0) { operands start 0 0 0xA with lmask := [(0xA, 0x081)] }).lmask =
      [(0xA, 0x080)] ∧
    (after (.lMbOff 8) { operands start 0 0 0xA with lmask := [(0xA, 0x181)] }).lmask = [(0xA, 0x181)] := by decide

theorem test_lGenOn : (after .lGenOn (operands start 0 0 0xA)).lmask = [(0xA, 0x100)] ∧
    (after .lGenOn (operands start 0 0 0)).lmask = [] := by decide

theorem test_lGenOff : (after .lGenOff { operands start 0 0 0xA with lmask := [(0xA, 0x181)] }).lmask =
    [(0xA, 0x081)] := by decide

theorem test_lActive : (after (.lActive 8) { operands start 0 0 0xA with lmask := [(0xA, 0x108)] }).app.result = 1 ∧
    (after (.lActive 9) { operands start 0 0 0xA with lmask := [(0xA, 0x1FF)] }).app.result = 0 ∧
    (after (.lActive 4) { operands start 0 0 0xA with lmask := [(0xA, 0x108)] }).app.result = 0 := by decide

/-! ## Dispatch Engine (L2.5, L2.6) -/

theorem test_send : (after .send (frames start fr1 .zero)).out = [.call .app (.sendRaw fr1)] ∧
    (after .send (frames start fr9 .zero)).faults.lengthContract = true := by decide

theorem test_send_notifies : (nextOr (exec .send { running start .send
      (.ready (.slot .tx (.classic fr1) 2 1)) with lslot := #v[0xA, 0, 0xC, 0] }) start).out =
    [.notification .app { kind := .tx, slot := 2, handle := 0xC, frame := .classic fr1 }] := by decide

theorem test_sendFd : (after .sendFd (frames start fr1 fd65)).out = [.call .app (.sendRawFD fd65)] ∧
    (after .sendFd (frames start fr1 fd65)).faults.lengthContract = true := by decide

theorem test_sendFd_failed :
    (nextOr (exec .sendFd (running start .sendFd (.ready (.sent (.fd fd8) false)))) start).app.result = 0 := by decide

theorem test_recv : (nextOr (exec .recv (running start .recv (.ready (.received 0 (.classic fr9))))) start).app.cf = fr9 ∧
    (nextOr (exec .recv (running start .recv (.ready (.received 0 (.classic fr9))))) start).faults = .none := by decide

theorem test_recv_count : (nextOr (exec .recv (running start .recv (.ready (.received 2 (.classic fr9))))) start).app.seq =
      .run 0x32 (.ready (.slot .rx (.classic fr9) 0 2)) ∧
    (nextOr (exec .recv (running start .recv (.ready (.received 2 (.classic fr9))))) start).faults.lengthContract =
      true := by decide

theorem test_recvFd : (after .recvFd start).out = [.call .app .receiveRawFD] ∧
    (nextOr (exec .recvFd (running start .recvFd (.ready (.received 1 (.fd fd8))))) start).app.ff = fd8 := by decide

theorem test_cbSet : (after (.cbSet 7) (operands start 0x80001234 0 0)).cbmb = [0, 0, 0, 0, 0, 0, 0, 0x80001234] ∧
    (after (.cbSet 8) (operands start 0x80001234 0 0)).cbmb = [0, 0, 0, 0, 0, 0, 0, 0] := by decide

theorem test_cbClr : (after (.cbClr 3) { start with cbmb := [0, 0, 0, 0x1111, 0, 0, 0, 0] }).cbmb =
      [0, 0, 0, 0, 0, 0, 0, 0] ∧
    (after (.cbClr 8) { start with cbmb := [0, 0, 0, 0x1111, 0, 0, 0, 0] }).cbmb =
      [0, 0, 0, 0x1111, 0, 0, 0, 0] := by decide

theorem test_cbGSet : (after .cbGSet (operands start 0x2222 0 0)).cbgen = 0x2222 := by decide

theorem test_cbGClr : (after .cbGClr { operands start 0x3333 0 0 with cbgen := 0x2222 }).cbgen = 0 := by decide

theorem test_callbackReads : [CallbackRead.cbRead 3, .cbRead 4, .cbRead 200, .cbGenRead, .cbSel 3, .cbSel 4,
      .cbSel 200].map { start with cbmb := [0, 0, 0, 0x1111, 0, 0, 0, 0], cbgen := 0x2222 }.readCallback =
    [0x1111, 0, 0, 0x2222, 0x1111, 0x2222, 0x2222] := by decide

/-! ## Format Bridge (L1.5, L2.7) -/

theorem test_c2fd : (after .c2fd (frames start fr1 { fd65 with data := Vector.replicate 64 0xEE })).app.ff.data[1] =
      0x22 ∧
    (after .c2fd (frames start fr1 { fd65 with data := Vector.replicate 64 0xEE })).app.ff.data[8] = 0xEE ∧
    (after .c2fd (frames start fr9 fd65)).app.ff.length = 9 ∧
    (after .c2fd (frames start fr9 fd65)).faults.lengthContract = true := by decide

theorem test_fd2c : (after .fd2c (frames start fr1 fd8)).app.cf.id = 0x18DAF110 ∧
    (after .fd2c (frames start fr1 fd8)).app.result = 1 ∧ (after .fd2c (frames start fr1 fd65)).app.cf = fr1 := by decide

theorem test_fd2c_fails : (after .fd2c (frames start fr1 { fd8 with fdMode := true })).app.result = 0 ∧
    (after .fd2c (frames start fr1 { fd8 with length := 9 })).faults.lengthContract = false ∧
    (after .fd2c (frames start fr1 fd65)).faults.lengthContract = true := by decide

/-! ## Queries (L2.8) -/

/-- FAULTED 1, RXFAULT 0, TXFAULT 1, FDCAP 1. -/
def flagged : State := { start with flags := { faulted := true, rxFault := false, txFault := true, fdcap := true } }

theorem test_queries : (after .qFault flagged).app.result = 1 ∧ (after .qRxFault flagged).app.result = 0 ∧
    (after .qTxFault flagged).app.result = 1 ∧ (after .qFdCap flagged).app.result = 1 ∧
    (after .qFdCap start).app.result = 0 := by decide

/-! ## Register window, refusals and reset (L2.2, L2.9, L2.10) -/

theorem test_window_data : (with1 start (.memWrite 0x030 4 0x44332211)).app.cf.data = #v[0x11, 0x22, 0x33, 0x44, 0, 0, 0, 0] ∧
    doubleView (with1 start (.memWrite 0x05C 4 0xDDCCBBAA)).app.ff.data 1 = 0xDDCCBBAA00000000 := by decide

theorem test_window_ctrl : packCfCtrl (with1 start (.memWrite 0x028 4 0xFF0A07FF)).app.cf = 0x000A0703 ∧
    (with1 start (.memWrite 0x148 4 0x00400007)).isr.ff.length = 64 ∧
    (with1 start (.memWrite 0x148 4 0x00400007)).app = start.app := by decide

theorem test_window_reads : (with1 start (.memRead 0x20C 4)).out = [.hostRead 0x20C 4 0xFF] ∧
    (with1 start (.memRead 0x210 4)).out = [.hostRead 0x210 4 8] ∧
    (with1 flagged (.memRead 0x200 4)).out = [.hostRead 0x200 4 0xD] := by decide

theorem test_window_bad : (with1 start (.memRead 0x018 4)).faults.badRegisterAccess = true ∧
    (with1 start (.memRead 0x214 4)).faults.badRegisterAccess = true ∧
    (with1 start (.memWrite 0x004 2 0x1234)).app.arg0 = 0 ∧
    (with1 start (.memRead 0x006 4)).out = [.hostRead 0x006 4 0] ∧
    (with1 start (.memWrite 0x204 4 500000)).busSpeed = 0 := by decide

theorem test_illegal_command : packStatus (with1 start (.memWrite 0x000 4 0x00000016)).app = 2 ∧
    (with1 start (.memWrite 0x000 4 0x00000016)).faults.illegalCommand = true := by decide

theorem test_busy_refuses : (with1 (issued start .send) (.memWrite 0x004 4 9)).app.arg0 = 0 ∧
    (with1 (issued start .send) (.memWrite 0x000 4 0x50)).app.illegal = true ∧
    (with1 (issued start .send) (.memWrite 0x104 4 9)).isr.arg0 = 9 := by decide

theorem test_reset_value : (with1 (issued flagged .send) .rst).app = .reset ∧
    (with1 (issued flagged .send) .rst).enPin = 255 := by decide

/-! ## The invariant has states (70_reset_and_hazards.md R177) -/

theorem start_inv : start.Inv := by
  refine State.Inv.mk' _ (by decide) (by decide) (by decide) (by decide) (by simp [MaskFile.narrow, start, State.resetWith]) ?_
  intro p
  constructor <;> cases p <;> simp [start, State.resetWith, State.port, Port.reset, Seq.isRun, Seq.latchedFits, Seq.shown]

theorem issued_inv (i : Instr) (h : isLegal (encode i) = true) : (issued start i).Inv :=
  inv_issue start .app (encode i) h start_inv

/-! ## Witnesses: for each obligation with hypotheses, states and operands that meet them -/

/-- A host write of `v` at `a` comes next. -/
def writing (s : State) (a : Nat) (v : Word) : State := scheduled s [.input (.memWrite a 4 v)]

/-- APP's SEND waits for the answer to call number 0, made while FDCAP = 0. -/
def waitingSend : State := running start .send (.call 0 (.sendRaw fr1) false .last)

/-- The answer `a` to APP's call number 0 comes next. -/
def answered (s : State) (a : DrvAnswer) : State := scheduled s [.input (.driverAnswer .app 0 a)]

/-- APP's SEND waits for the acknowledgement of notification number 0. -/
def waitingAck (i : Fin 4) : State :=
  running start .send (.notification 0 { kind := .tx, slot := i, handle := 0xA, frame := .classic fr1 } 1)

theorem witness_DecodeOfEncodeIsTheCommand : (Instr.setFilterMb 255 true).wellFormed = true := by decide

theorem witness_EncodeOfDecodeIsTheWord : decode 0x0001FF15 = .ok (.setFilterMb 255 true) := by decide

theorem witness_StepRunsTheLatchedCommand :
    ((issued start .qFault).port (issued start .qFault).active).seq = .run 0x50 (.ready .first) ∧
      decode 0x50 = .ok .qFault ∧ (issued start .qFault).schedule = [] ∧
      nextTurn (scheduled (issued start .qFault) [.block]) .block [] := by
  refine ⟨by decide, by decide, by decide, rfl⟩

theorem witness_BlockWithoutAnEnabledSegment_call : blockNext waitingSend ∧
    (waitingSend.port waitingSend.active).seq = .run 0x30 (.call 0 (.sendRaw fr1) false .last) :=
  ⟨.inl rfl, by decide⟩

theorem witness_BlockWithoutAnEnabledSegment_notification : blockNext (waitingAck 3) ∧
    ((waitingAck 3).port (waitingAck 3).active).seq =
      .run 0x30 (.notification 0 { kind := .tx, slot := 3, handle := 0xA, frame := .classic fr1 } 1) :=
  ⟨.inl rfl, by decide⟩

theorem witness_BlockWithoutAnEnabledSegment_idle : start.quiescent ∧ start.schedule = [] ∧
    (scheduled start [.block]).quiescent ∧ nextTurn (scheduled start [.block]) .block [] :=
  ⟨⟨rfl, rfl⟩, rfl, ⟨rfl, rfl⟩, rfl⟩

theorem witness_CommandWriteIssuesOrIsRefused :
    nextTurn (writing start (0 + 0x100 + 0x00) 0x53) (.input (.memWrite (0 + PortId.base .isr + 0x00) 4 0x53)) [] ∧
      (start.port .isr).busy = false ∧ isLegal 0x53 = true ∧ isLegal 0x54 = false ∧
      ((issued start .send).port .app).busy = true := by
  refine ⟨rfl, by decide, by decide, by decide, by decide⟩

theorem witness_RefusedWrite_illegal :
    nextTurn (writing start 0 0x54) (.input (.memWrite (regAddress vectorParams .app .cmd) 4 0x54)) [] ∧
      (start.port .app).busy = false ∧ isLegal 0x54 = false := by
  refine ⟨rfl, by decide, by decide⟩

theorem witness_RefusedWrite_busy :
    nextTurn (writing (issued start .send) 0x8C 1) (.input (.memWrite (regAddress vectorParams .app (.ffData 15)) 4 1)) [] ∧
      ((issued start .send).port .app).busy = true ∧ Reg.ffData 15 ∈ storedRegs := by
  refine ⟨rfl, by decide, by decide⟩

theorem witness_unmappedOffset : unmappedOffset 0x2FC ∧ unmappedOffset 0x018 := by
  refine ⟨⟨by decide, fun p r => ?_, fun r => by cases r <;> decide⟩,
    ⟨by decide, fun p r => ?_, fun r => by cases r <;> decide⟩⟩
  · have := base_offset_lt p r
    omega
  · cases p <;> cases r <;> simp [PortId.base, Reg.offset] <;> omega

theorem witness_BadAccesses_width :
    nextTurn (scheduled start [.input (.memRead 0x004 2)]) (.input (.memRead (0 + 0x004) 2)) [] ∧
      nextTurn (scheduled start [.input (.memWrite 0x2FF 4 1)]) (.input (.memWrite (0 + 0x2FF) 4 1)) [] ∧
      (0x2FF < 0x300 ∧ 0x2FF % 4 ≠ 0) := by
  refine ⟨rfl, rfl, by decide⟩

theorem witness_BadAccesses_readOnly : (0x110 = PortId.base .isr + 0x10 ∧ 0x014 = PortId.base .app + 0x14) ∧
    0x210 = SharedReg.offset .numFilt ∧ nextTurn (writing start 0x210 1) (.input (.memWrite (0 + 0x210) 4 1)) [] ∧
    nextTurn (scheduled start [.input (.memRead 0x100 4)]) (.input (.memRead (0 + PortId.base .isr) 4)) [] := by
  refine ⟨by decide, by decide, rfl, rfl⟩

theorem witness_RegisterReads :
    nextTurn (scheduled start [.input (.memRead 0x18C 4)])
        (.input (.memRead (0 + PortId.base .isr + Reg.offset (.ffData 15)) 4)) [] ∧
      nextTurn (scheduled start [.input (.memRead 0x210 4)]) (.input (.memRead (0 + SharedReg.offset .numFilt) 4)) [] :=
  ⟨rfl, rfl⟩

theorem witness_RegisterMap : start.params.numFilters ≤ 32 := by decide

theorem witness_IdleWrite :
    nextTurn (writing start 0x028 0xFF0A07FF)
        (.input (.memWrite (0 + PortId.base .app + Reg.offset .cfCtrl) 4 0xFF0A07FF)) [] ∧
      Reg.cfCtrl ∈ storedRegs ∧ (start.port .app).busy = false := by
  refine ⟨rfl, by decide, by decide⟩

theorem witness_PayloadViews : (63 : Fin 64).val / 8 ≠ (0 : Fin 8).val ∧ (63 : Fin 64).val / 2 ≠ (0 : Fin 32).val := by
  decide

theorem witness_EveryStepKeepsTheInvariant : (issued start .qFault).Inv ∧ ∃ t, step (issued start .qFault) = .next t :=
  ⟨issued_inv .qFault (by decide), ⟨_, rfl⟩⟩

/-- APP's ILLEGAL bit is set and recorded. -/
def flawed : State :=
  { start with app := { start.app with illegal := true }, faults := { FaultRecord.none with illegalCommand := true } }

theorem witness_IllegalStaysSetUntilReset : (∃ t, step flawed = .next t) ∧ (flawed.port .app).illegal = true ∧
    ¬ rstNext flawed ∧ rstNext (scheduled flawed [.input .rst]) := by
  refine ⟨⟨_, rfl⟩, rfl, ?_, ⟨_, rfl⟩⟩
  rintro ⟨rest, h⟩
  cases h

theorem witness_FaultRecordIsNeverCleared : (∃ t, step (scheduled flawed [.input .rst]) = .next t) ∧
    flawed.faults.illegalCommand = true ∧ (with1 start (.memWrite 0 4 0)).faults.illegalCommand = true ∧
    ((with1 start (.memWrite 0 4 0)).port .app).illegal = true ∧ (start.port .app).illegal = false := by
  refine ⟨⟨_, rfl⟩, rfl, by decide, by decide, rfl⟩

theorem witness_OnlyTheListedEvents :
    (with1 start (.memWrite 0 4 0)).faults.illegalCommand ≠ start.faults.illegalCommand ∧
      (with1 start (.memRead 0x18 4)).faults.badRegisterAccess ≠ start.faults.badRegisterAccess ∧
      (nextOr (step (issued (frames start fr9 .zero) .send)) start).faults.lengthContract ≠ start.faults.lengthContract ∧
      start.faultFree ∧ (∃ t, step (scheduled start [.input (.driverStatus (.fdcap true))]) = .next t) := by
  refine ⟨by decide, by decide, by decide, rfl, ⟨_, rfl⟩⟩

theorem witness_BlockTurn : blockNext (issued start .c2fd) ∧ ∃ t, step (issued start .c2fd) = .next t :=
  ⟨.inl rfl, ⟨_, rfl⟩⟩

/-- ISR has issued Q_FAULT while APP waits for its driver. -/
def preempting : State := waitingSend.issue .isr 0x50

theorem witness_InterruptContextHasPriority : preempting.isr.seq ≠ .idle ∧ blockNext preempting ∧
    (∃ t, step preempting = .next t) ∧ preempting.isr.busy = true ∧
    (scheduled preempting [.block]).isr.seq = .run 0x50 (.ready .first) ∧ decode 0x50 = .ok .qFault ∧
    nextTurn (writing waitingSend 0x100 0x50) (.input (.memWrite (0 + 0x100) 4 0x50)) [] ∧
    waitingSend.isr.busy = false := by
  refine ⟨by decide, .inl rfl, ⟨_, rfl⟩, by decide, by decide, by decide, rfl, by decide⟩

theorem witness_OnlyTheDriverWrites : (∃ t, step (issued start .cbGSet) = .next t) ∧ ¬ rstNext (issued start .cbGSet) ∧
    (¬ ∃ x rest, nextTurn (issued start .cbGSet) (.input (.driverStatus x)) rest) ∧
    nextTurn (scheduled start [.input (.driverStatus (.enPin 7))]) (.input (.driverStatus (.enPin 7))) [] := by
  refine ⟨⟨_, rfl⟩, ?_, ?_, rfl⟩
  · rintro ⟨rest, h⟩
    cases h
  · rintro ⟨x, rest, h⟩
    cases h

theorem witness_SharedFiles :
    (nextOr (step (issued (operands start 0 0 0xA) .lAttach)) start).lslot ≠ start.lslot ∧
      (nextOr (step (issued (operands start 0 0 0xA) .lGenOn)) start).lmask ≠ start.lmask ∧
      (nextOr (step (issued (operands start 5 0 0) (.cbSet 7))) start).cbmb ≠ start.cbmb ∧
      (nextOr (step (issued (operands start 5 0 0) .cbGSet)) start).cbgen ≠ start.cbgen := by decide

theorem witness_OnlyCompletionWritesResult : ¬ rstNext (issued start .c2fd) ∧
    ((nextOr (step (issued start .c2fd)) start).port .app).result ≠ ((issued start .c2fd).port .app).result := by
  refine ⟨?_, by decide⟩
  rintro ⟨rest, h⟩
  cases h

theorem witness_BusyPortKeepsItsOperands : ¬ rstNext (writing (issued start .send) 4 9) ∧
    (∃ t, step (writing (issued start .send) 4 9) = .next t) ∧
    ((writing (issued start .send) 4 9).port .app).busy = true ∧ ¬ blockNext (writing (issued start .send) 4 9) := by
  refine ⟨?_, ⟨_, rfl⟩, by decide, ?_⟩
  · rintro ⟨rest, h⟩
    cases h
  · rintro (h | ⟨rest, h⟩) <;> cases h

theorem witness_ResetSetsEveryRegister : nextTurn (scheduled waitingSend [.input .rst]) (.input .rst) [] := rfl

theorem witness_LateAnswers :
    nextTurn (scheduled start [.input (.driverAnswer .app 0 (.ok true))]) (.input (.driverAnswer .app 0 (.ok true))) [] ∧
      (∀ w c b k, (start.port .app).seq ≠ .run w (.call 0 c b k)) ∧
      nextTurn (scheduled start [.input (.listenerAck .app 0)]) (.input (.listenerAck .app 0)) [] ∧
      ∀ w n v, (start.port .app).seq ≠ .run w (.notification 0 n v) := by
  refine ⟨rfl, ?_, rfl, ?_⟩
  · intro w c b k h
    cases h
  · intro w n v h
    cases h

theorem witness_EverySegment : (∃ t, exec .qFault (issued start .qFault) = .next t) ∧
    ∃ t, waitingSend.answer .app 0 (.ok true) = .next t := ⟨⟨_, rfl⟩, ⟨_, rfl⟩⟩

theorem witness_FilterCommandsMakeTheirDriverCall : (issued start .watchRange).enabled = some .first ∧
    firstFilterCall (issued (operands start 0x7FF 0x800 0) .watchRange) .watchRange =
      some (.setFilter 0 0x1FFFF000 false) := by decide

theorem witness_WatchAllInstallsBothFilters : start.params.watchAllOrder = .stdFirst ∧
    (issued start .watchAll).enabled = some .first ∧
    (running start .watchAll (.ready (.secondInstall 0xFFFFFFFF))).enabled = some (.secondInstall 0xFFFFFFFF) ∧
    (running start .watchAll (.ready (.finish 7))).enabled = some (.finish 7) := by decide

theorem witness_WatchAllExtendedFirst : startExt.params.watchAllOrder = .extFirst ∧
    (issued startExt .watchAll).enabled = some .first ∧
    (running startExt .watchAll (.ready (.secondInstall 3))).enabled = some (.secondInstall 3) := by decide

theorem witness_FilterCommandsComplete : isFilter (.setFilterMb 255 true) ∧
    (running start (.setFilterMb 255 true) (.ready (.finish 0xFFFFFFFF))).enabled = some (.finish 0xFFFFFFFF) ∧
    nextTurn (answered (running start .watchId (.call 0 (.setFilter 5 0x7FF false) false .last)) (.status 3))
      (.input (.driverAnswer .app 0 (.status 3))) [] ∧
    ((answered (running start .watchId (.call 0 (.setFilter 5 0x7FF false) false .last)) (.status 3)).port .app).seq =
      .run 0x11 (.call 0 (.setFilter 5 0x7FF false) false .last) ∧
    nextTurn (answered (running start .watchAll (.call 0 (.setFilter 0 0 false) false .secondInstall)) (.status 3))
      (.input (.driverAnswer .app 0 (.status 3))) [] ∧
    ((answered (running start .watchAll (.call 0 (.setFilter 0 0 false) false .secondInstall)) (.status 3)).port .app).seq =
      .run 0x10 (.call 0 (.setFilter 0 0 false) false .secondInstall) := by
  refine ⟨by simp [isFilter], by decide, rfl, by decide, rfl, by decide⟩

theorem witness_WatchRangeObeysItsLaws : (issued (operands start 0x123 0x456 0) .watchRange).enabled = some .first ∧
    (issued (operands start 0x456 0x123 0) .watchRange).enabled = some .first ∧
    (issued (operands start 0 0x7FF 0) .watchRange).enabled = some .first := by decide

/-- SETFILTER_MB n=200 x=1 is written to P.CMD of APP, and its call is answered 7. -/
def filtering : State :=
  scheduled start [.input (.memWrite 0x000 4 0x0001C815), .block, .input (.driverAnswer .app 0 (.status 7)), .block]

theorem witness_FilterCommandRuns : filtering.quiescent ∧ (filtering.port .app).busy = false ∧
    (Instr.setFilterMb 200 true).wellFormed = true ∧ Instr.setFilterMb 200 true ≠ .watchAll ∧
    firstFilterCall (filtering.issue .app (encode (.setFilterMb 200 true))) (.setFilterMb 200 true) =
      some (.setFilterSpecific 200 0 0 true) ∧
    filtering.schedule = [.input (.memWrite (filtering.params.blockBase + PortId.base .app + 0x00) 4
      (encode (.setFilterMb 200 true))), .block, .input (.driverAnswer .app filtering.out.length (.status 7)), .block] := by
  refine ⟨⟨rfl, rfl⟩, by decide, by decide, by decide, by decide, by decide⟩

/-- WATCH_ALL is written to P.CMD of ISR, and its calls are answered 3 and 7. -/
def watching : State :=
  scheduled start [.input (.memWrite 0x100 4 0x10), .block, .input (.driverAnswer .isr 0 (.status 3)), .block,
    .input (.driverAnswer .isr 1 (.status 7)), .block]

theorem witness_WatchAllRuns : watching.quiescent ∧ (watching.port .isr).busy = false ∧
    watching.schedule = [.input (.memWrite (watching.params.blockBase + PortId.base .isr + 0x00) 4 (encode .watchAll)), .block,
      .input (.driverAnswer .isr watching.out.length (.status 3)), .block,
      .input (.driverAnswer .isr (watching.out.length + 1) (.status 7)), .block] := by
  refine ⟨⟨rfl, rfl⟩, by decide, by decide⟩

/-- APP has issued `i` with HANDLE = `h` and the slots `l`. -/
def registry (i : Instr) (h : Word) (l : Vector Word 4) : State := issued { operands start 0 0 h with lslot := l } i

theorem witness_AttachTakesTheLowestEmptySlot :
    ((registry .lAttach 0xE #v[0xA, 0xB, 0xC, 0]).enabled = some .first ∧
      MaskFile.wf (registry .lAttach 0xE #v[0xA, 0xB, 0xC, 0]).lmask = true ∧
      ((registry .lAttach 0xE #v[0xA, 0xB, 0xC, 0]).port .app).handle ≠ 0 ∧
      (registry .lAttach 0xE #v[0xA, 0xB, 0xC, 0]).lslot[(3 : Fin 4)] = 0 ∧
      ∀ j : Fin 4, j < 3 → (registry .lAttach 0xE #v[0xA, 0xB, 0xC, 0]).lslot[j] ≠ 0) ∧
    ((registry .lAttach 0xE #v[0xA, 0xB, 0xC, 0xD]).enabled = some .first ∧
      ∀ i : Fin 4, (registry .lAttach 0xE #v[0xA, 0xB, 0xC, 0xD]).lslot[i] ≠ 0) ∧
    ((issued start .lAttach).port .app).handle = 0 := by decide

theorem witness_DetachClearsTheLowestSlot :
    ((registry .lDetach 0xA #v[0xB, 0xA, 0xA, 0]).enabled = some .first ∧
      (registry .lDetach 0xA #v[0xB, 0xA, 0xA, 0]).lslot[(1 : Fin 4)] = 0xA ∧
      ∀ j : Fin 4, j < 1 → (registry .lDetach 0xA #v[0xB, 0xA, 0xA, 0]).lslot[j] ≠ 0xA) ∧
    ((registry .lDetach 0xC #v[0xA, 0xB, 0, 0xD]).enabled = some .first ∧
      ∀ i : Fin 4, (registry .lDetach 0xC #v[0xA, 0xB, 0, 0xD]).lslot[i] ≠ 0xC) := by decide

theorem witness_MaskCommands : (issued start (.lMbOn 7)).Inv ∧ (issued start (.lMbOn 7)).enabled = some .first ∧
    7 < (issued start (.lMbOn 7)).params.numFilters ∧ (issued start .lGenOff).Inv ∧
    (issued start .lGenOff).enabled = some .first ∧ 8 = (issued start .lGenOff).params.numFilters := by
  refine ⟨issued_inv _ (by decide), by decide, by decide, issued_inv _ (by decide), by decide, by decide⟩

theorem witness_MaskCommandsOutOfRange : (issued start (.lMbOff 8)).enabled = some .first ∧
    (issued start (.lMbOff 8)).params.numFilters ≤ 8 := by decide

theorem witness_FirstSegments : (issued start (.lActive 8)).enabled = some .first ∧
    (issued start .recvFd).enabled = some .first ∧ (issued start .c2fd).enabled = some .first := by decide

theorem witness_TransmitAnswer :
    (running start .send (.ready (.sent (.classic fr1) false))).enabled = some (.sent (.classic fr1) false) ∧
      (running start .sendFd (.ready (.sent (.fd fd8) true))).enabled = some (.sent (.fd fd8) true) := by decide

theorem witness_ReceiveAnswer :
    (running start .recv (.ready (.received 0 (.classic fr9)))).enabled = some (.received 0 (.classic fr9)) ∧
      (running start .recvFd (.ready (.received 0 (.fd fd65)))).enabled = some (.received 0 (.fd fd65)) ∧
      (running start .recv (.ready (.received 2 (.classic fr9)))).enabled = some (.received 2 (.classic fr9)) ∧
      (running start .recvFd (.ready (.received 1 (.fd fd65)))).enabled = some (.received 1 (.fd fd65)) := by decide

/-- LSLOT of the first row of L2.5. -/
def twoListeners : State := { start with lslot := #v[0xA, 0, 0xC, 0] }

theorem witness_FanOutOfOneSlot : isTransfer .recvFd ∧
    (running twoListeners .recvFd (.ready (.slot .rx (.fd fd8) 2 1))).enabled = some (.slot .rx (.fd fd8) 2 1) ∧
    (running twoListeners .recvFd (.ready (.slot .rx (.fd fd8) 2 1))).lslot[(2 : Fin 4)] ≠ 0 ∧
    (running twoListeners .recvFd (.ready (.slot .rx (.fd fd8) 3 1))).enabled = some (.slot .rx (.fd fd8) 3 1) ∧
    (running twoListeners .recvFd (.ready (.slot .rx (.fd fd8) 3 1))).lslot[(3 : Fin 4)] = 0 ∧
    (running twoListeners .recvFd (.ready (.finish 1))).enabled = some (.finish 1) := by
  refine ⟨by simp [isTransfer], by decide, by decide, by decide, by decide, by decide⟩

/-- APP's SEND stands at slot 0, and each notification is acknowledged when it is sent. -/
def fanningOut : State :=
  scheduled (running twoListeners .send (.ready (.slot .tx (.classic fr1) 0 1)))
    [.block, .input (.listenerAck .app 0), .block, .block, .input (.listenerAck .app 1), .block, .block]

theorem witness_FanOutOfAllSlots : decode 0x30 = .ok .send ∧ isTransfer .send ∧
    (fanningOut.port fanningOut.active).seq = .run 0x30 (.ready (.slot .tx (.classic fr1) 0 1)) ∧
    fanningOut.schedule = fanTurns fanningOut.active fanningOut.lslot.toList fanningOut.out.length ++ [] := by
  refine ⟨by decide, by simp [isTransfer], by decide, by decide⟩

/-- SEND is written to P.CMD of ISR and succeeds. -/
def sending : State :=
  scheduled { twoListeners with isr := { twoListeners.isr with cf := fr1 } }
    [.input (.memWrite 0x100 4 0x30), .block, .input (.driverAnswer .isr 0 (.ok true)), .block, .block,
      .input (.listenerAck .isr 1), .block, .block, .input (.listenerAck .isr 2), .block, .block]

/-- RECVFD is written to P.CMD of APP with FDCAP = 1 and succeeds with count 2. -/
def receiving : State :=
  scheduled { twoListeners with flags := flagged.flags }
    [.input (.memWrite 0x000 4 0x33), .block, .input (.driverAnswer .app 0 (.receivedFD 2 fd8)), .block, .block,
      .input (.listenerAck .app 1), .block, .block, .input (.listenerAck .app 2), .block, .block]

theorem witness_TransferRuns_send : sending.quiescent ∧ (sending.port .isr).busy = false ∧ (sending.port .isr).cf = fr1 ∧
    sending.schedule = .input (.memWrite (sending.params.blockBase + PortId.base .isr + 0x00) 4 (encode .send)) :: .block ::
      .input (.driverAnswer .isr sending.out.length (.ok true)) :: .block ::
      (fanTurns .isr sending.lslot.toList (sending.out.length + 1) ++ []) := by
  refine ⟨⟨rfl, rfl⟩, by decide, by decide, by decide⟩

theorem witness_TransferRuns_recvFd : receiving.quiescent ∧ (receiving.port .app).busy = false ∧
    receiving.flags.fdcap = true ∧ (2 : Word) ≠ 0 ∧
    receiving.schedule = .input (.memWrite (receiving.params.blockBase + PortId.base .app + 0x00) 4 (encode .recvFd)) ::
      .block :: .input (.driverAnswer .app receiving.out.length (.receivedFD 2 fd8)) :: .block ::
      (fanTurns .app receiving.lslot.toList (receiving.out.length + 1) ++ []) := by
  refine ⟨⟨rfl, rfl⟩, by decide, by decide, by decide, by decide⟩

theorem witness_FdCallsWithoutCapability :
    (∃ t, step (scheduled (running start .sendFd (.call 0 (.sendRawFD fd8) false .last))
      [.input (.driverAnswer .app 0 (.ok false))]) = .next t) ∧
    ∃ t, step (scheduled (running start .recvFd (.call 0 .receiveRawFD false .last))
      [.input (.driverAnswer .app 0 (.receivedFD 0 fd8))]) = .next t := ⟨⟨_, rfl⟩, ⟨_, rfl⟩⟩

theorem witness_TransferAnswer :
    ((answered waitingSend (.ok true)).port .app).seq = .run 0x30 (.call 0 (.sendRaw fr1) false .last) ∧
    nextTurn (answered waitingSend (.ok true)) (.input (.driverAnswer .app 0 (.ok true))) [] ∧
    ((answered (running start .recvFd (.call 0 .receiveRawFD true .last)) (.receivedFD 1 fd8)).port .app).seq =
      .run 0x33 (.call 0 .receiveRawFD true .last) ∧
    nextTurn (answered (running start .recvFd (.call 0 .receiveRawFD true .last)) (.receivedFD 1 fd8))
      (.input (.driverAnswer .app 0 (.receivedFD 1 fd8))) [] := by
  refine ⟨by decide, rfl, by decide, rfl⟩

theorem witness_Acknowledgement :
    nextTurn (scheduled (waitingAck 3) [.input (.listenerAck .app 0)]) (.input (.listenerAck .app 0)) [] ∧
      ((scheduled (waitingAck 3) [.input (.listenerAck .app 0)]).port .app).seq =
        .run 0x30 (.notification 0 { kind := .tx, slot := 3, handle := 0xA, frame := .classic fr1 } 1) ∧
      (1 : Fin 4).val = (0 : Fin 4).val + 1 := by
  refine ⟨rfl, by decide, by decide⟩

theorem witness_CallbackCommands : (issued start (.cbSet 7)).enabled = some .first ∧ (issued start (.cbSet 7)).Inv ∧
    7 < (issued start (.cbSet 7)).params.numFilters ∧ (issued start (.cbClr 8)).params.numFilters ≤ 8 := by
  refine ⟨by decide, issued_inv _ (by decide), by decide, by decide⟩

theorem witness_CallbackReads : start.cbmb.length = start.params.numFilters ∧
    nextTurn (scheduled start [.input (.callbackRead (.cbSel 7))]) (.input (.callbackRead (.cbSel 7))) [] ∧
    (7 : Byte).toNat < start.params.numFilters ∧ start.params.numFilters ≤ (8 : Byte).toNat ∧ start.cbmb[7]? = some 0 := by
  refine ⟨by decide, rfl, by decide, by decide, by decide⟩

theorem witness_FdToClassic : (issued (frames start fr1 fd8) .fd2c).enabled = some .first ∧ fd8.length.toNat ≤ 8 ∧
    fd8.fdMode = false ∧ 8 < fd65.length.toNat ∧ fr1.length.toNat ≤ 8 := by decide

theorem witness_Queries : (issued flagged .qTxFault).enabled = some .first ∧
    true = (issued flagged .qTxFault).flags.txFault := by decide

theorem witness_CommandLine : (Instr.lMbOn 3).wellFormed = true ∧ (start.port .isr).busy = false ∧
    nextAccess start .isr [.command (.lMbOn 3)] = some (.memWrite 0x100 4 0x00000322, .isr, []) ∧
    nextTurn (writing start 0x100 0x322) (.input (.memWrite 0x100 4 0x322)) [] := by
  refine ⟨by decide, by decide, by decide, rfl⟩

/-! ### Executions without end -/

/-- A driver status write that writes what is there. -/
def quietTurn : Turn := .input (.driverStatus (.faulted false))

/-- APP has issued WATCH_ID; its segment, the driver's answer 3, its last segment, then idle turns of the block. -/
def fairTurns : Nat → Turn
  | 1 => .input (.driverAnswer .app 0 (.status 3))
  | _ => .block

/-- The states those turns lead through. -/
def fairStates : Nat → State
  | 0 => issued start .watchId
  | n + 1 => nextOr (step (scheduled (fairStates n) [fairTurns n])) (fairStates n)

theorem fairStates_ended (n : Nat) : fairStates (n + 3) = fairStates 3 := by
  induction n with
  | zero => rfl
  | succ n ih =>
    show nextOr (step (scheduled (fairStates (n + 3)) [.block])) (fairStates (n + 3)) = _
    rw [ih]
    rfl

theorem fairStates_isExecution : isExecution fairStates fairTurns
  | 0 => rfl
  | 1 => rfl
  | 2 => rfl
  | n + 3 => by
    rw [fairStates_ended (n + 1), fairStates_ended n]
    rfl

theorem fairStates_call : ((fairStates 1).port .app).seq = .run 0x11 (.call 0 (.setFilter 0 0x7FF false) false .last) := by
  decide

theorem fairStates_isr : (n : Nat) → (fairStates n).isr.seq = .idle
  | 0 => rfl
  | 1 => rfl
  | 2 => rfl
  | n + 3 => by
    rw [fairStates_ended]
    rfl

theorem fairStates_answers : driverAnswersEveryCall fairStates fairTurns
  | 0, p, tag, ⟨w, c, b, k, h⟩ => by cases p <;> cases h
  | 1, .isr, tag, ⟨w, c, b, k, h⟩ => by cases h
  | 1, .app, tag, ⟨w, c, b, k, h⟩ => by
    rw [fairStates_call] at h
    cases h
    exact ⟨1, le_rfl, .inl ⟨.status 3, rfl⟩⟩
  | 2, p, tag, ⟨w, c, b, k, h⟩ => by cases p <;> cases h
  | n + 3, p, tag, ⟨w, c, b, k, h⟩ => by
    rw [fairStates_ended] at h
    cases p <;> cases h

theorem fairStates_acknowledges : listenersAcknowledgeEveryNotification fairStates fairTurns
  | 0, p, tag, ⟨w, n, v, h⟩ => by cases p <;> cases h
  | 1, .isr, tag, ⟨w, n, v, h⟩ => by cases h
  | 1, .app, tag, ⟨w, n, v, h⟩ => by
    rw [fairStates_call] at h
    cases h
  | 2, p, tag, ⟨w, n, v, h⟩ => by cases p <;> cases h
  | m + 3, p, tag, ⟨w, n, v, h⟩ => by
    rw [fairStates_ended] at h
    cases p <;> cases h

theorem witness_FairExecutions : (fairStates 0).Inv ∧ isExecution fairStates fairTurns ∧
    driverAnswersEveryCall fairStates fairTurns ∧ listenersAcknowledgeEveryNotification fairStates fairTurns ∧
    isrDoesNotRunForever fairStates ∧ enabledSegmentsAreTaken fairStates fairTurns ∧
    ((fairStates 0).port .app).seq ≠ .idle := by
  refine ⟨issued_inv .watchId (by decide), fairStates_isExecution, fairStates_answers, fairStates_acknowledges,
    fun n => ⟨n, le_rfl, fairStates_isr n⟩, fun p h => ?_, by decide⟩
  obtain ⟨m, hm, _, he⟩ := h 3
  obtain ⟨d, rfl⟩ : ∃ d, m = d + 3 := ⟨m - 3, by omega⟩
  rw [fairStates_ended] at he
  cases he

/-- ISR's RECV waits for its driver, whose call is number 0, and APP has issued SEND. -/
def starving : State := (nextOr (step (start.issue .isr 0x32)) start).issue .app 0x30

theorem starving_inv : starving.Inv := by
  refine State.Inv.mk' _ (by decide) (by decide) (by decide) (by decide) ?_ ?_
  · intro e he
    cases he
  · intro p
    cases p
    · exact ⟨by decide, by decide, trivial, by decide⟩
    · exact ⟨by decide, by decide, rfl, by decide⟩

/-- APP's SEND waits for the acknowledgement of notification number 0, which has been shown. -/
def waitingShown : State :=
  { waitingAck 0 with
    out := [.notification .app { kind := .tx, slot := 0, handle := 0xA, frame := .classic fr1 }] }

theorem waitingShown_inv : waitingShown.Inv := by
  refine State.Inv.mk' _ (by decide) (by decide) (by decide) (by decide) ?_ ?_
  · intro e he
    cases he
  · intro p
    cases p
    · exact ⟨by decide, by decide, rfl, by decide⟩
    · exact ⟨by decide, by decide, trivial, by decide⟩

theorem witness_UnansweredCommands : starving.Inv ∧ isExecution (fun _ => starving) (fun _ => quietTurn) ∧
    quietTurn ≠ .input .rst ∧ starving.awaitsAnswer .isr 0 ∧ ¬ quietTurn.answers .isr 0 ∧ starving.app.seq ≠ .idle ∧
    starving.isr.seq ≠ .idle := by
  refine ⟨starving_inv, fun _ => rfl, by decide, ⟨_, _, _, _, rfl⟩, ?_, by decide, by decide⟩
  rintro ⟨a, h⟩
  cases h

theorem witness_UnacknowledgedCommands : waitingShown.Inv ∧ isExecution (fun _ => waitingShown) (fun _ => quietTurn) ∧
    waitingShown.awaitsAcknowledgement .app 0 ∧ quietTurn ≠ .input (.listenerAck .app 0) :=
  ⟨waitingShown_inv, fun _ => rfl, ⟨_, _, _, rfl⟩, by decide⟩

end Sys2Proof.Tests
end

section
/-! SUPPORT. What one step keeps and writes: the invariant, the indexed files, the parameters and RESULT. -/

namespace Sys2Proof.Machine

/-! ## The invariant is kept by every step -/

theorem inv_blockTurn (s t : State) (h : s.Inv) (ht : blockTurn s = .next t) : t.Inv := by
  rcases blockTurn_next s t ht with ⟨_, rfl⟩ | ⟨i, g, hf, hg, rfl⟩
  · exact h
  · obtain ⟨w, g', hs, hd⟩ := (fetch_command_iff s i).1 hf
    obtain rfl : g = g' := by simpa [enabled_of_seq s w g' hs] using hg.symm
    exact inv_runSeg s _ w g i hs hd h

theorem inv_input (s t : State) (x : Input) (h : s.Inv) (ht : s.input x = .next t) : t.Inv := by
  cases x with
  | memRead a n => cases ht; exact inv_memRead s a n h
  | memWrite a n v => cases ht; exact inv_memWrite s a n v h
  | driverAnswer p tag a => exact inv_answer s t p tag a h ht
  | listenerAck p tag => cases ht; exact inv_acknowledge s p tag h
  | driverStatus w => cases ht; exact inv_writeStatus s w h
  | callbackRead r => cases ht; exact inv_emit s _ h
  | rst => cases ht; exact inv_rst s h

theorem inv_step (s t : State) (h : s.Inv) (ht : step s = .next t) : t.Inv := by
  rcases step_cases s with ⟨l, _, e⟩ | ⟨x, l, _, e⟩ <;> rw [e] at ht
  · exact inv_blockTurn _ t (inv_withSchedule s l h) ht
  · exact inv_input _ t x (inv_withSchedule s l h) ht

/-! ## The invariant holds after reset -/

theorem portInv_of_reset (s : State) (p : PortId) (h : s.port p = .reset) : s.PortInv p := by
  constructor <;> rw [h]
  · rfl
  · rfl
  · trivial
  · exact nofun

theorem inv_resetWith (pr : Params) (faults : FaultRecord) (out : List Output) (schedule : List Turn)
    (hpos : 1 ≤ pr.numFilters) (hle : pr.numFilters ≤ 32) : (State.resetWith pr faults out schedule).Inv :=
  State.Inv.mk' _ hpos hle (List.length_replicate ..) rfl nofun fun p => portInv_of_reset _ p (by cases p <;> rfl)

theorem one_le_numFilters : 1 ≤ Config.numFilters := Nat.le_add_left 1 _

theorem numFilters_le : Config.numFilters ≤ 32 := Config.numFiltersLessOne.isLt

/-! ## Who writes the files -/

/-- No input but RST writes an indexed file. -/
theorem input_files (s t : State) (x : Input) (h : s.input x = .next t) (hx : x ≠ .rst) :
    t.lslot = s.lslot ∧ t.lmask = s.lmask ∧ t.cbmb = s.cbmb ∧ t.cbgen = s.cbgen := by
  by_cases hd : ∃ w, x = .driverStatus w
  · obtain ⟨w, rfl⟩ := hd
    cases h
    simp
  · obtain ⟨hslot, hmask, hmb, hgen, _⟩ := input_shared s t x h hx fun w hw => hd ⟨w, hw⟩
    exact ⟨hslot, hmask, hmb, hgen⟩

theorem input_params (s t : State) (x : Input) (h : s.input x = .next t) : t.params = s.params := by
  cases x with
  | rst => cases h; exact rst_params s
  | driverStatus w => cases h; exact writeStatus_params s w
  | _ =>
    obtain ⟨_, _, _, _, _, _, _, _, hpar, _⟩ := input_shared s t _ h nofun nofun
    exact hpar

/-- Which command's segment a turn of the block runs when it writes a file; it never writes the parameters. -/
theorem blockTurn_files (s t : State) (h : blockTurn s = .next t) :
    (t.lslot ≠ s.lslot → s.fetch = .command .lAttach ∨ s.fetch = .command .lDetach) ∧
    (t.lmask ≠ s.lmask → s.fetch = .command .lAttach ∨ s.fetch = .command .lGenOn ∨ s.fetch = .command .lGenOff ∨
      ∃ n, s.fetch = .command (.lMbOn n) ∨ s.fetch = .command (.lMbOff n)) ∧
    (t.cbmb ≠ s.cbmb → ∃ n, s.fetch = .command (.cbSet n) ∨ s.fetch = .command (.cbClr n)) ∧
    (t.cbgen ≠ s.cbgen → s.fetch = .command .cbGSet ∨ s.fetch = .command .cbGClr) ∧ t.params = s.params := by
  rcases blockTurn_next s t h with ⟨_, rfl⟩ | ⟨i, g, hf, _, rfl⟩
  · simp
  · obtain ⟨hslot, hmask, hmb, hgen⟩ := runSeg_files i s s.active g
    obtain ⟨_, _, _, _, hpar, _⟩ := runSeg_driverFields i s s.active g
    simp only [hf, Fetched.command.injEq]
    exact ⟨hslot, hmask, hmb, hgen, hpar⟩

/-! ## Who writes RESULT -/

theorem inputPort_result (r r' : Port) (h : InputPort r r') : r'.result = r.result := by
  cases h with
  | stored reg v _ => exact (storeReg_fields r reg v).1
  | _ => rfl

/-- A turn of the block that changes a RESULT completes the command of the active port. -/
theorem blockTurn_result (s t : State) (p : PortId) (h : blockTurn s = .next t)
    (hr : (t.port p).result ≠ (s.port p).result) :
    p = s.active ∧ (t.port p).busy = false ∧ (t.port p).seq = .idle := by
  rcases blockTurn_cases s t h with rfl | ⟨i, g, w, _, hs, rfl⟩
  · exact absurd rfl hr
  · by_cases hp : p = s.active
    · subst hp
      obtain ⟨cf, ff, ⟨v, e⟩ | ⟨ph, _, e⟩⟩ := runSeg_port_same i s _ w g hs
      · rw [e]
        exact ⟨rfl, rfl, rfl⟩
      · rw [e] at hr
        exact absurd rfl hr
    · rw [runSeg_port_ne i s _ p g hp] at hr
      exact absurd rfl hr

/-! ## Filter operands as the rules give them -/

theorem stdOrExt_eq (v : Word) : stdOrExt v = decide (0x7FF < v.toNat) := by
  simp [stdOrExt, BitVec.lt_def]

theorem watchAllExt_fst (o : WatchAllOrder) : (watchAllExt o).1 = (o == .extFirst) := by
  cases o <;> rfl

theorem watchAllExt_snd (o : WatchAllOrder) : (watchAllExt o).2 = !(o == .extFirst) := by
  cases o <;> rfl

end Sys2Proof.Machine
end

section
/-! SUPPORT. Runs of one command on a block that was idle: every state between issue and completion is the starting
state with one port's sequencer, the outputs and the schedule changed (`State.inFlight`), and each step of the run leads
from one such state to the next. -/

namespace Sys2Proof.Machine

/-- The state in which a command issued in `s` on port `p`, latched as `w`, has come to the phase `ph` and so far
changed nothing else: the block has shown `os` since its issue, and the steps `l` are still to come. -/
def State.inFlight (s : State) (p : PortId) (w : Word) (ph : Phase) (os : List Output) (l : List Turn) : State :=
  State.setPort { s with out := s.out ++ os, schedule := l } p { s.port p with busy := true, seq := .run w ph }

theorem quiescent_seq (s : State) (hq : s.quiescent) (p : PortId) : (s.port p).seq = .idle := by
  cases p
  · exact hq.1
  · exact hq.2

theorem decode_encode_watchAll : decode (encode .watchAll) = .ok .watchAll := by decide

section
variable {s : State} {p : PortId} {w : Word} {ph : Phase} {os : List Output} {l : List Turn}

/-! ## The state in flight -/

@[simp] theorem inFlight_port_same :
    (s.inFlight p w ph os l).port p = { s.port p with busy := true, seq := .run w ph } := port_setPort_same ..

@[simp] theorem inFlight_params : (s.inFlight p w ph os l).params = s.params := setPort_params ..

@[simp] theorem inFlight_schedule : (s.inFlight p w ph os l).schedule = l := setPort_schedule ..

theorem inFlight_withSchedule (l' : List Turn) :
    { s.inFlight p w ph os l with schedule := l' } = s.inFlight p w ph os l' := by
  cases p <;> rfl

/-- On a block that was idle the port with the command in flight is the active one. -/
theorem inFlight_active (hq : s.quiescent) : (s.inFlight p w ph os l).active = p := by
  cases p with
  | app => simp [State.active, State.inFlight, State.setPort, hq.2, Seq.isRun]
  | isr => rfl

theorem inFlight_setPhase (ph' : Phase) : (s.inFlight p w ph os l).setPhase p ph' = s.inFlight p w ph' os l := by
  cases p <;> rfl

theorem inFlight_callDriver (c : DrvCall) (k : AfterCall) :
    (s.inFlight p w ph os l).callDriver p c k =
      s.inFlight p w (.call (s.out.length + os.length) c s.flags.fdcap k) (os ++ [.call p c]) l := by
  cases p <;> simp [State.callDriver, State.inFlight, State.setPort, State.emit, State.setPhase, State.port]

theorem inFlight_complete (v : Word) :
    (s.inFlight p w ph os l).complete p v = State.complete { s with out := s.out ++ os, schedule := l } p v := by
  cases p <;> rfl

/-! ## The steps of a run -/

/-- A host's write of a legal word to P.CMD of a port that is not busy issues the command (10_state.md R48). -/
theorem step_issue (hb : (s.port p).busy = false) (hl : isLegal w = true)
    (hs : s.schedule = .input (.memWrite (s.params.blockBase + p.base + Reg.cmd.offset) 4 w) :: l) :
    step s = .next (s.inFlight p w (.ready .first) [] l) := by
  have hb' : (State.port { s with schedule := l } p).busy = false := by simpa using hb
  have hw := memWrite_port { s with schedule := l } p .cmd w
  rw [writeReg_cmd _ _ _ hb', if_pos hl] at hw
  rw [step_of_input s _ l hs, State.input, hw]
  cases p <;> simp [State.issue, State.inFlight, State.setPort, State.port]

/-- A turn of the block runs the segment that the command in flight stands at. -/
theorem step_inFlight_block (hq : s.quiescent) (i : Instr) (hd : decode w = .ok i) (g : Seg) :
    step (s.inFlight p w (.ready g) os (.block :: l)) =
      .next ((s.inFlight p w (.ready g) os l).runSeg p (firstSegment i (s.inFlight p w (.ready g) os l) p) g) := by
  have ha : (s.inFlight p w (.ready g) os l).active = p := inFlight_active hq
  have hseq : ((s.inFlight p w (.ready g) os l).port (s.inFlight p w (.ready g) os l).active).seq =
      .run w (.ready g) := by rw [ha, inFlight_port_same]
  rw [step_of_block _ l inFlight_schedule, inFlight_withSchedule,
    blockTurn_command _ i (fetch_command _ w g i hseq hd), exec_of_enabled i _ g (enabled_of_seq _ w g hseq), ha]

/-- The completing segment, of whatever command. -/
theorem step_inFlight_finish (hq : s.quiescent) (i : Instr) (hd : decode w = .ok i) (v : Word) :
    step (s.inFlight p w (.ready (.finish v)) os (.block :: l)) =
      .next (State.complete { s with out := s.out ++ os, schedule := l } p v) := by
  rw [step_inFlight_block hq i hd, State.runSeg, inFlight_complete]

/-- An answer that the driver may give enables the segment that the outstanding call's answer enables. -/
theorem step_inFlight_answer {tag : Nat} {c : DrvCall} {b : Bool} {k : AfterCall} {a : DrvAnswer} {g : Seg}
    (hg : c.segAfter k a = some g) (ha : a.allowed c b = true) :
    step (s.inFlight p w (.call tag c b k) os (.input (.driverAnswer p tag a) :: l)) =
      .next (s.inFlight p w (.ready g) os l) := by
  rw [step_of_input _ _ l inFlight_schedule, inFlight_withSchedule, State.input,
    answer_next _ p w tag c b k a g (by simp) hg ha, inFlight_setPhase]

/-! ## The two installs of WATCH_ALL (40_filter_synthesizer.md R103) -/

theorem step_watchAll_first (hq : s.quiescent) :
    step (s.inFlight p (encode .watchAll) (.ready .first) os (.block :: l)) =
      .next (s.inFlight p (encode .watchAll)
        (.call (s.out.length + os.length) (.setFilter 0 0 (s.params.watchAllOrder == .extFirst)) s.flags.fdcap
          .secondInstall)
        (os ++ [.call p (.setFilter 0 0 (s.params.watchAllOrder == .extFirst))]) l) := by
  rw [step_inFlight_block hq .watchAll decode_encode_watchAll]
  simp only [State.runSeg, firstSegment, inFlight_callDriver, inFlight_params, watchAllExt_fst]

theorem step_watchAll_second (hq : s.quiescent) (s1 : Word) :
    step (s.inFlight p (encode .watchAll) (.ready (.secondInstall s1)) os (.block :: l)) =
      .next (s.inFlight p (encode .watchAll)
        (.call (s.out.length + os.length) (.setFilter 0 0 !(s.params.watchAllOrder == .extFirst)) s.flags.fdcap .last)
        (os ++ [.call p (.setFilter 0 0 !(s.params.watchAllOrder == .extFirst))]) l) := by
  rw [step_inFlight_block hq .watchAll decode_encode_watchAll]
  simp only [State.runSeg, State.secondInstall, inFlight_callDriver, inFlight_params, watchAllExt_snd]

end
end Sys2Proof.Machine
end

section
/-! SUPPORT. The obligations on the whole block's invariant, its writers, and the Filter Synthesizer's calls. -/

namespace Sys2Proof.Claims

open Sys2Proof.Machine

/-! ## The invariant and the writers -/

/-- A step is a turn of the block or one input, taken from the state with its entry of the schedule removed. -/
theorem step_next_cases (s t : State) (h : step s = .next t) :
    ∃ l, (blockNext s ∧ blockTurn { s with schedule := l } = .next t) ∨
      ∃ x, s.schedule = .input x :: l ∧ State.input { s with schedule := l } x = .next t := by
  rcases step_cases s with ⟨l, hl, e⟩ | ⟨x, l, hl, e⟩
  · refine ⟨l, .inl ⟨?_, e ▸ h⟩⟩
    rcases hl with ⟨hl, _⟩ | hl
    · exact .inl hl
    · exact .inr ⟨l, hl⟩
  · exact ⟨l, .inr ⟨x, hl, e ▸ h⟩⟩

/-- Settles O15: a step is one segment of a fitting command or one input, and each keeps the invariant. -/
theorem everyStepKeepsTheInvariant : Obligations.EveryStepKeepsTheInvariant := inv_step

/-- Settles O16: reset ports meet the invariant, and NUM_FILTERS is one more than a number below 32. -/
theorem resetStateMeetsTheInvariant : Obligations.ResetStateMeetsTheInvariant :=
  inv_resetWith Config.params .none [] [] one_le_numFilters numFilters_le

/-- Settles O23: a turn of the block writes a file only by the commands that own it, an input only if it is RST. -/
theorem sharedFilesHaveTheirOnlyWriters : Obligations.SharedFilesHaveTheirOnlyWriters := by
  intro s t h
  obtain ⟨l, ⟨hb, ht⟩ | ⟨x, hl, ht⟩⟩ := step_next_cases s t h
  · obtain ⟨hslot, hmask, hmb, hgen, hpar⟩ := blockTurn_files _ t ht
    simp only [withSchedule_fetch] at hslot hmask hmb hgen
    exact ⟨fun hn => .inr ⟨hb, hslot hn⟩, fun hn => .inr ⟨hb, hmask hn⟩, fun hn => .inr ⟨hb, hmb hn⟩,
      fun hn => .inr ⟨hb, hgen hn⟩, hpar⟩
  · have hpar := input_params _ t x ht
    by_cases hx : x = .rst
    · have hr : rstNext s := ⟨l, hx ▸ hl⟩
      exact ⟨fun _ => .inl hr, fun _ => .inl hr, fun _ => .inl hr, fun _ => .inl hr, hpar⟩
    · obtain ⟨hslot, hmask, hmb, hgen⟩ := input_files _ t x ht hx
      exact ⟨(absurd hslot ·), (absurd hmask ·), (absurd hmb ·), (absurd hgen ·), hpar⟩

/-- Settles O24: of the cases of a step only the completing segment writes RESULT. -/
theorem onlyCompletionWritesResult : Obligations.OnlyCompletionWritesResult := by
  intro s t p h hrst hr
  obtain ⟨l, ⟨hb, ht⟩ | ⟨x, hl, ht⟩⟩ := step_next_cases s t h
  · exact ⟨hb, blockTurn_result { s with schedule := l } t p ht (by simpa using hr)⟩
  · have hx : x ≠ .rst := fun hx => hrst ⟨l, hx ▸ hl⟩
    have hres := inputPort_result _ _ (input_port _ t x p ht hx)
    exact absurd (by simpa using hres) hr

/-! ## Filter Synthesizer -/

/-- A driver call of the active port's segment is `calls`: the frame of the statements. -/
theorem calls_callDriver (s : State) (g : Seg) (c : DrvCall) (k : AfterCall) (h : s.enabled = some g) :
    calls s (s.callDriver s.active c k) c k := by
  obtain ⟨w, hs⟩ := (enabled_iff s g).1 h
  refine ⟨⟨w, _, hs, callDriver_port_same s _ c k w _ hs⟩, callDriver_out .., callDriver_faults ..,
    callDriver_schedule .., fun q hq => callDriver_port_ne s _ q c k hq, ?_⟩
  simp [sharedSame, callbacksSame, driverFieldsSame]

/-- The call WATCH_ID's meaning makes is the one R104 gives. -/
theorem exactFilter_eq (v : Word) :
    DrvCall.setFilter v (seed v) (stdOrExt v) =
      if v.toNat ≤ 0x7FF then .setFilter v 0x7FF false else .setFilter v 0x1FFFFFFF true := by
  by_cases hv : v.toNat ≤ 0x7FF
  · simp [seed, stdOrExt_eq, BitVec.le_def, hv, Nat.not_lt.2 hv]
  · simp [seed, stdOrExt_eq, BitVec.le_def, hv, Nat.lt_of_not_le hv]

/-- The first segment of a filter command is the call its rule gives. -/
theorem firstSegment_of_firstFilterCall (s : State) (i : Instr) (c : DrvCall) (h : firstFilterCall s i = some c) :
    firstSegment i s s.active = s.callDriver s.active c (if i = .watchAll then .secondInstall else .last) := by
  cases i <;> cases h
  case watchAll => simp [firstSegment, watchAllExt_fst]
  case watchId => simp [firstSegment, exactFilter_eq]
  case watchIdMask => simp [firstSegment, stdOrExt_eq]
  case watchRange => simp [firstSegment, stdOrExt_eq, rangeFilter_eq_loop]
  case setFilter x => rfl
  case setFilterMb n x => rfl

/-- Settles O29: the first segment makes the rule's call, and a driver call changes nothing else. -/
theorem filterCommandsMakeTheirDriverCall : Obligations.FilterCommandsMakeTheirDriverCall := by
  intro i s c hg hc
  refine ⟨_, exec_first i s hg, ?_⟩
  rw [firstSegment_of_firstFilterCall s i c hc]
  exact calls_callDriver s _ c _ hg

/-- Settles O31: EXT_FIRST makes the first install the extended one and the second the standard one. -/
theorem watchAllExtendedFirstSwapsTheInstalls : Obligations.WatchAllExtendedFirstSwapsTheInstalls := by
  intro s ho
  refine ⟨fun hg => ⟨_, exec_first _ s hg, ?_⟩, fun s1 hg => ⟨_, exec_of_enabled _ s _ hg, ?_⟩⟩
  · simpa only [firstSegment, ho, watchAllExt] using calls_callDriver s _ (.setFilter 0 0 true) .secondInstall hg
  · simpa only [State.runSeg, State.secondInstall, ho, watchAllExt] using
      calls_callDriver s _ (.setFilter 0 0 false) .last hg

/-- A command that completes on a port that was idle, having changed nothing but the outputs, leaves RESULT and them. -/
theorem complete_of_idle (s : State) (p : PortId) (v : Word) (os : List Output) (l : List Turn)
    (hq : s.quiescent) (hb : (s.port p).busy = false) :
    let t := State.complete { s with out := s.out ++ os, schedule := l } p v
    t.port p = { s.port p with result := v } ∧ otherPortSame s t p ∧ sharedSame s t ∧ t.out = s.out ++ os ∧
      t.faults = s.faults ∧ t.schedule = l := by
  have e : ∀ q, State.port { s with out := s.out ++ os, schedule := l } q = s.port q := fun q => by cases q <;> rfl
  refine ⟨?_, fun q hne => ?_, ?_⟩
  · rw [complete_port_same, e, ← hb, ← quiescent_seq s hq p]
  · rw [complete_port_ne _ _ _ _ hne, e]
  · simp [sharedSame, callbacksSame, driverFieldsSame]

/-- Settles O56: the issue, the two installs with their answers and the completion, one step each. -/
theorem watchAllRunsFromIssueToResult : Obligations.WatchAllRunsFromIssueToResult := by
  intro s p s1 s2 rest hq hb hs extFirst
  refine ⟨_, ?_, complete_of_idle s p s2 _ rest hq hb⟩
  calc core.run 6 s
    _ = core.run 5 (s.inFlight p (encode .watchAll) (.ready .first) [] _) :=
      run_succ 5 _ _ (step_issue hb (by decide) hs)
    _ = core.run 4 _ := run_succ 4 _ _ (step_watchAll_first hq)
    _ = core.run 3 (s.inFlight p _ (.ready (.secondInstall s1)) _ _) :=
      run_succ 3 _ _ (step_inFlight_answer rfl rfl)
    _ = core.run 2 _ := run_succ 2 _ _ (step_watchAll_second hq s1)
    _ = core.run 1 (s.inFlight p _ (.ready (.finish s2)) _ _) :=
      run_succ 1 _ _ (step_inFlight_answer rfl rfl)
    _ = core.run 0 _ := run_succ 0 _ _ (step_inFlight_finish hq .watchAll decode_encode_watchAll s2)
    _ = .next _ := run_zero _

end Sys2Proof.Claims
end

section
/-! SUPPORT. What one step makes of a port's registers, of FLAGS and the speeds, and what an answer or
acknowledgement does. -/

namespace Sys2Proof.Machine

/-! ## A turn of the block and the ports -/

theorem blockTurn_port_ne (s t : State) (q : PortId) (h : blockTurn s = .next t) (hq : q ≠ s.active) :
    t.port q = s.port q := by
  rcases blockTurn_cases s t h with rfl | ⟨i, g, w, _, _, rfl⟩
  · rfl
  · exact runSeg_port_ne i s _ q g hq

/-- A turn of the block writes of no port ARG0, ARG1, HANDLE or ILLEGAL. -/
theorem blockTurn_port_kept (s t : State) (q : PortId) (h : blockTurn s = .next t) :
    (t.port q).arg0 = (s.port q).arg0 ∧ (t.port q).arg1 = (s.port q).arg1 ∧ (t.port q).handle = (s.port q).handle ∧
      (t.port q).illegal = (s.port q).illegal := by
  by_cases hq : q = s.active
  · subst hq
    rcases blockTurn_cases s t h with rfl | ⟨i, g, w, _, hs, rfl⟩
    · exact ⟨rfl, rfl, rfl, rfl⟩
    · obtain ⟨cf, ff, ⟨v, e⟩ | ⟨ph, _, e⟩⟩ := runSeg_port_same i s _ w g hs <;> rw [e] <;> exact ⟨rfl, rfl, rfl, rfl⟩
  · rw [blockTurn_port_ne s t q h hq]
    exact ⟨rfl, rfl, rfl, rfl⟩

theorem blockTurn_driverFields (s t : State) (h : blockTurn s = .next t) :
    t.flags = s.flags ∧ t.busSpeed = s.busSpeed ∧ t.fdSpeed = s.fdSpeed ∧ t.enPin = s.enPin := by
  rcases blockTurn_cases s t h with rfl | ⟨i, g, w, _, _, rfl⟩
  · exact ⟨rfl, rfl, rfl, rfl⟩
  · obtain ⟨hflags, hbus, hfd, hpin, _⟩ := runSeg_driverFields i s s.active g
    exact ⟨hflags, hbus, hfd, hpin⟩

/-! ## An input and the ports -/

theorem inputPort_illegal {r r' : Port} (h : InputPort r r') (hi : r.illegal = true) : r'.illegal = true := by
  cases h with
  | illegal => rfl
  | stored reg v _ => rw [(storeReg_fields r reg v).2.2.1, hi]
  | _ => exact hi

/-- An input other than RST changes of a busy port no operand and no frame register. -/
theorem inputPort_busy {r r' : Port} (h : InputPort r r') (hb : r.busy = true) :
    r'.arg0 = r.arg0 ∧ r'.arg1 = r.arg1 ∧ r'.handle = r.handle ∧ r'.cf = r.cf ∧ r'.ff = r.ff := by
  cases h with
  | issued w hi => simp [hb] at hi
  | stored reg v hi => simp [hb] at hi
  | _ => exact ⟨rfl, rfl, rfl, rfl, rfl⟩

/-! ## Changes of phase -/

theorem setPhase_eq_setPort (s : State) (p : PortId) (w : Word) (ph0 ph : Phase) (h : (s.port p).seq = .run w ph0) :
    s.setPhase p ph = s.setPort p { s.port p with seq := .run w ph } := by
  simp [State.setPhase, h]

/-- An answer to a call that is not outstanding is ignored (70_reset_and_hazards.md R178). -/
theorem answer_ignored (s : State) (p : PortId) (tag : Nat) (a : DrvAnswer)
    (h : ∀ w c b k, (s.port p).seq ≠ .run w (.call tag c b k)) : s.answer p tag a = .next s := by
  unfold State.answer
  split
  · rename_i w t c b k hs
    rw [if_neg]
    rintro rfl
    exact h w c b k hs
  all_goals rfl

/-- An acknowledgement of a notification that is not outstanding is ignored (R178). -/
theorem acknowledge_ignored (s : State) (p : PortId) (tag : Nat)
    (h : ∀ w n v, (s.port p).seq ≠ .run w (.notification tag n v)) : s.acknowledge p tag = s := by
  rcases acknowledge_cases s p tag with e | ⟨w, n, v, hs, _⟩
  · exact e
  · exact absurd hs (h w n v)

theorem acknowledge_next (s : State) (p : PortId) (w : Word) (tag : Nat) (n : Notification) (v : Word)
    (hs : (s.port p).seq = .run w (.notification tag n v)) :
    s.acknowledge p tag = s.setPhase p (.ready (Seg.afterSlot n.kind n.frame n.slot v)) := by
  simp [State.acknowledge, hs]

/-- All that an accepted answer to an outstanding call can be: one of the call's kind that R51(a) allows. -/
theorem answer_outstanding (s t : State) (p : PortId) (w : Word) (tag : Nat) (c : DrvCall) (b : Bool) (k : AfterCall)
    (a : DrvAnswer) (hs : (s.port p).seq = .run w (.call tag c b k)) (h : s.answer p tag a = .next t) :
    ∃ g, c.segAfter k a = some g ∧ a.allowed c b = true ∧ t = s.setPhase p (.ready g) := by
  simp only [State.answer, hs, if_true] at h
  split at h
  · rename_i g hg
    split at h
    · rename_i ha
      cases h
      exact ⟨g, hg, ha, rfl⟩
    · cases h
  · cases h

end Sys2Proof.Machine
end

section
/-! SUPPORT. The obligations on the register window, on what each step keeps, on reset, and on the answers of the driver and
the listeners. -/

namespace Sys2Proof.Claims

open Sys2Proof.Machine

/-! ## Frames -/

/-- A port written after an entry of the schedule was taken off: that port holds `r`, and all else is as it was. -/
theorem setPort_frame (s : State) (p : PortId) (r : Port) (l : List Turn) :
    let t := State.setPort { s with schedule := l } p r
    t.port p = r ∧ otherPortSame s t p ∧ sharedSame s t ∧ t.out = s.out ∧ t.faults = s.faults ∧ t.schedule = l := by
  refine ⟨port_setPort_same .., fun q hq => ?_, ?_⟩
  · rw [port_setPort_ne _ _ _ _ hq, withSchedule_port]
  · simp [sharedSame, callbacksSame, driverFieldsSame]

/-- The same for a change of phase, of whatever command. -/
theorem setPhase_frame (s : State) (p : PortId) (w : Word) (ph0 ph : Phase) (l : List Turn)
    (hs : (s.port p).seq = .run w ph0) :
    let t := State.setPhase { s with schedule := l } p ph
    t.port p = { s.port p with seq := .run w ph } ∧ otherPortSame s t p ∧ sharedSame s t ∧ t.out = s.out ∧
      t.faults = s.faults ∧ t.schedule = l := by
  have h := setPort_frame s p { s.port p with seq := .run w ph } l
  rwa [← withSchedule_port s l p, ← setPhase_eq_setPort { s with schedule := l } p w ph0 ph (by simpa using hs)] at h

/-! ## The register window -/

theorem step_memWrite_port (s : State) (p : PortId) (r : Reg) (v : Word) (rest : List Turn)
    (h : nextTurn s (.input (.memWrite (s.params.blockBase + p.base + r.offset) 4 v)) rest) :
    step s = .next (State.writeReg { s with schedule := rest } p r v) := by
  rw [step_of_input s _ rest h, State.input]
  exact congrArg _ (memWrite_port { s with schedule := rest } p r v)

/-- Settles O7: a write to P.CMD of a busy port or of an illegal word is refused, any other issues. -/
theorem commandWriteIssuesOrIsRefused : Obligations.CommandWriteIssuesOrIsRefused := by
  intro s p w rest h
  have hstep := step_memWrite_port s p .cmd w rest h
  have hport : State.port { s with schedule := rest } p = s.port p := withSchedule_port ..
  constructor
  · intro hrefused
    have hw : State.writeReg { s with schedule := rest } p .cmd w =
        State.raiseIllegalCommand { s with schedule := rest } p := by
      by_cases hb : (s.port p).busy = true
      · exact writeReg_busy _ _ _ _ rfl (by rw [hport, hb])
      · have hl : isLegal w = false := hrefused.resolve_left hb
        rw [writeReg_cmd _ _ _ (by rw [hport]; simpa using hb), hl]
        rfl
    refine ⟨_, hw ▸ hstep, ?_, fun q hq => ?_, ?_⟩
    · rw [raiseIllegalCommand_port_same, hport]
    · rw [raiseIllegalCommand_port_ne _ _ _ hq, withSchedule_port]
    · simp [sharedSame, callbacksSame, driverFieldsSame]
  · intro hb hl
    rw [writeReg_cmd _ _ _ (by rw [hport, hb]), if_pos hl, State.issue, hport] at hstep
    exact ⟨_, hstep, setPort_frame s p _ rest⟩

/-! ## A register read after a store -/

theorem readReg_storeReg_same (r : Port) (reg : Reg) (v : Word) (h : reg ∈ storedRegs) :
    (r.storeReg reg v).readReg reg = v &&& writableBits reg := by
  have hall : v = v &&& 0xFFFFFFFF#32 := BitVec.and_allOnes.symm
  cases reg with
  | cfCtrl => exact packCfCtrl_writeCfCtrl r.cf v
  | ffCtrl => exact packFfCtrl_writeFfCtrl r.ff v
  | cfData k => exact (dataWord_setDataWord_same _ _ _ (by omega)).trans hall
  | ffData k => exact (dataWord_setDataWord_same _ _ _ (by omega)).trans hall
  | cmd => simp [storedRegs] at h
  | result => simp [storedRegs] at h
  | status => simp [storedRegs] at h
  | _ => exact hall

/-- Each register has fields of its own, but for the data words of a frame, which share its payload. -/
theorem readReg_storeReg_ne (r : Port) (reg reg' : Reg) (v : Word) (h : reg' ≠ reg) :
    (r.storeReg reg v).readReg reg' = r.readReg reg' := by
  cases reg with
  | cfData k =>
    cases reg' with
    | cfData k' => exact dataWord_setDataWord_ne _ _ _ _ (by omega) fun hk => h (by rw [Fin.ext hk])
    | _ => simp only [Port.storeReg, Port.readReg, packStatus, packCfCtrl]
  | ffData k =>
    cases reg' with
    | ffData k' => exact dataWord_setDataWord_ne _ _ _ _ (by omega) fun hk => h (by rw [Fin.ext hk])
    | _ => simp only [Port.storeReg, Port.readReg, packStatus, packFfCtrl]
  | _ =>
    cases reg' <;>
      simp [Port.storeReg, Port.readReg, packStatus, packCfCtrl, packFfCtrl, writeCfCtrl, writeFfCtrl] at h ⊢

theorem not_readOnly_of_stored (r : Reg) (h : r ∈ storedRegs) : r.readOnly = false ∧ r ≠ .cmd := by
  cases r <;> simp_all [storedRegs, Reg.readOnly]

/-- Settles O12: the store changes the port alone, and each register reads a field of its own. -/
theorem idleWriteIsReadBackAndDisturbsNothing : Obligations.IdleWriteIsReadBackAndDisturbsNothing := by
  intro s p r v rest h hr hb
  obtain ⟨hro, hcmd⟩ := not_readOnly_of_stored r hr
  have hstep := step_memWrite_port s p r v rest h
  rw [writeReg_store _ _ _ _ hro hcmd (by rw [withSchedule_port, hb]), withSchedule_port] at hstep
  obtain ⟨hport, hframe⟩ := setPort_frame s p ((s.port p).storeReg r v) rest
  refine ⟨_, hstep, ?_, fun r' hne => ?_, ?_, hframe⟩ <;> rw [hport]
  · exact readReg_storeReg_same _ r v hr
  · exact readReg_storeReg_ne _ r r' v hne
  · exact (storeReg_fields _ r v).2.2.2

/-! ## What a step keeps -/

theorem step_rst (s : State) (rest : List Turn) (h : nextTurn s (.input .rst) rest) :
    step s = .next (State.rst { s with schedule := rest }) := step_of_input s _ rest h

/-- Settles O17: of the cases of a step none but RST clears an ILLEGAL bit. -/
theorem illegalStaysSetUntilReset : Obligations.IllegalStaysSetUntilReset := by
  constructor
  · intro s t p h hi hrst
    obtain ⟨l, ⟨_, ht⟩ | ⟨x, hl, ht⟩⟩ := step_next_cases s t h
    · obtain ⟨_, _, _, e⟩ := blockTurn_port_kept _ t p ht
      rw [e, withSchedule_port, hi]
    · have hx : x ≠ .rst := fun hx => hrst ⟨l, hx ▸ hl⟩
      exact inputPort_illegal (input_port _ t x p ht hx) (by simpa using hi)
  · rintro s p ⟨l, hl⟩
    exact ⟨_, step_rst s l hl, by rw [rst_port]; rfl⟩

theorem step_of_blockNext (s : State) (hb : blockNext s) : ∃ l, step s = blockTurn { s with schedule := l } := by
  rcases hb with hs | ⟨l, hs⟩
  · exact ⟨[], by rw [step_of_nil s hs, ← hs]⟩
  · exact ⟨l, step_of_block s l hs⟩

/-- Settles O20: a turn of the block is one segment of the active port. -/
theorem blockTurnTouchesOnlyTheIssuingPort : Obligations.BlockTurnTouchesOnlyTheIssuingPort := by
  intro s t hb h
  obtain ⟨l, e⟩ := step_of_blockNext s hb
  have ht : blockTurn { s with schedule := l } = .next t := e ▸ h
  refine ⟨fun q hq => ?_, ?_⟩
  · rw [blockTurn_port_ne _ t q ht hq, withSchedule_port]
  · simpa only [withSchedule_port] using blockTurn_port_kept _ t s.active ht

/-- Settles O22: no segment and no other input writes a field of the driver. -/
theorem onlyTheDriverWritesFlagsAndSpeeds : Obligations.OnlyTheDriverWritesFlagsAndSpeeds := by
  constructor
  · intro s t h hrst hdrv
    obtain ⟨l, ⟨_, ht⟩ | ⟨x, hl, ht⟩⟩ := step_next_cases s t h
    · exact blockTurn_driverFields { s with schedule := l } t ht
    · have hx : x ≠ .rst := fun hx => hrst ⟨l, hx ▸ hl⟩
      have hd : ∀ w, x ≠ .driverStatus w := fun w hw => hdrv ⟨w, l, hw ▸ hl⟩
      obtain ⟨_, _, _, _, hflags, hbus, hfd, hpin, _⟩ := input_shared _ t x ht hx hd
      exact ⟨hflags, hbus, hfd, hpin⟩
  · intro s x rest h
    rw [step_of_input s _ rest h]
    cases x <;> rfl

/-- Settles O25: a segment writes no operand, and a host write to a busy port is refused. -/
theorem busyPortKeepsItsOperands : Obligations.BusyPortKeepsItsOperands := by
  intro s t p h hrst hbusy
  obtain ⟨l, ⟨hb, ht⟩ | ⟨x, hl, ht⟩⟩ := step_next_cases s t h
  · obtain ⟨h0, h1, hh, _⟩ := blockTurn_port_kept _ t p ht
    rw [withSchedule_port] at h0 h1 hh
    exact ⟨h0, h1, hh, absurd hb⟩
  · have hx : x ≠ .rst := fun hx => hrst ⟨l, hx ▸ hl⟩
    obtain ⟨h0, h1, hh, hcf, hff⟩ := inputPort_busy (input_port _ t x p ht hx) (by simpa using hbusy)
    rw [withSchedule_port] at h0 h1 hh hcf hff
    exact ⟨h0, h1, hh, fun _ => ⟨hcf, hff⟩⟩

/-! ## Reset -/

theorem lslot_resetWith (pr : Params) (fr : FaultRecord) (out : List Output) (l : List Turn) (i : Fin 4) :
    (State.resetWith pr fr out l).lslot[i] = 0 := Vector.getElem_replicate ..

/-- Settles O26: RST and the reset state are both `State.resetWith`, whose ports are `Port.reset`. -/
theorem resetSetsEveryRegister : Obligations.ResetSetsEveryRegister := by
  have hport : ∀ (pr : Params) (fr : FaultRecord) (out : List Output) (l : List Turn) (p : PortId),
      (State.resetWith pr fr out l).port p = .reset := fun _ _ _ _ p => by cases p <;> rfl
  refine ⟨fun s rest h => ⟨_, step_rst s rest h, fun p => ?_, lslot_resetWith _ _ _ _, rfl, rfl, rfl, rfl, rfl, rfl,
    fun _ => rfl, rfl, rfl, rfl⟩, fun p => ?_, lslot_resetWith _ _ _ _, rfl, rfl, rfl, rfl, rfl, rfl, fun _ => rfl⟩
  · rw [rst_port]
    exact ⟨rfl, rfl, rfl, rfl, rfl, rfl, rfl, rfl, rfl⟩
  · rw [State.reset, hport]
    exact ⟨rfl, rfl, rfl, rfl, rfl, rfl, rfl, rfl, rfl⟩

/-! ## Answers and acknowledgements -/

/-- Settles O27: an answer or acknowledgement takes effect only where its tag is the outstanding one. -/
theorem lateAnswersAndAcknowledgementsAreIgnored : Obligations.LateAnswersAndAcknowledgementsAreIgnored := by
  constructor
  · intro s p tag a rest h hne
    rw [step_of_input s _ rest h, State.input, answer_ignored _ p tag a (by simpa using hne)]
  · intro s p tag rest h hne
    rw [step_of_input s _ rest h, State.input, acknowledge_ignored _ p tag (by simpa using hne)]

/-- An answer that the driver may give to the outstanding call enables the next segment, and changes nothing else. -/
theorem step_answer (s : State) (p : PortId) (w : Word) (tag : Nat) (c : DrvCall) (b : Bool) (k : AfterCall)
    (a : DrvAnswer) (g : Seg) (rest : List Turn) (h : nextTurn s (.input (.driverAnswer p tag a)) rest)
    (hs : (s.port p).seq = .run w (.call tag c b k)) (hg : c.segAfter k a = some g) (ha : a.allowed c b = true) :
    ∃ t, step s = .next t ∧ t.port p = { s.port p with seq := .run w (.ready g) } ∧ otherPortSame s t p ∧
      sharedSame s t ∧ t.out = s.out ∧ t.faults = s.faults ∧ t.schedule = rest := by
  refine ⟨_, ?_, setPhase_frame s p w _ (.ready g) rest hs⟩
  rw [step_of_input s _ rest h, State.input, answer_next _ p w tag c b k a g (by simpa using hs) hg ha]

/-- Settles O47: each answer that the statement lists is of its call's kind and allowed. -/
theorem transferAnswerEnablesTheNextSegment : Obligations.TransferAnswerEnablesTheNextSegment := by
  intro s p w tag c fdcap k a g rest h hs hcases
  have hanswer : c.segAfter k a = some g ∧ a.allowed c fdcap = true := by
    obtain ⟨f, b, rfl, rfl, rfl⟩ | ⟨f, b, rfl, rfl, hcap, rfl⟩ | ⟨n, f, rfl, rfl, rfl⟩ | ⟨n, f, rfl, rfl, hcap, rfl⟩ :=
      hcases
    · exact ⟨rfl, rfl⟩
    · exact ⟨rfl, by simpa [DrvAnswer.allowed] using hcap⟩
    · exact ⟨rfl, rfl⟩
    · exact ⟨rfl, by simpa [DrvAnswer.allowed] using hcap⟩
  obtain ⟨hg, ha⟩ := hanswer
  exact step_answer s p w tag c fdcap k a g rest h hs hg ha

/-- Settles O46: of the answers to an FD call R51(a) allows only 0 while FDCAP was 0. -/
theorem fdCallsWithoutCapabilityAnswerZero : Obligations.FdCallsWithoutCapabilityAnswerZero := by
  intro s t p w tag c k a rest h hs ht
  rw [step_of_input s _ rest h] at ht
  have hs' : (State.port { s with schedule := rest } p).seq = .run w (.call tag c false k) := by simpa using hs
  obtain ⟨g, hg, ha, rfl⟩ := answer_outstanding _ t p w tag c false k a hs' ht
  rw [setPhase_port_same _ p w _ _ hs']
  constructor
  · rintro f rfl
    cases a with
    | ok b =>
      obtain rfl : b = false := by simpa [DrvAnswer.allowed] using ha
      cases hg
      exact ⟨rfl, rfl⟩
    | _ => cases hg
  · rintro rfl
    cases a with
    | receivedFD n f =>
      obtain rfl : n = 0 := by simpa [DrvAnswer.allowed] using ha
      cases hg
      exact ⟨f, rfl, rfl⟩
    | _ => cases hg

/-- Settles O48: the segment after slot i is the next slot's, or after slot 3 the completing one. -/
theorem acknowledgementContinuesTheFanOut : Obligations.AcknowledgementContinuesTheFanOut := by
  intro s p w tag n v rest h hs
  obtain ⟨hport, hframe⟩ :=
    setPhase_frame s p w _ (.ready (Seg.afterSlot n.kind n.frame n.slot v)) rest hs
  refine ⟨_, _, ?_, hport, fun h3 => ?_, fun j hj => ?_, hframe⟩
  · rw [step_of_input s _ rest h, State.input, acknowledge_next _ p w tag n v (by simpa using hs)]
  · rw [h3]
    rfl
  · have hlt : n.slot.val + 1 < 4 := hj ▸ j.isLt
    obtain rfl : j = ⟨n.slot.val + 1, hlt⟩ := Fin.ext hj
    exact dif_pos hlt

/-- Settles O50: the value is what `State.readCallback` reads, and the read changes only the outputs. -/
theorem callbackReadPortReturnsTheTables : Obligations.CallbackReadPortReturnsTheTables := by
  intro s r rest hlen h
  refine ⟨s.readCallback r, ?_, ?_, ?_, ?_⟩
  · rw [step_of_input s _ rest h]
    cases r <;> rfl
  · rintro rfl
    rfl
  · rintro mb rfl
    refine ⟨fun hge => if_neg (by omega), fun hlt => ?_⟩
    simp [State.readCallback, State.cbRead, hlt, hlen]
  · rintro mb rfl
    refine ⟨fun hnone => if_neg ?_, fun c hlt hc hne => ?_⟩
    · rintro ⟨hlt, hne⟩
      rcases hnone with hge | hzero
      · omega
      · simp [hzero] at hne
    · have hget : s.cbmb.getD mb.toNat 0 = c := by simp [hc]
      rw [State.readCallback, State.cbSel, hget, if_pos ⟨hlt, hne⟩]

end Sys2Proof.Claims
end

section
/-! SUPPORT. The rank of a command (70_reset_and_hazards.md R197), and the packed registers as sums of their fields
(10_state.md R44, R45). -/

namespace Sys2Proof.Machine

/-! ## Rank -/

theorem seg_rank_pos (g : Seg) : 0 < g.rank := by
  cases g with
  | slot k f i v => exact Nat.sub_pos_of_lt (by omega)
  | _ => simp [Seg.rank]

theorem seg_rank_le (g : Seg) : g.rank ≤ 7 := by
  cases g with
  | slot k f i v => exact (Nat.sub_le 5 _).trans (by decide)
  | _ => simp [Seg.rank]

theorem phase_rank_le (ph : Phase) : ph.rank ≤ 7 := by
  cases ph with
  | ready g => exact seg_rank_le g
  | call tag c b k => exact (call_rank_lt tag c b k).le
  | notification tag n v => exact (Nat.sub_le 4 _).trans (by decide)

theorem seq_rank_le (q : Seq) : q.rank ≤ 7 := by
  cases q with
  | idle => exact Nat.zero_le 7
  | run w ph => exact phase_rank_le ph

/-- A segment brings its command strictly nearer its end. -/
theorem exec_rank_lt (i : Instr) (s t : State) (h : exec i s = .next t) :
    (t.port s.active).seq.rank < (s.port s.active).seq.rank := by
  obtain ⟨g, hg, rfl⟩ := exec_next i s t h
  obtain ⟨w, hs⟩ := (enabled_iff s g).1 hg
  obtain ⟨cf, ff, ⟨v, e⟩ | ⟨ph, hr, e⟩⟩ := runSeg_port_same i s _ w g hs <;> rw [e, hs]
  · exact seg_rank_pos g
  · exact hr

theorem setPhase_rank_le (s : State) (p q : PortId) (w : Word) (ph0 ph : Phase) (hs : (s.port p).seq = .run w ph0)
    (hr : ph.rank ≤ ph0.rank) : ((s.setPhase p ph).port q).seq.rank ≤ (s.port q).seq.rank := by
  by_cases hq : q = p
  · subst hq
    rw [setPhase_port_same s q w ph0 ph hs, hs]
    exact hr
  · rw [setPhase_port_ne s p q ph hq]

theorem answer_rank_le (s t : State) (p q : PortId) (tag : Nat) (a : DrvAnswer) (h : s.answer p tag a = .next t) :
    (t.port q).seq.rank ≤ (s.port q).seq.rank := by
  rcases answer_cases s t p tag a h with rfl | ⟨w, c, b, k, g, hs, hg, _, rfl⟩
  · exact le_rfl
  · exact setPhase_rank_le s p q w _ _ hs (segAfter_rank_le c k a g tag b hg)

theorem acknowledge_rank_le (s : State) (p q : PortId) (tag : Nat) :
    ((s.acknowledge p tag).port q).seq.rank ≤ (s.port q).seq.rank := by
  rcases acknowledge_cases s p tag with e | ⟨w, n, v, hs, e⟩ <;> rw [e]
  exact setPhase_rank_le s p q w _ _ hs (afterSlot_rank_le n tag v)

/-! ## The block's turn -/

theorem blockTurn_waiting (s : State) (p : PortId) (h : s.fetch = .waiting p) : blockTurn s = .fault (.stuck p) := by
  simp [blockTurn, h]

theorem blockTurn_nothing (s : State) (h : s.fetch = .nothing) : blockTurn s = .next s := by
  simp [blockTurn, h]

theorem fetch_call (s : State) (w : Word) (tag : Nat) (c : DrvCall) (b : Bool) (k : AfterCall)
    (h : (s.port s.active).seq = .run w (.call tag c b k)) : s.fetch = .waiting s.active := by
  simp [State.fetch, h]

theorem fetch_notification (s : State) (w : Word) (tag : Nat) (n : Notification) (v : Word)
    (h : (s.port s.active).seq = .run w (.notification tag n v)) : s.fetch = .waiting s.active := by
  simp [State.fetch, h]

theorem fetch_quiescent (s : State) (h : s.quiescent) : s.fetch = .nothing := by
  simp [State.fetch, quiescent_seq s h]

/-- The turn that `latchWord` gives the block is taken from the state of the issue. -/
theorem latchWord_withSchedule (s : State) (w : Word) :
    { s.latchWord w with schedule := s.schedule } = s.issue s.active w := by
  have h := issue_schedule s s.active w
  rw [State.latchWord, ← h]

/-! ## Packed registers -/

theorem toNat_append_add {m n : Nat} (x : BitVec m) (y : BitVec n) :
    (x ++ y).toNat = x.toNat * 2 ^ n + y.toNat := by
  rw [BitVec.toNat_append, ← Nat.shiftLeft_add_eq_or_of_lt y.isLt, Nat.shiftLeft_eq]

theorem packStatus_toNat (p : Port) :
    (packStatus p).toNat = (if p.busy then 1 else 0) + (if p.illegal then 2 else 0) := by
  cases hb : p.busy <;> cases hi : p.illegal <;> simp [packStatus, hb, hi]

theorem packCaps_toNat (f : Flags) :
    (packCaps f).toNat = (if f.faulted then 1 else 0) + (if f.rxFault then 2 else 0) + (if f.txFault then 4 else 0) +
      (if f.fdcap then 8 else 0) := by
  obtain ⟨a, b, c, d⟩ := f
  cases a <;> cases b <;> cases c <;> cases d <;> rfl

theorem packCfCtrl_toNat (f : ClassicFrame) :
    (packCfCtrl f).toNat = (if f.rtr then 1 else 0) + (if f.ext then 2 else 0) + f.priority.toNat * 2 ^ 8 +
      f.length.toNat * 2 ^ 16 := by
  simp only [packCfCtrl, toNat_append_add, BitVec.toNat_ofBool]
  cases f.rtr <;> cases f.ext <;> simp <;> omega

theorem packFfCtrl_toNat (f : FdFrame) :
    (packFfCtrl f).toNat = (if f.rrs then 1 else 0) + (if f.ext then 2 else 0) + (if f.fdMode then 4 else 0) +
      f.priority.toNat * 2 ^ 8 + f.length.toNat * 2 ^ 16 := by
  simp only [packFfCtrl, toNat_append_add, BitVec.toNat_ofBool]
  cases f.rrs <;> cases f.ext <;> cases f.fdMode <;> simp <;> omega

end Sys2Proof.Machine
end

section
/-! SUPPORT. The obligations on the block's turn, the register map, the rank, and the calls and completions of single
segments. -/

namespace Sys2Proof.Claims

open Sys2Proof.Machine

/-! ## The block's turn -/

/-- Settles O5: the turn fetches the latched word's command, and `latchWord` places a word as the issue does. -/
theorem stepRunsTheLatchedCommand : Obligations.StepRunsTheLatchedCommand := by
  constructor
  · intro s w g i hs hd
    have hf := fetch_command s w g i hs hd
    refine ⟨fun hn => ?_, fun rest hn => ?_⟩
    · rw [step_of_nil s hn, blockTurn_command s i hf]
    · rw [step_of_block s rest hn, blockTurn_command _ i (by rw [withSchedule_fetch, hf])]
  · intro s w i hd
    have hw : s.withFetchWord 32 w.toNat = s.latchWord w := by
      rw [State.withFetchWord, Nat.mod_eq_of_lt w.isLt, BitVec.ofNat_toNat, BitVec.setWidth_eq]
    have hseq : ((s.issue s.active w).port (s.issue s.active w).active).seq = .run w (.ready .first) := by
      rw [active_issue, issue_port_same]
    refine ⟨?_, enabled_issue s w⟩
    rw [hw, step_of_block _ s.schedule rfl, latchWord_withSchedule,
      blockTurn_command _ i (fetch_command _ w _ i hseq hd)]

/-- Settles O6: the turn finds the active port waiting, or both ports idle. -/
theorem blockWithoutAnEnabledSegmentDoesNothing : Obligations.BlockWithoutAnEnabledSegmentDoesNothing := by
  refine ⟨fun s w tag c b k hb hs => ?_, fun s w tag n v hb hs => ?_, fun s rest hq hn => ?_, fun s hq hn => ?_⟩
  · obtain ⟨l, e⟩ := step_of_blockNext s hb
    rw [e, blockTurn_waiting _ s.active (by rw [withSchedule_fetch, fetch_call s w tag c b k hs])]
  · obtain ⟨l, e⟩ := step_of_blockNext s hb
    rw [e, blockTurn_waiting _ s.active (by rw [withSchedule_fetch, fetch_notification s w tag n v hs])]
  · rw [step_of_block s rest hn, blockTurn_nothing _ (by rw [withSchedule_fetch, fetch_quiescent s hq])]
  · rw [step_of_nil s hn, blockTurn_nothing s (fetch_quiescent s hq)]

/-! ## The register map -/

/-- Settles O11: the map is a finite table, and a packed register is the sum of its fields at their places. -/
theorem registerMapIsThatOfTheTables : Obligations.RegisterMapIsThatOfTheTables := by
  refine ⟨by decide, by decide, ⟨rfl, rfl⟩, packStatus_toNat, fun r => packCfCtrl_toNat r.cf,
    fun r => packFfCtrl_toNat r.ff, fun s => packCaps_toNat s.flags, fun s => ?_, fun s hle => ?_,
    fun r => ⟨rfl, rfl, rfl, rfl, rfl⟩, fun r => ⟨rfl, rfl, rfl⟩, fun r => ⟨rfl, rfl, rfl⟩, fun s => ⟨rfl, rfl⟩⟩
  · exact BitVec.toNat_setWidth_of_le (by decide)
  · exact Nat.mod_eq_of_lt (by omega)

/-! ## Rank -/

/-- Settles O28: the rank falls with every segment, and neither an answer nor an acknowledgement raises it. -/
theorem everySegmentBringsTheCommandNearerItsEnd : Obligations.EverySegmentBringsTheCommandNearerItsEnd :=
  ⟨exec_rank_lt, fun s t p tag a h q => answer_rank_le s t p q tag a h, acknowledge_rank_le, fun _ _ => seq_rank_le _⟩

/-! ## Single segments -/

theorem completes_complete (s : State) (v : Word) : completes s (s.complete s.active v) v :=
  ⟨complete_port_same .., fun q hq => complete_port_ne s _ q v hq,
    by simp [sharedSame, callbacksSame, driverFieldsSame], by simp [quiet]⟩

/-- Settles O32: a status enables the segment that follows its call, and the last segment completes with it. -/
theorem filterCommandsCompleteWithTheDriversStatus : Obligations.FilterCommandsCompleteWithTheDriversStatus := by
  refine ⟨fun i s v _ hg => ⟨_, exec_of_enabled i s _ hg, completes_complete s v⟩, ?_, ?_⟩
  · rintro s p w tag c b v rest h hs (⟨id, mask, x, rfl⟩ | ⟨mb, id, mask, x, rfl⟩) <;>
      exact step_answer s p w tag _ b .last (.status v) (.finish v) rest h hs rfl rfl
  · intro s p w tag id mask x b s1 rest h hs
    exact step_answer s p w tag _ b _ (.status s1) (.secondInstall s1) rest h hs rfl rfl

/-- The same as `calls_callDriver` for a segment that consumes the frame it passes (60_exceptions.md R161). -/
theorem callsWith_consumeCall (s : State) (g : Seg) (f : Frame) (c : DrvCall) (k : AfterCall)
    (h : s.enabled = some g) :
    callsWith s ((s.consumeFrame f).callDriver s.active c k) c k (s.consumeFrame f).faults := by
  have h' : (s.consumeFrame f).enabled = some g := by simpa [enabled_iff] using h
  simpa [calls, callsWith, atPhase, otherPortSame, sharedSame, callbacksSame, driverFieldsSame] using
    calls_callDriver (s.consumeFrame f) g c k h'

/-- Settles O40: the first segment of each transfer command is its driver call, SEND and SENDFD consuming the frame. -/
theorem transferCommandsMakeTheirDriverCall : Obligations.TransferCommandsMakeTheirDriverCall := fun s hg =>
  ⟨⟨_, exec_first .send s hg, callsWith_consumeCall s _ (.classic (s.port s.active).cf) _ _ hg⟩,
    ⟨_, exec_first .sendFd s hg, callsWith_consumeCall s _ (.fd (s.port s.active).ff) _ _ hg⟩,
    ⟨_, exec_first .recv s hg, calls_callDriver s _ _ _ hg⟩, ⟨_, exec_first .recvFd s hg, calls_callDriver s _ _ _ hg⟩⟩

end Sys2Proof.Claims
end

section
/-! SUPPORT. Executions without end (20_memory.md R74): the invariant and the cases of a step hold at every point of one.
A command that never ends comes, from some point on, no nearer its end either, which the fairness premises of
70_reset_and_hazards.md R198 exclude. -/

namespace Sys2Proof.Machine

/-! ## One step of a sequencer -/

theorem seqStep_rank_le {act p : PortId} {q q' : Seq} {x : Turn} (h : SeqStep act q p x q') (hne : q ≠ .idle) :
    q'.rank ≤ q.rank := by
  cases h with
  | same => exact le_rfl
  | reset => exact Nat.zero_le _
  | issued w hs => exact absurd hs hne
  | ended => exact Nat.zero_le _
  | segment w g ph _ _ hs hr => rw [hs]; exact hr.le
  | answered w tag c b k a g _ hs hr => rw [hs]; exact hr
  | acknowledged w tag n v g _ hs hr => rw [hs]; exact hr

/-- A sequencer that comes no nearer its end stays, or goes from a suspension to the segment it enables. -/
theorem seqStep_stalled {act p : PortId} {q q' : Seq} {x : Turn} (h : SeqStep act q p x q') (hne : q ≠ .idle)
    (hne' : q' ≠ .idle) (hr : q'.rank = q.rank) :
    q' = q ∨ (∀ w g, q ≠ .run w (.ready g)) ∧ ∃ w g, q' = .run w (.ready g) := by
  cases h with
  | same => exact .inl rfl
  | reset => exact absurd rfl hne'
  | issued w hs => exact absurd hs hne
  | ended => exact absurd rfl hne'
  | segment w g ph _ _ hs hlt =>
    rw [hs] at hr
    exact absurd hr hlt.ne
  | answered w tag c b k a g _ hs => exact .inr ⟨by simp [hs], w, g, rfl⟩
  | acknowledged w tag n v g _ hs => exact .inr ⟨by simp [hs], w, g, rfl⟩

/-- A call waits until its answer or RST. -/
theorem seqStep_call {act p : PortId} {w : Word} {tag : Nat} {c : DrvCall} {b : Bool} {k : AfterCall} {x : Turn}
    {q' : Seq} (h : SeqStep act (.run w (.call tag c b k)) p x q') (ha : ¬ x.answers p tag) (hr : x ≠ .input .rst) :
    q' = .run w (.call tag c b k) := by
  cases h with
  | same => rfl
  | reset hx => exact absurd hx hr
  | answered w' tag' c' b' k' a g hx hs =>
    cases hs
    exact absurd ⟨a, hx⟩ ha
  | issued _ hs | ended _ _ _ _ hs | segment _ _ _ _ _ hs | acknowledged _ _ _ _ _ _ hs => cases hs

/-- A notification waits until its acknowledgement or RST. -/
theorem seqStep_notification {act p : PortId} {w : Word} {tag : Nat} {n : Notification} {v : Word} {x : Turn} {q' : Seq}
    (h : SeqStep act (.run w (.notification tag n v)) p x q') (ha : x ≠ .input (.listenerAck p tag))
    (hr : x ≠ .input .rst) : q' = .run w (.notification tag n v) := by
  cases h with
  | same => rfl
  | reset hx => exact absurd hx hr
  | acknowledged w' tag' n' v' g hx hs =>
    cases hs
    exact absurd hx ha
  | issued _ hs | ended _ _ _ _ hs | segment _ _ _ _ _ hs | answered _ _ _ _ _ _ _ _ hs => cases hs

/-- A command ends only by RST or in a turn of the block while its port is the active one. -/
theorem seqStep_idle {act p : PortId} {q : Seq} {x : Turn} (h : SeqStep act q p x .idle) :
    q = .idle ∨ x = .input .rst ∨ act = p := by
  cases h with
  | same => exact .inl rfl
  | reset hx => exact .inr (.inl hx)
  | ended w g _ ha => exact .inr (.inr ha)

theorem active_of_isr_ne (s : State) (h : s.isr.seq ≠ .idle) : s.active = .isr := by
  cases hs : s.isr.seq with
  | idle => exact absurd hs h
  | run w ph => simp [State.active, hs, Seq.isRun]

theorem active_of_isr_idle (s : State) (h : s.isr.seq = .idle) : s.active = .app := by
  simp [State.active, h, Seq.isRun]

/-! ## The step that ends a wait -/

/-- The answer to the outstanding call enables the next segment. -/
theorem step_answered (s t : State) (p : PortId) (w : Word) (tag : Nat) (c : DrvCall) (b : Bool) (k : AfterCall)
    (x : Turn) (hs : (s.port p).seq = .run w (.call tag c b k)) (hx : x.answers p tag)
    (h : step { s with schedule := [x] } = .next t) : ∃ g, (t.port p).seq = .run w (.ready g) := by
  obtain ⟨a, rfl⟩ := hx
  have hs' : (State.port { s with schedule := [] } p).seq = .run w (.call tag c b k) := by simpa using hs
  obtain ⟨g, _, _, rfl⟩ := answer_outstanding _ t p w tag c b k a hs' h
  exact ⟨g, by rw [setPhase_port_same _ p w _ _ hs']⟩

/-- The acknowledgement of the outstanding notification enables the next segment. -/
theorem step_acknowledged (s t : State) (p : PortId) (w : Word) (tag : Nat) (n : Notification) (v : Word)
    (hs : (s.port p).seq = .run w (.notification tag n v))
    (h : step { s with schedule := [.input (.listenerAck p tag)] } = .next t) :
    ∃ g, (t.port p).seq = .run w (.ready g) := by
  have hs' : (State.port { s with schedule := [] } p).seq = .run w (.notification tag n v) := by simpa using hs
  cases h
  exact ⟨_, by rw [acknowledge_next _ p w tag n v hs', setPhase_port_same _ p w _ _ hs']⟩

theorem step_reset_idle (s t : State) (p : PortId) (h : step { s with schedule := [.input .rst] } = .next t) :
    (t.port p).seq = .idle := by
  cases h
  exact congrArg Port.seq (rst_port _ p)

theorem seq_idle_of_fetch_nothing (s : State) (h : s.fetch = .nothing) : (s.port s.active).seq = .idle := by
  unfold State.fetch at h
  split at h
  · assumption
  · split at h <;> cases h
  · cases h
  · cases h

/-- A turn of the block that finds a segment it may run brings the command nearer its end. -/
theorem step_block_rank_lt (s t : State) (p : PortId) (hm : s.mayRun p)
    (h : step { s with schedule := [.block] } = .next t) : (t.port p).seq.rank < (s.port p).seq.rank := by
  obtain ⟨rfl, hen⟩ := hm
  have ht : blockTurn { s with schedule := [] } = .next t := h
  rcases blockTurn_next _ t ht with ⟨hf, _⟩ | ⟨i, g, hf, _⟩
  · obtain ⟨g, hg⟩ := Option.isSome_iff_exists.1 hen
    obtain ⟨w, hs⟩ := (enabled_iff s g).1 hg
    rw [withSchedule_fetch] at hf
    rw [seq_idle_of_fetch_nothing s hf] at hs
    cases hs
  · rw [blockTurn_command _ i hf] at ht
    simpa using exec_rank_lt i _ t ht

/-! ## Every point of an execution -/

section
variable {states : Nat → State} {turns : Nat → Turn}

theorem execution_inv (hinv : (states 0).Inv) (hex : isExecution states turns) (n : Nat) : (states n).Inv := by
  induction n with
  | zero => exact hinv
  | succ n ih => exact inv_step _ _ (inv_withSchedule _ [turns n] ih) (hex n)

theorem execution_seq (hinv : (states 0).Inv) (hex : isExecution states turns) (p : PortId) (n : Nat) :
    SeqStep (states n).active ((states n).port p).seq p (turns n) ((states (n + 1)).port p).seq :=
  step_seq _ _ p (turns n) (State.Inv.port _ (execution_inv hinv hex n) p).busy_iff_run (hex n)

/-- From the point `n` on the command of port `p` neither ends nor comes nearer its end. -/
def stalledFrom (states : Nat → State) (p : PortId) (n : Nat) : Prop :=
  ∀ m, n ≤ m → ((states m).port p).seq ≠ .idle ∧ ((states m).port p).seq.rank = ((states n).port p).seq.rank

theorem stalledFrom_later {p : PortId} {n m : Nat} (h : stalledFrom states p n) (hm : n ≤ m) : stalledFrom states p m :=
  fun j hj => ⟨(h j (hm.trans hj)).1, (h j (hm.trans hj)).2.trans (h m hm).2.symm⟩

/-- A command that never ends is stalled from some point on: its rank, which never rises, has a least value. -/
theorem exists_stalledFrom (hinv : (states 0).Inv) (hex : isExecution states turns) (p : PortId) (n : Nat)
    (h : ∀ m, n ≤ m → ((states m).port p).seq ≠ .idle) : ∃ m, n ≤ m ∧ stalledFrom states p m := by
  obtain ⟨m, hm, hmin⟩ := (measure fun m => ((states m).port p).seq.rank).wf.has_min {m | n ≤ m} ⟨n, le_refl n⟩
  have hle : ∀ j, m ≤ j → ((states j).port p).seq.rank ≤ ((states m).port p).seq.rank := by
    intro j hj
    induction j, hj using Nat.le_induction with
    | base => exact le_rfl
    | succ j hj ih => exact (seqStep_rank_le (execution_seq hinv hex p j) (h j (hm.trans hj))).trans ih
  exact ⟨m, hm, fun j hj => ⟨h j (hm.trans hj), le_antisymm (hle j hj) (not_lt.1 (hmin j (hm.trans hj)))⟩⟩

/-- A stalled sequencer whose next segment is enabled stands still. -/
theorem stalledFrom_ready (hinv : (states 0).Inv) (hex : isExecution states turns) {p : PortId} {n : Nat} {w : Word}
    {g : Seg} (h : stalledFrom states p n) (hs : ((states n).port p).seq = .run w (.ready g)) (m : Nat) (hm : n ≤ m) :
    ((states m).port p).seq = .run w (.ready g) := by
  induction m, hm using Nat.le_induction with
  | base => exact hs
  | succ m hm ih =>
    obtain ⟨hne, hr⟩ := h m hm
    obtain ⟨hne', hr'⟩ := h (m + 1) (by omega)
    rcases seqStep_stalled (execution_seq hinv hex p m) hne hne' (hr'.trans hr.symm) with e | ⟨hnot, _⟩
    · rw [e, ih]
    · exact absurd ih (hnot w g)

/-- A stalled APP command never has its next segment enabled: the block would run it while ISR is idle. -/
theorem stalledFrom_not_ready (hinv : (states 0).Inv) (hex : isExecution states turns)
    (hisr : isrDoesNotRunForever states) (htaken : enabledSegmentsAreTaken states turns) {n : Nat}
    (h : stalledFrom states .app n) (w : Word) (g : Seg) : ((states n).port .app).seq ≠ .run w (.ready g) := by
  intro hs
  have hready := stalledFrom_ready hinv hex h hs
  have hmay : ∀ j, ∃ m, j ≤ m ∧ (states m).mayRun .app := by
    intro j
    obtain ⟨m, hm, hidle⟩ := hisr (max n j)
    have ha := active_of_isr_idle _ hidle
    have hen := enabled_of_seq (states m) w g (by rw [ha]; exact hready m (by omega))
    exact ⟨m, by omega, ha, by rw [hen]; rfl⟩
  obtain ⟨m, hm, hrun, hblock⟩ := htaken .app hmay n
  have hlt := step_block_rank_lt _ _ .app hrun (hblock ▸ hex m)
  rw [(h m hm).2, (h (m + 1) (by omega)).2] at hlt
  exact lt_irrefl _ hlt

/-- A stalled APP command stands still at a suspension. -/
theorem stalledFrom_constant (hinv : (states 0).Inv) (hex : isExecution states turns)
    (hisr : isrDoesNotRunForever states) (htaken : enabledSegmentsAreTaken states turns) {n : Nat}
    (h : stalledFrom states .app n) (m : Nat) (hm : n ≤ m) :
    ((states m).port .app).seq = ((states n).port .app).seq := by
  induction m, hm using Nat.le_induction with
  | base => rfl
  | succ m hm ih =>
    obtain ⟨hne, hr⟩ := h m hm
    obtain ⟨hne', hr'⟩ := h (m + 1) (by omega)
    rcases seqStep_stalled (execution_seq hinv hex .app m) hne hne' (hr'.trans hr.symm) with e | ⟨_, w, g, e⟩
    · rw [e, ih]
    · exact absurd e (stalledFrom_not_ready hinv hex hisr htaken (stalledFrom_later h (by omega)) w g)

/-- Under the fairness premises no APP command is stalled: its suspension ends, and then its segment is enabled. -/
theorem not_stalledFrom_app (hinv : (states 0).Inv) (hex : isExecution states turns)
    (hans : driverAnswersEveryCall states turns) (hack : listenersAcknowledgeEveryNotification states turns)
    (hisr : isrDoesNotRunForever states) (htaken : enabledSegmentsAreTaken states turns) (n : Nat) :
    ¬ stalledFrom states .app n := by
  intro h
  have hconst := stalledFrom_constant hinv hex hisr htaken h
  have hready : ∀ m, n ≤ m → ¬ ∃ w g, ((states m).port .app).seq = .run w (.ready g) := fun m hm ⟨w, g, e⟩ =>
    stalledFrom_not_ready hinv hex hisr htaken (stalledFrom_later h hm) w g e
  have hrst : ∀ m, n ≤ m → turns m ≠ .input .rst := fun m hm e =>
    (h (m + 1) (by omega)).1 (step_reset_idle _ _ .app (e ▸ hex m))
  cases hs : ((states n).port .app).seq with
  | idle => exact (h n le_rfl).1 hs
  | run w ph =>
    cases ph with
    | ready g => exact hready n le_rfl ⟨w, g, hs⟩
    | call tag c b k =>
      obtain ⟨m, hm, hx | hx⟩ := hans n .app tag ⟨w, c, b, k, hs⟩
      · obtain ⟨g, e⟩ := step_answered _ _ .app w tag c b k _ ((hconst m hm).trans hs) hx (hex m)
        exact hready (m + 1) (by omega) ⟨w, g, e⟩
      · exact hrst m hm hx
    | notification tag nf v =>
      obtain ⟨m, hm, hx | hx⟩ := hack n .app tag ⟨w, nf, v, hs⟩
      · obtain ⟨g, e⟩ := step_acknowledged _ _ .app w tag nf v ((hconst m hm).trans hs) (hx ▸ hex m)
        exact hready (m + 1) (by omega) ⟨w, g, e⟩
      · exact hrst m hm hx

end
end Sys2Proof.Machine
end

section
/-! SUPPORT. The obligations on executions without end (70_reset_and_hazards.md R198). -/

namespace Sys2Proof.Claims

open Sys2Proof.Machine

/-- Settles O57: for ISR it is the third premise; an APP command that never ended would be stalled at some point. -/
theorem fairExecutionsEndEveryCommand : Obligations.FairExecutionsEndEveryCommand := by
  intro states turns hinv hex hans hack hisr htaken p n
  cases p with
  | isr => exact hisr n
  | app =>
    by_contra hno
    have hrun : ∀ m, n ≤ m → ((states m).port .app).seq ≠ .idle := fun m hm e => hno ⟨m, hm, e⟩
    obtain ⟨m, _, hstalled⟩ := exists_stalledFrom hinv hex .app n hrun
    exact not_stalledFrom_app hinv hex hans hack hisr htaken m hstalled

/-- Settles O58: without RST a wait ends only by its own answer or acknowledgement, and an APP command ends only in a
step where APP is the active port. -/
theorem unansweredCommandsNeverEnd : Obligations.UnansweredCommandsNeverEnd := by
  intro states turns n hinv hex hrst
  have hseq := execution_seq hinv hex
  refine ⟨fun p tag hwait hno m hm => ?_, fun p tag hwait hno m hm => ?_, fun hrun hisr m hm => ?_⟩ <;>
    induction m, hm using Nat.le_induction
  case refine_1.base | refine_2.base => exact hwait
  case refine_3.base => exact hrun
  case refine_1.succ m hm ih =>
    obtain ⟨w, c, b, k, hs⟩ := ih
    exact ⟨w, c, b, k, seqStep_call (hs ▸ hseq p m) (hno m hm) (hrst m hm)⟩
  case refine_2.succ m hm ih =>
    obtain ⟨w, nf, v, hs⟩ := ih
    exact ⟨w, nf, v, seqStep_notification (hs ▸ hseq p m) (hno m hm) (hrst m hm)⟩
  case refine_3.succ m hm ih =>
    intro hidle
    have hstep := hseq .app m
    rw [show ((states (m + 1)).port .app).seq = .idle from hidle] at hstep
    rcases seqStep_idle hstep with h | h | h
    · exact ih h
    · exact hrst m hm h
    · rw [active_of_isr_ne _ (hisr m hm)] at h
      cases h

end Sys2Proof.Claims
end

section
/-! SUPPORT. The decoder on encoded commands (30_encoding.md R84, R94), and the run of a fan-out (42_dispatch.md R126),
whatever the other port does: from the segment of slot j on, with each notification acknowledged when it is sent, to the
completion. -/

namespace Sys2Proof.Machine

open Sys2Proof.Claims

/-! ## Encoded commands -/

theorem toNat_ofNat_of_fits {n : Nat} (h : mailboxIndexFits n = true) : (BitVec.ofNat 8 n).toNat = n :=
  Nat.mod_eq_of_lt (of_decide_eq_true h)

/-- The decoder reads each field of the encoding as the command's own. -/
theorem decode_encode (i : Instr) (h : i.wellFormed = true) : decode (encode i) = .ok i := by
  have hdec : decode (encode i) = decodeFields i.opcode (BitVec.ofNat 8 i.mailbox) i.extendedFlag := by
    simp [decode]
  rw [hdec]
  cases i with
  | setFilter x => rfl
  | setFilterMb n x => exact congrArg (Except.ok ∘ (Instr.setFilterMb · x)) (toNat_ofNat_of_fits h)
  | lMbOn n => exact congrArg (Except.ok ∘ Instr.lMbOn) (toNat_ofNat_of_fits h)
  | lMbOff n => exact congrArg (Except.ok ∘ Instr.lMbOff) (toNat_ofNat_of_fits h)
  | lActive n => exact congrArg (Except.ok ∘ Instr.lActive) (toNat_ofNat_of_fits h)
  | cbSet n => exact congrArg (Except.ok ∘ Instr.cbSet) (toNat_ofNat_of_fits h)
  | cbClr n => exact congrArg (Except.ok ∘ Instr.cbClr) (toNat_ofNat_of_fits h)
  | _ => rfl

theorem isLegal_of_decode {w : Word} {i : Instr} (h : decode w = .ok i) : isLegal w = true := by
  simp [isLegal, h]

/-! ## A command that goes on -/

/-- The state in which the command `w` of port `p` has come to the phase `ph` and so far changed nothing else since `s`:
the block has shown `os`, and the steps `l` are still to come. -/
def State.moved (s : State) (p : PortId) (w : Word) (ph : Phase) (os : List Output) (l : List Turn) : State :=
  State.setPort { s with out := s.out ++ os, schedule := l } p { s.port p with seq := .run w ph }

/-- The state in which that command has completed with `v`. -/
def State.ended (s : State) (p : PortId) (v : Word) (os : List Output) (l : List Turn) : State :=
  State.complete { s with out := s.out ++ os, schedule := l } p v

section
variable {s : State} {p : PortId} {w : Word} {ph ph0 : Phase} {os : List Output} {l : List Turn}

@[simp] theorem moved_port_same : (s.moved p w ph os l).port p = { s.port p with seq := .run w ph } :=
  port_setPort_same ..

@[simp] theorem moved_lslot : (s.moved p w ph os l).lslot = s.lslot := setPort_lslot ..

@[simp] theorem moved_out : (s.moved p w ph os l).out = s.out ++ os := setPort_out ..

@[simp] theorem moved_schedule : (s.moved p w ph os l).schedule = l := setPort_schedule ..

theorem moved_withSchedule (l' : List Turn) : { s.moved p w ph os l with schedule := l' } = s.moved p w ph os l' := by
  cases p <;> rfl

theorem moved_setPhase (ph' : Phase) : (s.moved p w ph os l).setPhase p ph' = s.moved p w ph' os l := by
  cases p <;> rfl

/-- The port of a command that goes on stays the active one. -/
theorem moved_active (hs : (s.port p).seq = .run w ph0) : (s.moved p w ph os l).active = s.active := by
  refine active_eq_of_isr_seq s _ ?_
  cases p with
  | app => rfl
  | isr => exact (congrArg Seq.isRun hs).symm

/-- The completion leaves no trace of the phase. -/
theorem moved_ended (os' : List Output) (l' : List Turn) (v : Word) :
    (s.moved p w ph os l).ended p v os' l' = s.ended p v (os ++ os') l' := by
  cases p <;> simp [State.ended, State.moved, State.complete, State.setPort, State.port]

theorem setPhase_eq_moved (hs : (s.port p).seq = .run w ph0) (ph : Phase) (l : List Turn) :
    State.setPhase { s with schedule := l } p ph = s.moved p w ph [] l := by
  rw [setPhase_eq_setPort _ p w ph0 ph (by simpa using hs), withSchedule_port, State.moved, List.append_nil]

theorem notifyListener_eq_moved (hs : (s.port p).seq = .run w ph0) (n : Notification) (v : Word) (l : List Turn) :
    State.notifyListener { s with schedule := l } p n v =
      s.moved p w (.notification s.out.length n v) [.notification p n] l := by
  have e : State.emit { s with schedule := l } (.notification p n) =
      { s with out := s.out ++ [.notification p n], schedule := l } := rfl
  have hp : State.port { s with out := s.out ++ [.notification p n], schedule := l } p = s.port p := by
    cases p <;> rfl
  rw [State.notifyListener, e, setPhase_eq_setPort _ p w ph0 _ (by rw [hp, hs]), hp, State.moved]

/-! ## One slot of the fan-out -/

/-- A turn of the block runs the segment that the active port stands at. -/
theorem step_block_segment {i : Instr} {g : Seg} (hd : decode w = .ok i)
    (hs : (s.port s.active).seq = .run w (.ready g)) (hl : s.schedule = .block :: l) :
    step s = .next
      (State.runSeg { s with schedule := l } s.active (firstSegment i { s with schedule := l } s.active) g) := by
  rw [step_of_block s l hl, blockTurn_command _ i (by rw [withSchedule_fetch, fetch_command s w g i hs hd]),
    exec_of_enabled i _ g (by rw [withSchedule_enabled, enabled_of_seq s w g hs])]
  rfl

/-- The fan-out's position with slot `j` next: its segment, or after slot 3 the completing one. -/
def Seg.atSlot (k : Kind) (f : Frame) (j : Nat) (v : Word) : Seg := if h : j < 4 then .slot k f ⟨j, h⟩ v else .finish v

theorem afterSlot_eq_atSlot (k : Kind) (f : Frame) (i : Fin 4) (v : Word) :
    Seg.afterSlot k f i v = Seg.atSlot k f (i.val + 1) v := rfl

/-- The notification of the handle in slot `i`. -/
def slotNotification (k : Kind) (f : Frame) (ls : Vector Word 4) (i : Fin 4) : Notification :=
  { kind := k, slot := i, handle := ls[i], frame := f }

/-- The notifications of the slots from `j` on that are not empty, in index order. -/
def fanOutputsFrom (p : PortId) (k : Kind) (f : Frame) (ls : Vector Word 4) (j : Nat) : List Output :=
  ((List.finRange 4).drop j).filterMap fun i =>
    if ls[i] = 0 then none else some (.notification p (slotNotification k f ls i))

theorem fanOutputsFrom_zero (p : PortId) (k : Kind) (f : Frame) (ls : Vector Word 4) :
    fanOutputsFrom p k f ls 0 = fanOutputs p k f ls := rfl

theorem fanOutputsFrom_of_ge (p : PortId) (k : Kind) (f : Frame) (ls : Vector Word 4) {j : Nat} (hj : 4 ≤ j) :
    fanOutputsFrom p k f ls j = [] := by
  rw [fanOutputsFrom, List.drop_eq_nil_of_le (by simpa using hj), List.filterMap_nil]

theorem fanOutputsFrom_of_lt (p : PortId) (k : Kind) (f : Frame) (ls : Vector Word 4) {j : Nat} (hj : j < 4) :
    fanOutputsFrom p k f ls j =
      (if ls[j] = 0 then [] else [.notification p (slotNotification k f ls ⟨j, hj⟩)]) ++
        fanOutputsFrom p k f ls (j + 1) := by
  have hdrop : (List.finRange 4).drop j = ⟨j, hj⟩ :: (List.finRange 4).drop (j + 1) := by
    rw [List.drop_eq_getElem_cons (by simpa using hj)]
    simp
  rw [fanOutputsFrom, hdrop, List.filterMap_cons]
  by_cases h0 : ls[j] = 0
  · simp only [Fin.getElem_fin, h0, if_true]
    rfl
  · simp only [Fin.getElem_fin, h0, if_false]
    rfl

theorem drop_toList_of_ge (ls : Vector Word 4) {j : Nat} (hj : 4 ≤ j) : ls.toList.drop j = [] :=
  List.drop_eq_nil_of_le (by simpa using hj)

theorem drop_toList_of_lt (ls : Vector Word 4) {j : Nat} (hj : j < 4) :
    ls.toList.drop j = ls[j] :: ls.toList.drop (j + 1) := by
  rw [List.drop_eq_getElem_cons (by simpa using hj)]
  simp

variable {i : Instr} {k : Kind} {f : Frame} {v : Word}

theorem step_emptySlot (hd : decode w = .ok i) {j : Nat} (hj : j < 4)
    (hs : (s.port s.active).seq = .run w (.ready (Seg.atSlot k f j v))) (h0 : s.lslot[j] = 0)
    (hl : s.schedule = .block :: l) : step s = .next (s.moved s.active w (.ready (Seg.atSlot k f (j + 1) v)) [] l) := by
  rw [step_block_segment hd hs hl, ← setPhase_eq_moved hs]
  simp only [Seg.atSlot, hj, dif_pos, State.runSeg, State.slotSegment, Fin.getElem_fin, h0, if_true,
    afterSlot_eq_atSlot]

theorem step_occupiedSlot (hd : decode w = .ok i) {j : Nat} (hj : j < 4)
    (hs : (s.port s.active).seq = .run w (.ready (Seg.atSlot k f j v))) (h0 : s.lslot[j] ≠ 0)
    (hl : s.schedule = .block :: l) :
    step s = .next (s.moved s.active w (.notification s.out.length (slotNotification k f s.lslot ⟨j, hj⟩) v)
      [.notification s.active (slotNotification k f s.lslot ⟨j, hj⟩)] l) := by
  rw [step_block_segment hd hs hl, ← notifyListener_eq_moved hs]
  simp only [Seg.atSlot, hj, dif_pos, State.runSeg, State.slotSegment, Fin.getElem_fin, h0, if_false, slotNotification]

theorem step_moved_acknowledge {tag : Nat} {n : Notification} :
    step (s.moved p w (.notification tag n v) os (.input (.listenerAck p tag) :: l)) =
      .next (s.moved p w (.ready (Seg.afterSlot n.kind n.frame n.slot v)) os l) := by
  rw [step_of_input _ _ l moved_schedule, moved_withSchedule, State.input,
    acknowledge_next _ p w tag n v (by simp), moved_setPhase]

/-! ## The fan-out -/

/-- One occupied slot is two steps of the run, an empty one is one, and the completion is the last. -/
theorem run_fanOut (hd : decode w = .ok i) (j : Nat) (s : State) (rest : List Turn)
    (hs : (s.port s.active).seq = .run w (.ready (Seg.atSlot k f j v)))
    (hl : s.schedule = fanTurns s.active (s.lslot.toList.drop j) s.out.length ++ rest) :
    core.run (fanTurns s.active (s.lslot.toList.drop j) s.out.length).length s =
      .next (s.ended s.active v (fanOutputsFrom s.active k f s.lslot j) rest) := by
  induction hn : 4 - j generalizing j s with
  | zero =>
    rw [drop_toList_of_ge _ (by omega)] at hl ⊢
    rw [Seg.atSlot, dif_neg (by omega)] at hs
    rw [fanOutputsFrom_of_ge _ _ _ _ (by omega), State.ended, List.append_nil]
    exact run_succ 0 _ _ (step_block_segment hd hs hl)
  | succ n ih =>
    have hj : j < 4 := by omega
    rw [drop_toList_of_lt _ hj, fanTurns] at hl ⊢
    rw [fanOutputsFrom_of_lt _ _ _ _ hj]
    have hnext (os : List Output) (tag : Nat) (htag : tag = (s.out ++ os).length) :
        core.run (fanTurns s.active (s.lslot.toList.drop (j + 1)) tag).length
            (s.moved s.active w (.ready (Seg.atSlot k f (j + 1) v)) os
              (fanTurns s.active (s.lslot.toList.drop (j + 1)) tag ++ rest)) =
          .next (s.ended s.active v (os ++ fanOutputsFrom s.active k f s.lslot (j + 1)) rest) := by
      have h := ih (j + 1) (s.moved s.active w (.ready (Seg.atSlot k f (j + 1) v)) os
        (fanTurns s.active (s.lslot.toList.drop (j + 1)) tag ++ rest))
      rw [moved_active hs, moved_lslot, moved_out, ← htag, moved_ended] at h
      exact h (by rw [moved_port_same]) moved_schedule (by omega)
    by_cases h0 : s.lslot[j] = 0
    · rw [if_pos h0] at hl ⊢
      rw [if_pos h0]
      exact (run_succ _ s _ (step_emptySlot hd hj hs h0 hl)).trans (hnext [] _ (by simp))
    · rw [if_neg h0] at hl ⊢
      rw [if_neg h0]
      exact (run_succ _ s _ (step_occupiedSlot hd hj hs h0 hl)).trans
        ((run_succ _ _ _ step_moved_acknowledge).trans (hnext [_] _ (by simp)))

end
end Sys2Proof.Machine
end

section
/-! SUPPORT. Whole runs of a filter command and of a transfer on a block that was idle: the issue, the driver call, its
answer, and what follows. -/

namespace Sys2Proof.Machine

open Sys2Proof.Claims

section
variable {s : State} {p : PortId} {w : Word} {ph : Phase} {os : List Output} {l : List Turn}

/-! ## The state in flight under the operations of a transfer -/

theorem inFlight_consumeFrame (f : Frame) :
    (s.inFlight p w ph os l).consumeFrame f = (s.consumeFrame f).inFlight p w ph os l := by
  cases p <;> rfl

theorem inFlight_storeFrame (f : Frame) :
    (s.inFlight p w ph os l).storeFrame p f = (s.storeFrame p f).inFlight p w ph os l := by
  cases p <;> cases f <;> rfl

theorem inFlight_ended (os' : List Output) (l' : List Turn) (v : Word) :
    (s.inFlight p w ph os l).ended p v os' l' = s.ended p v (os ++ os') l' := by
  cases p <;> simp [State.ended, State.inFlight, State.complete, State.setPort, State.port]

theorem quiescent_of_seq {s s' : State} (h : ∀ q, (s'.port q).seq = (s.port q).seq) (hq : s.quiescent) :
    s'.quiescent := ⟨(h .app).trans hq.1, (h .isr).trans hq.2⟩

/-! ## The issue, the call and its answer -/

/-- The first three steps of a command that makes one driver call, its first segment having changed `s` to `s'` before
the call: issued, called, and answered with what enables the segment `g`. -/
theorem run_issue_call_answer (s' : State) {i : Instr} {c : DrvCall} {a : DrvAnswer} {g : Seg}
    (hq : s.quiescent) (hb : (s.port p).busy = false) (hd : decode w = .ok i) (hout : s'.out = s.out)
    (hcall : ∀ l, firstSegment i (s.inFlight p w (.ready .first) [] l) p =
      (s'.inFlight p w (.ready .first) [] l).callDriver p c .last)
    (hg : c.segAfter .last a = some g) (ha : a.allowed c s'.flags.fdcap = true)
    (hs : s.schedule = .input (.memWrite (s.params.blockBase + p.base + 0x00) 4 w) :: .block ::
      .input (.driverAnswer p s.out.length a) :: l) :
    core.run 3 s = .next (s'.inFlight p w (.ready g) [.call p c] l) := by
  calc core.run 3 s
    _ = core.run 2 (s.inFlight p w (.ready .first) [] _) := run_succ 2 _ _ (step_issue hb (isLegal_of_decode hd) hs)
    _ = core.run 1 (s'.inFlight p w (.call s.out.length c s'.flags.fdcap .last) [.call p c] _) := by
      refine run_succ 1 _ _ ?_
      rw [step_inFlight_block hq i hd, State.runSeg, hcall, inFlight_callDriver, hout]
      rfl
    _ = core.run 0 _ := run_succ 0 _ _ (step_inFlight_answer hg ha)
    _ = .next _ := run_zero _

/-! ## Filter commands -/

theorem firstFilterCall_withSchedule (i : Instr) (l : List Turn) :
    firstFilterCall { s with schedule := l } i = firstFilterCall s i := by
  cases i <;> simp [firstFilterCall]

/-- The state after the issue, as the start of a run gives it. -/
theorem issue_withSchedule : { s.issue p w with schedule := l } = s.inFlight p w (.ready .first) [] l := by
  cases p <;> simp [State.issue, State.inFlight, State.setPort, State.port]

theorem firstSegment_inFlight_filter (hq : s.quiescent) {i : Instr} {c : DrvCall} (hi : i ≠ .watchAll)
    (hc : firstFilterCall (s.issue p w) i = some c) :
    firstSegment i (s.inFlight p w (.ready .first) [] l) p =
      (s.inFlight p w (.ready .first) [] l).callDriver p c .last := by
  rw [← firstFilterCall_withSchedule i l, issue_withSchedule] at hc
  simpa only [inFlight_active hq, hi, if_false] using firstSegment_of_firstFilterCall _ i c hc

/-- The call of a filter command is answered with a status, of any value, and completes with it. -/
theorem segAfter_filterCall {i : Instr} {c : DrvCall} (hc : firstFilterCall s i = some c) (v : Word) (b : Bool) :
    c.segAfter .last (.status v) = some (.finish v) ∧ DrvAnswer.allowed c b (.status v) = true := by
  have hkind : (∃ id mask x, c = .setFilter id mask x) ∨ ∃ mb id mask x, c = .setFilterSpecific mb id mask x := by
    cases i <;> cases hc
    case watchId =>
      left
      split <;> exact ⟨_, _, _, rfl⟩
    case setFilterMb n x => exact .inr ⟨_, _, _, _, rfl⟩
    all_goals exact .inl ⟨_, _, _, rfl⟩
  obtain ⟨id, mask, x, rfl⟩ | ⟨mb, id, mask, x, rfl⟩ := hkind <;> exact ⟨rfl, rfl⟩

/-! ## Transfers -/

/-- A successful transmit from its issue to the fan-out: the frame is consumed with the call. -/
theorem run_transmit {i : Instr} {c : DrvCall} {f : Frame} (hq : s.quiescent) (hb : (s.port p).busy = false)
    (hd : decode w = .ok i)
    (hcall : ∀ l, firstSegment i (s.inFlight p w (.ready .first) [] l) p =
      ((s.inFlight p w (.ready .first) [] l).consumeFrame f).callDriver p c .last)
    (hg : c.segAfter .last (.ok true) = some (.sent f true)) (ha : DrvAnswer.allowed c s.flags.fdcap (.ok true) = true)
    (hs : s.schedule = .input (.memWrite (s.params.blockBase + p.base + 0x00) 4 w) :: .block ::
      .input (.driverAnswer p s.out.length (.ok true)) :: .block :: l) :
    core.run 4 s = .next ((s.consumeFrame f).inFlight p w (.ready (.slot .tx f 0 1)) [.call p c] l) := by
  have hq' : (s.consumeFrame f).quiescent := hq
  refine (run_add 3 1 s _ (run_issue_call_answer (s.consumeFrame f) hq hb hd rfl (fun l => ?_) hg ha hs)).trans
    (run_succ 0 _ _ ?_)
  · rw [hcall, inFlight_consumeFrame]
  · rw [step_inFlight_block hq' i hd, State.runSeg, State.afterSend, if_pos rfl, inFlight_setPhase]
    rfl

/-- A successful receive from its issue to the fan-out: the frame is stored and consumed after the answer. -/
theorem run_receive {i : Instr} {c : DrvCall} {a : DrvAnswer} {n : Word} {f : Frame} (hq : s.quiescent)
    (hb : (s.port p).busy = false) (hd : decode w = .ok i) (hn : n ≠ 0)
    (hcall : ∀ l, firstSegment i (s.inFlight p w (.ready .first) [] l) p =
      (s.inFlight p w (.ready .first) [] l).callDriver p c .last)
    (hg : c.segAfter .last a = some (.received n f)) (ha : a.allowed c s.flags.fdcap = true)
    (hs : s.schedule = .input (.memWrite (s.params.blockBase + p.base + 0x00) 4 w) :: .block ::
      .input (.driverAnswer p s.out.length a) :: .block :: l) :
    core.run 4 s =
      .next (((s.storeFrame p f).consumeFrame f).inFlight p w (.ready (.slot .rx f 0 n)) [.call p c] l) := by
  refine (run_add 3 1 s _ (run_issue_call_answer s hq hb hd rfl hcall hg ha hs)).trans (run_succ 0 _ _ ?_)
  rw [step_inFlight_block hq i hd, State.runSeg, State.afterReceive, if_neg hn, inFlight_storeFrame,
    inFlight_consumeFrame, inFlight_setPhase]

/-- The fan-out of a command in flight on a block that was idle, to its completion. -/
theorem run_inFlight_fanOut {i : Instr} {k : Kind} {f : Frame} {v : Word} {rest : List Turn} (hq : s.quiescent)
    (hd : decode w = .ok i) (turns : List Turn)
    (hturns : turns = fanTurns p s.lslot.toList (s.out.length + os.length)) :
    core.run turns.length (s.inFlight p w (.ready (.slot k f 0 v)) os (turns ++ rest)) =
      .next (s.ended p v (os ++ fanOutputs p k f s.lslot) rest) := by
  have ha : (s.inFlight p w (.ready (.slot k f 0 v)) os (turns ++ rest)).active = p := inFlight_active hq
  have hlslot : (s.inFlight p w (.ready (.slot k f 0 v)) os (turns ++ rest)).lslot = s.lslot := setPort_lslot ..
  have hout : (s.inFlight p w (.ready (.slot k f 0 v)) os (turns ++ rest)).out = s.out ++ os := setPort_out ..
  have h := run_fanOut hd 0 (s.inFlight p w (.ready (.slot k f 0 v)) os (turns ++ rest)) rest (k := k) (f := f) (v := v)
  rw [ha, hlslot, hout, List.drop_zero, List.length_append, ← hturns, inFlight_ended, fanOutputsFrom_zero] at h
  exact h (by rw [inFlight_port_same]; rfl) inFlight_schedule

end
end Sys2Proof.Machine
end

section
/-! SUPPORT. The obligations on whole runs of filter commands and transfers. -/

namespace Sys2Proof.Claims

open Sys2Proof.Machine

/-- Settles O34: the issue, the call, the status and the completion, one step each. -/
theorem filterCommandRunsFromIssueToResult : Obligations.FilterCommandRunsFromIssueToResult := by
  intro s p i c v rest hq hb hwf hi hc hs
  have hd := decode_encode i hwf
  obtain ⟨hg, ha⟩ := segAfter_filterCall hc v s.flags.fdcap
  have hrun := run_issue_call_answer s hq hb hd rfl (fun l => firstSegment_inFlight_filter hq hi hc) hg ha hs
  exact ⟨_, (run_add 3 1 s _ hrun).trans (run_succ 0 _ _ (step_inFlight_finish hq i hd v)),
    complete_of_idle s p v [.call p c] rest hq hb⟩

theorem sharedSame_trans {s t u : State} (h : sharedSame s t) (h' : sharedSame t u) : sharedSame s u := by
  obtain ⟨hlslot, hlmask, ⟨hcbmb, hcbgen⟩, ⟨hflags, hbus, hfd, hpin⟩, hparams⟩ := h
  obtain ⟨hlslot', hlmask', ⟨hcbmb', hcbgen'⟩, ⟨hflags', hbus', hfd', hpin'⟩, hparams'⟩ := h'
  exact ⟨hlslot'.trans hlslot, hlmask'.trans hlmask, ⟨hcbmb'.trans hcbmb, hcbgen'.trans hcbgen⟩,
    ⟨hflags'.trans hflags, hbus'.trans hbus, hfd'.trans hfd, hpin'.trans hpin⟩, hparams'.trans hparams⟩

/-- A transfer that has come to its fan-out in flight in the state `s'`, which differs from `s` in the port and the
fault record at most, ends with one notification for each occupied slot. -/
theorem run_transfer_end (s s' : State) (p : PortId) (i : Instr) (c : DrvCall) (k : Kind) (f : Frame) (v : Word)
    (rest : List Turn) (hq : s'.quiescent) (hb : (s'.port p).busy = false) (hwf : i.wellFormed = true)
    (hother : otherPortSame s s' p) (hshared : sharedSame s s') (hout : s'.out = s.out)
    (hrun : core.run 4 s = .next (s'.inFlight p (encode i) (.ready (.slot k f 0 v)) [.call p c]
      (fanTurns p s.lslot.toList (s.out.length + 1) ++ rest))) :
    ∃ t, core.run (4 + (fanTurns p s.lslot.toList (s.out.length + 1)).length) s = .next t ∧
      t.port p = { s'.port p with result := v } ∧ t.out = s.out ++ .call p c :: fanOutputs p k f s.lslot ∧
      t.faults = s'.faults ∧ otherPortSame s t p ∧ sharedSame s t ∧ t.schedule = rest := by
  have hlslot : s'.lslot = s.lslot := hshared.1
  have hfan := run_inFlight_fanOut (os := [.call p c]) (rest := rest) (k := k) (f := f) (v := v) hq
    (decode_encode i hwf) (fanTurns p s.lslot.toList (s.out.length + 1)) (by rw [hlslot, hout]; rfl)
  rw [hlslot] at hfan
  obtain ⟨hport, hother', hshared', hout', hfaults, hsch⟩ :=
    complete_of_idle s' p v ([.call p c] ++ fanOutputs p k f s.lslot) rest hq hb
  exact ⟨_, (run_add 4 _ s _ hrun).trans hfan, hport, hout'.trans (by rw [hout]; rfl), hfaults,
    fun q hne => (hother' q hne).trans (hother q hne), sharedSame_trans hshared hshared', hsch⟩

/-- The transmit of `f` ends with RESULT = 1, having changed nothing else but the fault record. -/
theorem run_transmit_end (s : State) (p : PortId) (i : Instr) (c : DrvCall) (f : Frame) (rest : List Turn)
    (hq : s.quiescent) (hb : (s.port p).busy = false) (hwf : i.wellFormed = true)
    (hrun : core.run 4 s = .next ((s.consumeFrame f).inFlight p (encode i) (.ready (.slot .tx f 0 1)) [.call p c]
      (fanTurns p s.lslot.toList (s.out.length + 1) ++ rest))) :
    ∃ t, core.run (4 + (fanTurns p s.lslot.toList (s.out.length + 1)).length) s = .next t ∧
      t.port p = { s.port p with result := 1 } ∧ t.out = s.out ++ .call p c :: fanOutputs p .tx f s.lslot ∧
      t.faults = (s.consumeFrame f).faults ∧ otherPortSame s t p ∧ sharedSame s t ∧ t.schedule = rest := by
  have h := run_transfer_end s (s.consumeFrame f) p i c .tx f 1 rest hq (by rw [consumeFrame_port, hb]) hwf
    (fun q _ => consumeFrame_port s f q) (by simp [sharedSame, callbacksSame, driverFieldsSame]) rfl hrun
  rwa [consumeFrame_port] at h

/-- The receive of `f` ends with RESULT = n and the frame stored, having changed nothing else but the fault record. -/
theorem run_receive_end (s : State) (p : PortId) (i : Instr) (c : DrvCall) (n : Word) (f : Frame) (rest : List Turn)
    (hq : s.quiescent) (hb : (s.port p).busy = false) (hwf : i.wellFormed = true)
    (hrun : core.run 4 s = .next (((s.storeFrame p f).consumeFrame f).inFlight p (encode i) (.ready (.slot .rx f 0 n))
      [.call p c] (fanTurns p s.lslot.toList (s.out.length + 1) ++ rest))) :
    ∃ t, core.run (4 + (fanTurns p s.lslot.toList (s.out.length + 1)).length) s = .next t ∧
      t.port p = { (s.storeFrame p f).port p with result := n } ∧
      t.out = s.out ++ .call p c :: fanOutputs p .rx f s.lslot ∧
      t.faults = (s.consumeFrame f).faults ∧ otherPortSame s t p ∧ sharedSame s t ∧ t.schedule = rest := by
  have hbusy : ((s.storeFrame p f).port p).busy = false := by
    obtain ⟨cf, ff, e⟩ := storeFrame_port_eq s p f
    rw [e, hb]
  have h := run_transfer_end s ((s.storeFrame p f).consumeFrame f) p i c .rx f n rest
    (quiescent_of_seq (fun q => by rw [consumeFrame_port, storeFrame_port_seq]) hq)
    (by rw [consumeFrame_port, hbusy]) hwf
    (fun q hne => by rw [consumeFrame_port, storeFrame_port_ne s p q f hne])
    (by simp [sharedSame, callbacksSame, driverFieldsSame]) (by simp) hrun
  rwa [consumeFrame_port, consumeFrame_faults, storeFrame_faults] at h

/-- Settles O45: the issue, the call and its answer lead to the fan-out, which notifies each occupied slot. -/
theorem transferRunsFromIssueToResult : Obligations.TransferRunsFromIssueToResult := by
  intro s p i c a k f v r fr rest hq hb hcases hs
  rcases hcases with ⟨rfl, rfl, rfl, rfl, rfl, rfl, rfl, rfl⟩ | ⟨rfl, rfl, hcap, rfl, rfl, rfl, rfl, rfl, rfl⟩ |
    ⟨n, g, rfl, rfl, hn, rfl, rfl, rfl, rfl, rfl, rfl⟩ | ⟨n, g, rfl, rfl, hcap, hn, rfl, rfl, rfl, rfl, rfl, rfl⟩
  · exact run_transmit_end s p .send _ (.classic (s.port p).cf) rest hq hb rfl
      (run_transmit hq hb (decode_encode .send rfl) (fun l => by simp [firstSegment]) rfl rfl hs)
  · exact run_transmit_end s p .sendFd _ (.fd (s.port p).ff) rest hq hb rfl
      (run_transmit hq hb (decode_encode .sendFd rfl) (fun l => by simp [firstSegment]) rfl
        (by simp [DrvAnswer.allowed, hcap]) hs)
  · have h := run_receive_end s p .recv _ v (.classic g) rest hq hb rfl
      (run_receive hq hb (decode_encode .recv rfl) hn (fun l => rfl) rfl rfl hs)
    rwa [storeFrame_classic_port] at h
  · have h := run_receive_end s p .recvFd _ v (.fd g) rest hq hb rfl
      (run_receive hq hb (decode_encode .recvFd rfl) hn (fun l => rfl) rfl (by simp [DrvAnswer.allowed, hcap]) hs)
    rwa [storeFrame_fd_port] at h

end Sys2Proof.Claims
end

section
/-! SUPPORT. The views of a payload as its bytes (20_memory.md R64, R65), and the frame that a segment consumes
(60_exceptions.md R161). -/

namespace Sys2Proof.Machine

/-! ## The views of a payload -/

theorem halfView_eq {n : Nat} (d : Vector Byte n) (k : Nat) (h : 2 * k + 1 < n) :
    halfView d k = d[2 * k + 1] ++ d[2 * k] := by
  rw [halfView, payloadByte_eq d _ h, payloadByte_eq d (2 * k) (by omega)]

theorem dataWord_eq {n : Nat} (d : Vector Byte n) (k : Nat) (h : 4 * k + 3 < n) :
    dataWord d k = d[4 * k + 3] ++ d[4 * k + 2] ++ d[4 * k + 1] ++ d[4 * k] := by
  rw [dataWord, leWord, payloadByte_eq d _ h, payloadByte_eq d _ (by omega), payloadByte_eq d _ (by omega),
    payloadByte_eq d _ (by omega)]

/-- A 32-bit view is its two 16-bit views. -/
theorem dataWord_eq_halfViews {n : Nat} (d : Vector Byte n) (k : Nat) :
    dataWord d k = halfView d (2 * k + 1) ++ halfView d (2 * k) := by
  have hlow : 2 * (2 * k) = 4 * k := by omega
  have hhigh : 2 * (2 * k + 1) = 4 * k + 2 := by omega
  rw [halfView, halfView, hlow, hhigh, dataWord, leWord, BitVec.append_assoc]
  rfl

theorem getElem_setHalfView {n : Nat} (d : Vector Byte n) (k : Nat) (v : BitVec 16) (j : Nat) (h : j < n) :
    (setHalfView d k v)[j] = if j / 2 = k then v.extractLsb' (8 * (j % 2)) 8 else d[j] := by
  simp [setHalfView]

theorem getElem_setDoubleView (d : Vector Byte 64) (k : Nat) (v : BitVec 64) (j : Nat) (h : j < 64) :
    (setDoubleView d k v)[j] = if j / 8 = k then v.extractLsb' (8 * (j % 8)) 8 else d[j] := by
  simp [setDoubleView]

/-- The upper and the lower `m` bits of a word of twice the width give it back. -/
theorem extract_append_extract {m : Nat} (v : BitVec (m + m)) : v.extractLsb' m m ++ v.extractLsb' 0 m = v := by
  rw [BitVec.extractLsb'_append_extractLsb'_eq_extractLsb' (Nat.zero_add m).symm, BitVec.extractLsb'_eq_self]

theorem halfView_setHalfView {n : Nat} (d : Vector Byte n) (k : Nat) (v : BitVec 16) (h : 2 * k + 1 < n) :
    halfView (setHalfView d k v) k = v := by
  rw [halfView_eq _ k h, getElem_setHalfView, getElem_setHalfView, if_pos (by omega), if_pos (by omega),
    show (2 * k + 1) % 2 = 1 by omega, show 2 * k % 2 = 0 by omega]
  exact extract_append_extract (m := 8) v

/-- Byte `j` of the 32 bits of a word from bit `a` on. -/
theorem byteOf_extractLsb' (v : BitVec 64) (a j : Nat) (h : j < 4) :
    byteOf (v.extractLsb' a 32) j = v.extractLsb' (a + 8 * j) 8 := by
  ext i hi
  simp [byteOf, Nat.add_assoc, show 8 * j + i < 32 by omega]

/-- A write through a 64-bit view is the writes of its two halves through the 32-bit views. -/
theorem setDoubleView_eq_setDataWords (d : Vector Byte 64) (k : Nat) (v : BitVec 64) :
    setDoubleView d k v =
      setDataWord (setDataWord d (2 * k) (v.extractLsb' 0 32)) (2 * k + 1) (v.extractLsb' 32 32) := by
  ext j hj : 1
  rw [getElem_setDoubleView, getElem_setDataWord, getElem_setDataWord]
  by_cases hhigh : j / 4 = 2 * k + 1
  · rw [if_pos (by omega), if_pos hhigh, byteOf_extractLsb' v 32 (j % 4) (by omega),
      show 8 * (j % 8) = 32 + 8 * (j % 4) by omega]
  · rw [if_neg hhigh]
    by_cases hlow : j / 4 = 2 * k
    · rw [if_pos (by omega), if_pos hlow, byteOf_extractLsb' v 0 (j % 4) (by omega),
        show 8 * (j % 8) = 0 + 8 * (j % 4) by omega]
    · rw [if_neg (by omega), if_neg hlow]

theorem doubleView_setDoubleView (d : Vector Byte 64) (k : Nat) (v : BitVec 64) (h : 8 * k + 7 < 64) :
    doubleView (setDoubleView d k v) k = v := by
  rw [doubleView, setDoubleView_eq_setDataWords, dataWord_setDataWord_same _ _ _ (by omega),
    dataWord_setDataWord_ne _ _ _ _ (by omega) (by omega), dataWord_setDataWord_same _ _ _ (by omega)]
  exact extract_append_extract (m := 32) v

/-! ## The frame a segment consumes -/

/-- The frame that a segment of command `i` consumes, on a port with the registers `r` (R161): CF or FF of the first
segment of a command that reads it, and the frame a non-zero receive answer brought. -/
def consumedFrame (i : Instr) (r : Port) : Seg → Option Frame
  | .first =>
    match i with
    | .send | .c2fd => some (.classic r.cf)
    | .sendFd | .fd2c => some (.fd r.ff)
    | _ => none
  | .received n f => if n = 0 then none else some f
  | _ => none

/-- The fault record after a segment: that of the frame it consumes, if it consumes one. -/
theorem runSeg_faults_eq (i : Instr) (s : State) (p : PortId) (g : Seg) :
    (s.runSeg p (firstSegment i s p) g).faults =
      (consumedFrame i (s.port p) g).elim s.faults fun f => (s.consumeFrame f).faults := by
  cases g with
  | first =>
    cases i <;> simp only [State.runSeg, firstSegment, State.updateMask, consumedFrame]
    all_goals (repeat' split)
    all_goals simp
  | received n f =>
    simp only [State.runSeg, State.afterReceive, consumedFrame]
    split <;> simp
  | sent f ok =>
    simp only [State.runSeg, State.afterSend, consumedFrame]
    split <;> simp
  | slot k f j v =>
    simp only [State.runSeg, State.slotSegment, consumedFrame]
    split <;> simp
  | _ => simp [State.runSeg, State.secondInstall, consumedFrame]

/-- A turn of the block records no fault but LengthContract, and that only for a frame over its capacity. -/
theorem blockTurn_faults (s t : State) (h : blockTurn s = .next t) :
    t.faults = s.faults ∨ ∃ i g f, s.fetch = .command i ∧ s.enabled = some g ∧
      consumedFrame i (s.port s.active) g = some f ∧ f.overCapacity = true ∧
      t.faults = { s.faults with lengthContract := true } := by
  rcases blockTurn_next s t h with ⟨_, rfl⟩ | ⟨i, g, hf, hg, rfl⟩
  · exact .inl rfl
  · rw [runSeg_faults_eq]
    cases hc : consumedFrame i (s.port s.active) g with
    | none => exact .inl rfl
    | some f =>
      cases ho : f.overCapacity with
      | false => exact .inl (by simp [ho])
      | true => exact .inr ⟨i, g, f, hf, hg, hc, ho, by simp [ho]⟩

end Sys2Proof.Machine
end

section
/-! SUPPORT. The obligations on reads and bad accesses of the register window, on the bytes of a payload, on what records
a fault, and on the priority of the interrupt context. -/

namespace Sys2Proof.Claims

open Sys2Proof.Machine

/-! ## Bad accesses -/

/-- A read at the offset `o` of the window that is a bad access (20_memory.md R66, R68). -/
def badRead (o n : Nat) : Prop := n ≠ 4 ∨ o % 4 ≠ 0 ∨ unmappedOffset o

/-- A write at the offset `o` of the window that is a bad access (R66 to R68). -/
def badWrite (o n : Nat) : Prop :=
  n ≠ 4 ∨ o % 4 ≠ 0 ∨ unmappedOffset o ∨ (∃ p : PortId, o = p.base + 0x10 ∨ o = p.base + 0x14) ∨
    ∃ r : SharedReg, o = r.offset

theorem legalAccess_eq_false_iff (o n : Nat) : legalAccess o n = false ↔ n ≠ 4 ∨ o % 4 ≠ 0 := by
  simp only [legalAccess, Bool.and_eq_false_iff, beq_eq_false_iff_ne]

theorem targetAt_eq_unmapped_iff {o : Nat} (ho : o < 0x300) : targetAt o = .unmapped ↔ unmappedOffset o := by
  constructor
  · intro h
    refine ⟨ho, fun p r e => ?_, fun r e => ?_⟩
    · rw [e, targetAt_port] at h
      cases h
    · rw [e, targetAt_shared] at h
      cases h
  · rintro ⟨_, hp, hs⟩
    exact targetAt_unmapped o hp hs

theorem targetAt_eq_shared_iff (o : Nat) (r : SharedReg) : targetAt o = .shared r ↔ o = r.offset :=
  ⟨targetAt_shared_inv o r, fun h => h ▸ targetAt_shared r⟩

theorem readOnly_iff (r : Reg) : r.readOnly = true ↔ r = .result ∨ r = .status := by
  cases r <;> simp [Reg.readOnly]

/-- The read-only registers of a port are RESULT and STATUS, at 0x10 and 0x14 (10_state.md R44). -/
theorem targetAt_readOnly_iff (o : Nat) (p : PortId) :
    (∃ r, targetAt o = .port p r ∧ r.readOnly = true) ↔ o = p.base + 0x10 ∨ o = p.base + 0x14 := by
  constructor
  · rintro ⟨r, hr, hro⟩
    obtain rfl | rfl := (readOnly_iff r).1 hro
    · exact .inl (targetAt_port_inv o p _ hr)
    · exact .inr (targetAt_port_inv o p _ hr)
  · rintro (rfl | rfl)
    · exact ⟨.result, targetAt_port p .result, rfl⟩
    · exact ⟨.status, targetAt_port p .status, rfl⟩

theorem badRead_iff {o n : Nat} (ho : o < 0x300) :
    badRead o n ↔ legalAccess o n = false ∨ targetAt o = .unmapped := by
  rw [badRead, legalAccess_eq_false_iff, targetAt_eq_unmapped_iff ho, or_assoc]

theorem badWrite_iff {o n : Nat} (ho : o < 0x300) :
    badWrite o n ↔ legalAccess o n = false ∨ targetAt o = .unmapped ∨ (∃ r, targetAt o = .shared r) ∨
      ∃ p r, targetAt o = .port p r ∧ r.readOnly = true := by
  simp only [badWrite, legalAccess_eq_false_iff, targetAt_eq_unmapped_iff ho, targetAt_eq_shared_iff,
    targetAt_readOnly_iff, or_assoc, or_comm (b := ∃ r : SharedReg, o = r.offset)]

/-! ## Reads -/

theorem step_memRead (s : State) (a n : Nat) (rest : List Turn) (h : nextTurn s (.input (.memRead a n)) rest) :
    step s = .next (State.memRead { s with schedule := rest } a n) := step_of_input s _ rest h

/-- Settles O10: the register mapped at the address is read, and the read changes only the outputs. -/
theorem registerReadsReturnTheRegister : Obligations.RegisterReadsReturnTheRegister := by
  constructor
  · intro s p r rest h
    have hread := memRead_port { s with schedule := rest } p r
    rw [withSchedule_port] at hread
    exact (step_memRead s _ 4 rest h).trans (congrArg _ hread)
  · intro s r rest h
    exact (step_memRead s _ 4 rest h).trans (congrArg _ (memRead_shared { s with schedule := rest } r))

/-- Settles O9: at each listed offset the access is bad, or names a register that it may not write; P.CMD reads 0. -/
theorem badAccessesAreIgnoredAndRecorded : Obligations.BadAccessesAreIgnoredAndRecorded := by
  refine ⟨fun s o n rest h ho hbad => ?_, fun s o n v rest h ho hbad => ?_, fun s p rest h => ?_⟩
  · exact (step_memRead s _ n rest h).trans
      (congrArg _ (memRead_bad { s with schedule := rest } o n ho ((badRead_iff ho).1 hbad)))
  · exact (step_of_input s _ rest h).trans
      (congrArg _ (memWrite_bad { s with schedule := rest } o n v ho ((badWrite_iff ho).1 hbad)))
  · exact registerReadsReturnTheRegister.1 s p .cmd rest h

/-! ## The bytes of a payload -/

/-- Settles O13: a data word is made of its bytes, and its store replaces them. -/
theorem dataWordsAreLittleEndian : Obligations.DataWordsAreLittleEndian :=
  ⟨fun r k j => byteOf_dataWord r.cf.data k.val j (by omega), fun r k j => byteOf_dataWord r.ff.data k.val j (by omega),
    fun r k v j => getElem_setDataWord r.cf.data k.val v j.val j.isLt,
    fun r k v j => getElem_setDataWord r.ff.data k.val v j.val j.isLt⟩

/-- Settles O14: each view is the bytes at its place, and a write through a view replaces those bytes. -/
theorem payloadViewsAliasTheSameBytes : Obligations.PayloadViewsAliasTheSameBytes := by
  refine ⟨fun d => ⟨dataWord_eq d 0 (by decide), dataWord_eq d 1 (by decide)⟩, fun d k => halfView_eq d k.val (by omega),
    fun _ _ => rfl, fun d k => dataWord_eq_halfViews d k.val, fun d k => halfView_eq d k.val (by omega),
    fun d k v => ⟨doubleView_setDoubleView d k.val v (by omega), fun j hj => ?_⟩,
    fun d k v => ⟨halfView_setHalfView d k.val v (by omega), fun j hj => ?_⟩⟩
  · exact (getElem_setDoubleView d k.val v j.val j.isLt).trans (if_neg hj)
  · exact (getElem_setHalfView d k.val v j.val j.isLt).trans (if_neg hj)

/-! ## What records a fault -/

/-- A host write of `v` to register `r` of port `p` that the block refuses (60_exceptions.md R158). -/
def refusedWrite (s : State) (p : PortId) (r : Reg) (v : Word) : Prop :=
  (r = .cmd ∧ isLegal v = false) ∨ ((s.port p).busy = true ∧ (r = .cmd ∨ r ∈ storedRegs))

/-- All that an input can make of the fault record: it stays, or a bad access or a refused write is recorded. -/
inductive InputFaults (s : State) : Input → FaultRecord → Prop where
  | same (x : Input) : InputFaults s x s.faults
  | badRead (o n : Nat) (ho : o < 0x300) (h : badRead o n) :
    InputFaults s (.memRead (s.params.blockBase + o) n) { s.faults with badRegisterAccess := true }
  | badWrite (o n : Nat) (v : Word) (ho : o < 0x300) (h : badWrite o n) :
    InputFaults s (.memWrite (s.params.blockBase + o) n v) { s.faults with badRegisterAccess := true }
  | refused (p : PortId) (r : Reg) (v : Word) (h : refusedWrite s p r v) :
    InputFaults s (.memWrite (regAddress s.params p r) 4 v) { s.faults with illegalCommand := true }

theorem cmd_or_stored_of_not_readOnly {r : Reg} (h : r.readOnly = false) : r = .cmd ∨ r ∈ storedRegs := by
  cases r <;> simp_all [storedRegs, Reg.readOnly]

theorem inputFaults_memRead (s : State) (a n : Nat) : InputFaults s (.memRead a n) (s.memRead a n).faults := by
  cases hw : windowOffset s.params a with
  | none =>
    rw [State.memRead, hw]
    exact .same _
  | some o =>
    obtain ⟨rfl, ho⟩ := windowOffset_some s.params a o hw
    by_cases hbad : badRead o n
    · rw [memRead_bad s o n ho ((badRead_iff ho).1 hbad)]
      exact .badRead o n ho hbad
    · obtain ⟨hlegal, hmapped⟩ := not_or.1 (mt (badRead_iff ho).2 hbad)
      have hfaults : (s.readOffset o n).2.faults = s.faults := by
        rw [State.readOffset, if_pos (by simpa using hlegal)]
        cases ht : targetAt o with
        | unmapped => exact absurd ht hmapped
        | _ => rfl
      rw [State.memRead, hw, emit_faults, hfaults]
      exact .same _

theorem inputFaults_writeReg (s : State) (p : PortId) (r : Reg) (v : Word) (hr : r.readOnly = false) :
    InputFaults s (.memWrite (regAddress s.params p r) 4 v) (s.writeReg p r v).faults := by
  cases hb : (s.port p).busy with
  | true =>
    rw [writeReg_busy s p r v hr hb, raiseIllegalCommand_faults]
    exact .refused p r v (.inr ⟨hb, cmd_or_stored_of_not_readOnly hr⟩)
  | false =>
    by_cases hc : r = .cmd
    · subst hc
      rw [writeReg_cmd s p v hb]
      split
      · rw [issue_faults]
        exact .same _
      · rename_i hl
        rw [raiseIllegalCommand_faults]
        exact .refused p .cmd v (.inl ⟨rfl, by simpa using hl⟩)
    · rw [writeReg_store s p r v hr hc hb, setPort_faults]
      exact .same _

theorem inputFaults_memWrite (s : State) (a n : Nat) (v : Word) :
    InputFaults s (.memWrite a n v) (s.memWrite a n v).faults := by
  cases hw : windowOffset s.params a with
  | none =>
    rw [State.memWrite, hw]
    exact .same _
  | some o =>
    obtain ⟨rfl, ho⟩ := windowOffset_some s.params a o hw
    by_cases hbad : badWrite o n
    · rw [memWrite_bad s o n v ho ((badWrite_iff ho).1 hbad)]
      exact .badWrite o n v ho hbad
    · have hgood := mt (badWrite_iff ho).2 hbad
      obtain ⟨hlegal, hmapped, hshared, hro⟩ := by simpa only [not_or] using hgood
      cases ht : targetAt o with
      | unmapped => exact absurd ht hmapped
      | shared r => exact absurd ⟨r, ht⟩ hshared
      | port p r =>
        have hr : r.readOnly = false := by
          by_contra h
          exact hro ⟨p, r, ht, by simpa using h⟩
        obtain rfl : n = 4 := by
          by_contra h
          exact hbad (.inl h)
        obtain rfl := targetAt_port_inv o p r ht
        rw [← Nat.add_assoc, memWrite_port]
        exact inputFaults_writeReg s p r v hr

theorem input_faults (s t : State) (x : Input) (h : s.input x = .next t) : InputFaults s x t.faults := by
  cases x with
  | memRead a n => cases h; exact inputFaults_memRead s a n
  | memWrite a n v => cases h; exact inputFaults_memWrite s a n v
  | driverAnswer p tag a =>
    rcases answer_cases s t p tag a h with rfl | ⟨w, c, b, k, g, _, _, _, rfl⟩
    · exact .same _
    · rw [setPhase_faults]
      exact .same _
  | listenerAck p tag =>
    cases h
    rcases acknowledge_cases s p tag with e | ⟨w, n, v, _, e⟩ <;> rw [e]
    · exact .same _
    · rw [setPhase_faults]
      exact .same _
  | driverStatus w => cases h; rw [writeStatus_faults]; exact .same _
  | callbackRead r => cases h; exact .same _
  | rst => cases h; exact .same _

/-- An input that is no access of a host leaves the fault record. -/
theorem input_faults_same (s t : State) (x : Input) (h : s.input x = .next t) (hread : ∀ a n, x ≠ .memRead a n)
    (hwrite : ∀ a n v, x ≠ .memWrite a n v) : t.faults = s.faults := by
  have hin := input_faults s t x h
  generalize t.faults = fr at hin ⊢
  cases hin with
  | same => rfl
  | badRead => exact absurd rfl (hread _ _)
  | badWrite => exact absurd rfl (hwrite _ _ _)
  | refused => exact absurd rfl (hwrite _ _ _)

/-- The segments that consume a frame over its capacity, as the statement lists them. -/
theorem lengthContract_segments (s : State) (i : Instr) (g : Seg) (f : Frame) (hf : s.fetch = .command i)
    (hg : s.enabled = some g) (hc : consumedFrame i (s.port s.active) g = some f) (ho : f.overCapacity = true) :
    (s.enabled = some .first ∧
        (((s.fetch = .command .send ∨ s.fetch = .command .c2fd) ∧ 8 < (s.port s.active).cf.length.toNat) ∨
          ((s.fetch = .command .sendFd ∨ s.fetch = .command .fd2c) ∧ 64 < (s.port s.active).ff.length.toNat))) ∨
      ∃ n, n ≠ 0 ∧ ((∃ f, s.enabled = some (.received n (.classic f)) ∧ 8 < f.length.toNat) ∨
        ∃ f, s.enabled = some (.received n (.fd f)) ∧ 64 < f.length.toNat) := by
  cases g with
  | first =>
    refine .inl ⟨hg, ?_⟩
    cases i <;> cases hc
    case first.send.refl => exact .inl ⟨.inl hf, of_decide_eq_true ho⟩
    case first.c2fd.refl => exact .inl ⟨.inr hf, of_decide_eq_true ho⟩
    case first.sendFd.refl => exact .inr ⟨.inl hf, of_decide_eq_true ho⟩
    case first.fd2c.refl => exact .inr ⟨.inr hf, of_decide_eq_true ho⟩
  | received n f' =>
    obtain ⟨hn, rfl⟩ : n ≠ 0 ∧ f' = f := by simpa [consumedFrame] using hc
    refine .inr ⟨n, hn, ?_⟩
    cases f' with
    | classic f => exact .inl ⟨f, hg, of_decide_eq_true ho⟩
    | fd f => exact .inr ⟨f, hg, of_decide_eq_true ho⟩
  | _ => cases hc

/-- Settles O19: a turn of the block records LengthContract at most, and an input only what `InputFaults` lists. -/
theorem onlyTheListedEventsRecordAFault : Obligations.OnlyTheListedEventsRecordAFault := by
  constructor
  · intro s t h
    obtain ⟨l, ⟨hb, ht⟩ | ⟨x, hl, ht⟩⟩ := step_next_cases s t h
    · rcases blockTurn_faults _ t ht with e | ⟨i, g, f, hf, hg, hc, ho, e⟩ <;> rw [e]
      · exact ⟨absurd rfl, absurd rfl, absurd rfl⟩
      · rw [withSchedule_fetch] at hf
        rw [withSchedule_enabled] at hg
        rw [withSchedule_active, withSchedule_port] at hc
        exact ⟨absurd rfl, absurd rfl, fun _ => ⟨hb, lengthContract_segments s i g f hf hg hc ho⟩⟩
    · have hin := input_faults _ t x ht
      generalize t.faults = fr at hin ⊢
      cases hin with
      | same => exact ⟨absurd rfl, absurd rfl, absurd rfl⟩
      | badRead o n ho hbad => exact ⟨absurd rfl, fun _ => ⟨o, n, l, ho, .inl ⟨hl, hbad⟩⟩, absurd rfl⟩
      | badWrite o n v ho hbad => exact ⟨absurd rfl, fun _ => ⟨o, n, l, ho, .inr ⟨v, hl, hbad⟩⟩, absurd rfl⟩
      | refused p r v hr =>
        rw [refusedWrite, withSchedule_port] at hr
        exact ⟨fun _ => ⟨p, r, v, l, hl, hr⟩, absurd rfl, absurd rfl⟩
  · intro s t w r p tag a rest hs hx h
    obtain ⟨x, hx, hread, hwrite⟩ : ∃ x, s.schedule = .input x :: rest ∧ (∀ a n, x ≠ .memRead a n) ∧
        ∀ a n v, x ≠ .memWrite a n v := by
      rcases hx with hx | hx | hx | hx | hx <;> exact ⟨_, hx, nofun, nofun⟩
    rw [step_of_input s x rest hx] at h
    exact (input_faults_same _ t x h hread hwrite).trans hs

/-! ## The interrupt context -/

theorem app_same_of_isr_running (s t : State) (hisr : s.isr.seq ≠ .idle) (hb : blockNext s) (h : step s = .next t) :
    t.app = s.app := by
  obtain ⟨hother, _⟩ := blockTurnTouchesOnlyTheIssuingPort s t hb h
  exact hother .app (by rw [active_of_isr_ne s hisr]; nofun)

/-- Settles O21: while SEQ[ISR] runs ISR is the active port, whose segment moves its sequencer and leaves APP. -/
theorem interruptContextHasPriority : Obligations.InterruptContextHasPriority := by
  refine ⟨app_same_of_isr_running, fun s w rest h hb hl => ?_, fun s w g i rest h hs hd => ?_, fun s w rest h hb => ?_⟩
  · obtain ⟨t, ht, hport, hother, _⟩ := (commandWriteIssuesOrIsRefused s .isr w rest h).2 hb hl
    exact ⟨t, ht, congrArg Port.seq hport, hother .app nofun⟩
  · have hrun : s.isr.seq ≠ .idle := by
      rw [hs]
      nofun
    have hact : s.active = .isr := active_of_isr_ne s hrun
    have hseq : (s.port s.active).seq = .run w (.ready g) := by rwa [hact]
    have hstep := (stepRunsTheLatchedCommand.1 s w g i hseq hd).2 rest h
    obtain ⟨t, hexec⟩ : ∃ t, exec i { s with schedule := rest } = .next t :=
      ⟨_, exec_of_enabled i _ g (by rw [withSchedule_enabled, enabled_of_seq s w g hseq])⟩
    have hstep_t : step s = .next t := hstep.trans hexec
    have hrank := exec_rank_lt i _ t hexec
    rw [withSchedule_active, withSchedule_port, hact] at hrank
    exact ⟨t, hstep_t, fun hsame => hrank.ne (congrArg (fun r => r.seq.rank) hsame),
      app_same_of_isr_running s t hrun (.inr ⟨rest, h⟩) hstep_t⟩
  · obtain ⟨t, ht, hport, _⟩ := (commandWriteIssuesOrIsRefused s .isr w rest h).1 (.inl hb)
    exact ⟨t, ht, (congrArg Port.seq hport :)⟩

end Sys2Proof.Claims
end

section
/-! SUPPORT. The decoder on every word (30_encoding.md R84, R88, R91): which fields the opcode map admits, the command
it reads from them, and the fields of a word as numbers. -/

namespace Sys2Proof

open Sys2Proof.Claims

/-! ## The command that is read has the fields that were read -/

/-- The well-formed command `i` is encoded by the fields OP, N and X (R84). -/
def Instr.hasFields (i : Instr) (op n : Byte) (x : Bool) : Prop :=
  i.wellFormed = true ∧ i.opcode = op ∧ BitVec.ofNat 8 i.mailbox = n ∧ i.extendedFlag = x

theorem mailboxIndexFits_toNat (n : Byte) : mailboxIndexFits n.toNat = true := decide_eq_true n.isLt

section
variable {i : Instr} {op n : Byte} {x : Bool} {w : Word}

theorem hasFields_of_formatPlain {j : Instr} (h : formatPlain j n x = .ok i) (hj : j.hasFields op 0 false) :
    i.hasFields op n x := by
  obtain ⟨rfl, rfl, rfl⟩ := formatPlain_ok _ _ _ _ h
  exact hj

theorem hasFields_of_formatN {j : Nat → Instr} (h : formatN j n x = .ok i) (hj : (j n.toNat).hasFields op n false) :
    i.hasFields op n x := by
  obtain ⟨rfl, rfl⟩ := formatN_ok _ _ _ _ h
  exact hj

theorem hasFields_of_formatX {j : Bool → Instr} (h : formatX j n x = .ok i) (hj : (j x).hasFields op 0 x) :
    i.hasFields op n x := by
  obtain ⟨rfl, rfl⟩ := formatX_ok _ _ _ _ h
  exact hj

theorem hasFields_of_formatNX {j : Nat → Bool → Instr} (h : formatNX j n x = .ok i)
    (hj : (j n.toNat x).hasFields op n x) : i.hasFields op n x :=
  formatNX_ok _ _ _ _ h ▸ hj

/-- Each row of the opcode map reads a command of the row's own opcode, whose operands are the fields N and X. -/
theorem hasFields_of_decodeFields (h : decodeFields op n x = .ok i) : i.hasFields op n x := by
  have hfits := mailboxIndexFits_toNat n
  have hn : BitVec.ofNat 8 n.toNat = n := by simp
  unfold decodeFields at h
  split at h
  -- the rows SETFILTER and SETFILTER_MB, the rows with a mailbox index alone, no row, and the rows without operands
  case h_5 hop => exact hasFields_of_formatX h ⟨rfl, BitVec.eq_of_toNat_eq hop.symm, rfl, rfl⟩
  case h_6 hop => exact hasFields_of_formatNX h ⟨hfits, BitVec.eq_of_toNat_eq hop.symm, hn, rfl⟩
  case h_9 hop | h_10 hop | h_13 hop | h_18 hop | h_19 hop =>
    exact hasFields_of_formatN h ⟨hfits, BitVec.eq_of_toNat_eq hop.symm, hn, rfl⟩
  case h_28 => cases h
  all_goals
    next hop => exact hasFields_of_formatPlain h ⟨rfl, BitVec.eq_of_toNat_eq hop.symm, rfl, rfl⟩

theorem decode_ok_iff :
    decode w = .ok i ↔ rsvField w = 0 ∧ decodeFields (opField w) (nField w) (xField w) = .ok i := by
  unfold decode
  split
  · next hr => simpa using fun h => absurd h hr
  · next hr => simp [not_not.1 hr]

theorem encode_of_hasFields (hr : rsvField w = 0) (h : i.hasFields (opField w) (nField w) (xField w)) :
    encode i = w := by
  obtain ⟨_, hop, hn, hx⟩ := h
  calc encode i
    _ = rsvField w ++ BitVec.ofBool (xField w) ++ nField w ++ opField w := by rw [encode, hop, hn, hx, hr]; rfl
    _ = w := (word_eq_fields w).symm

/-! ## The fields that are read -/

theorem formatPlain_accepts {j : Instr} : (∃ i, formatPlain j n x = .ok i) ↔ n = 0 ∧ x = false := by
  constructor
  · rintro ⟨i, h⟩
    obtain ⟨hn, hx, _⟩ := formatPlain_ok _ _ _ _ h
    exact ⟨hn, hx⟩
  · rintro ⟨rfl, rfl⟩
    exact ⟨j, rfl⟩

theorem formatN_accepts {j : Nat → Instr} : (∃ i, formatN j n x = .ok i) ↔ x = false := by
  constructor
  · rintro ⟨i, h⟩
    exact (formatN_ok _ _ _ _ h).1
  · rintro rfl
    exact ⟨j n.toNat, rfl⟩

theorem formatX_accepts {j : Bool → Instr} : (∃ i, formatX j n x = .ok i) ↔ n = 0 := by
  constructor
  · rintro ⟨i, h⟩
    exact (formatX_ok _ _ _ _ h).1
  · rintro rfl
    exact ⟨j x, rfl⟩

theorem formatNX_accepts {j : Nat → Bool → Instr} : ∃ i, formatNX j n x = .ok i := ⟨j n.toNat x, rfl⟩

/-- The opcode map reads an assigned opcode, with N and X not 0 only where its columns say so (R88, R90). -/
theorem decodeFields_accepts : (∃ i, decodeFields op n x = .ok i) ↔
    op.toNat ∈ assignedOpcodes ∧ (n = 0 ∨ op.toNat ∈ opcodesWithN) ∧ (x = false ∨ op.toNat ∈ opcodesWithX) := by
  unfold decodeFields
  split
  case h_28 => simp_all [assignedOpcodes]
  all_goals
    next hop =>
      simp [hop, assignedOpcodes, opcodesWithN, opcodesWithX, formatPlain_accepts, formatN_accepts, formatX_accepts,
        formatNX_accepts]

theorem isLegal_iff_decode : isLegal w = true ↔ ∃ i, decode w = .ok i := by
  unfold isLegal
  cases decode w <;> simp

theorem isLegal_iff_fields : isLegal w = true ↔
    rsvField w = 0 ∧ ∃ i, decodeFields (opField w) (nField w) (xField w) = .ok i := by
  rw [isLegal_iff_decode]
  simp only [decode_ok_iff, exists_and_left]

/-! ## The fields as numbers -/

theorem opField_toNat (w : Word) : (opField w).toNat = w.toNat % 256 := by
  simp [opField]

theorem nField_eq_zero_iff (w : Word) : nField w = 0 ↔ w.toNat / 2 ^ 8 % 256 = 0 := by
  simp [nField, BitVec.toNat_eq, Nat.shiftRight_eq_div_pow]

theorem xField_eq_false_iff (w : Word) : xField w = false ↔ w.toNat / 2 ^ 16 % 2 = 0 := by
  simp [xField, BitVec.getLsbD, Nat.testBit_eq_decide_div_mod_eq]

theorem rsvField_eq_zero_iff (w : Word) : rsvField w = 0 ↔ w.toNat / 2 ^ 17 = 0 := by
  have hlt : w.toNat / 2 ^ 17 < 2 ^ 15 := by omega
  have hnat : (rsvField w).toNat = w.toNat / 2 ^ 17 := by
    rw [rsvField, BitVec.extractLsb'_toNat, Nat.shiftRight_eq_div_pow, Nat.mod_eq_of_lt hlt]
  rw [BitVec.toNat_eq, hnat]
  rfl

end
end Sys2Proof
end

section
/-! SUPPORT. The obligations on command words (30_encoding.md) and on the command line that writes one. -/

namespace Sys2Proof.Claims

open Sys2Proof.Machine

/-- Settles O1: `decode_encode`, whose case split over the commands meets each row of the opcode map. -/
theorem decodeOfEncodeIsTheCommand : Obligations.DecodeOfEncodeIsTheCommand := decode_encode

/-- Settles O2: the command read from a word has the word's own fields, and a word is its fields. -/
theorem encodeOfDecodeIsTheWord : Obligations.EncodeOfDecodeIsTheWord := by
  intro w i h
  obtain ⟨hr, hdec⟩ := decode_ok_iff.1 h
  have hfields := hasFields_of_decodeFields hdec
  exact ⟨hfields.1, encode_of_hasFields hr hfields⟩

/-- Settles O3: what the opcode map admits of OP, N and X, said of the word's bits. -/
theorem legalWordsAreThoseOfTheOpcodeMap : Obligations.LegalWordsAreThoseOfTheOpcodeMap := by
  intro w
  rw [isLegal_iff_fields, decodeFields_accepts, opField_toNat, nField_eq_zero_iff, xField_eq_false_iff,
    rsvField_eq_zero_iff, and_left_comm]

/-- Settles O55: the line writes the encoding of its command to P.CMD, a legal word, which an idle port issues. -/
theorem commandLineIssuesItsCommand : Obligations.CommandLineIssuesItsCommand := by
  intro s p i ls rest hwf hb
  have hd := decode_encode i hwf
  refine ⟨_, rfl, fun hturn => ?_⟩
  obtain ⟨t, hstep, hport, _⟩ :=
    (commandWriteIssuesOrIsRefused s p (encode i) rest hturn).2 hb (isLegal_of_decode hd)
  exact ⟨t, encode i, hstep, by rw [hport], by rw [hport], hd⟩

/-- Settles O4: fourteen words, each decoded. -/
theorem exampleWordsDecodeAsTheSpecSays : Obligations.ExampleWordsDecodeAsTheSpecSays := by
  unfold Obligations.ExampleWordsDecodeAsTheSpecSays
  decide

end Sys2Proof.Claims
end

section
/-! SUPPORT. The laws of WATCH_RANGE's id and mask (40_filter_synthesizer.md R108), as facts about `rangeFilter`. -/

namespace Sys2Proof.Machine

/-! ## Order and the one-element range -/

theorem orderedRange_comm (a b : Word) : orderedRange a b = orderedRange b a := by
  unfold orderedRange
  rcases BitVec.lt_trichotomy a b with hlt | rfl | hgt
  · rw [if_neg (BitVec.lt_asymm hlt), if_pos hlt]
  · rfl
  · rw [if_pos hgt, if_neg (BitVec.lt_asymm hgt)]

theorem rangeFilter_comm (a b : Word) : rangeFilter a b = rangeFilter b a := by
  unfold rangeFilter
  rw [orderedRange_comm]

theorem rangeFilter_self (a : Word) : rangeFilter a a = (a, seed a) := by
  simp [rangeFilter, orderedRange, rangeClosed]

theorem seed_eq (v : Word) : seed v = if v.toNat ≤ 0x7FF then 0x7FF else 0x1FFFFFFF := by
  simp only [seed, BitVec.le_def]
  rfl

/-! ## Every identifier of the range is accepted -/

section
variable {lo hi : Word} {j : Nat}

/-- A bit that the mask keeps is the lower bound's in every integer of the loop. -/
theorem testBit_of_rangeByLoop_mask (hm : (rangeByLoop lo hi).2.getLsbD j = true) (k : Nat)
    (hk : k < hi.toNat - lo.toNat + 1) : (lo.toNat + k).testBit j = lo.getLsbD j := by
  obtain ⟨_, _, hbits⟩ := (getLsbD_rangeLoop_mask lo _ _ _ j (BitVec.lt_of_getLsbD hm) (Nat.succ_pos _)).1 hm
  exact hbits k hk

theorem getLsbD_of_rangeByLoop_mask (hm : (rangeByLoop lo hi).2.getLsbD j = true) (c : Word)
    (hlo : lo.toNat ≤ c.toNat) (hhi : c.toNat ≤ hi.toNat) : c.getLsbD j = lo.getLsbD j := by
  have hc := testBit_of_rangeByLoop_mask hm (c.toNat - lo.toNat) (by omega)
  rwa [Nat.add_sub_cancel' hlo] at hc

/-- The synthesized id has it too. -/
theorem getLsbD_rangeByLoop_id_of_mask (hm : (rangeByLoop lo hi).2.getLsbD j = true) :
    (rangeByLoop lo hi).1.getLsbD j = lo.getLsbD j := by
  rw [Bool.eq_iff_iff, rangeByLoop, getLsbD_rangeLoop_id lo _ _ _ j (BitVec.lt_of_getLsbD hm)]
  exact ⟨fun ⟨hid, _⟩ => hid, fun hid => ⟨hid, fun k hk => (testBit_of_rangeByLoop_mask hm k hk).trans hid⟩⟩

end

theorem and_rangeByLoop_mask (lo hi c : Word) (hlo : lo.toNat ≤ c.toNat) (hhi : c.toNat ≤ hi.toNat) :
    c &&& (rangeByLoop lo hi).2 = (rangeByLoop lo hi).1 &&& (rangeByLoop lo hi).2 := by
  refine BitVec.eq_of_getLsbD_eq fun j _ => ?_
  rw [BitVec.getLsbD_and, BitVec.getLsbD_and]
  cases hm : (rangeByLoop lo hi).2.getLsbD j with
  | false => simp only [Bool.and_false]
  | true => rw [getLsbD_of_rangeByLoop_mask hm c hlo hhi, getLsbD_rangeByLoop_id_of_mask hm]

theorem and_rangeFilter_mask (a b c : Word) (hlo : min a.toNat b.toNat ≤ c.toNat)
    (hhi : c.toNat ≤ max a.toNat b.toNat) :
    c &&& (rangeFilter a b).2 = (rangeFilter a b).1 &&& (rangeFilter a b).2 := by
  rw [rangeFilter_eq_loop]
  split
  · exact and_rangeByLoop_mask b a c (by omega) (by omega)
  · exact and_rangeByLoop_mask a b c (by omega) (by omega)

end Sys2Proof.Machine
end

section
/-! SUPPORT. The obligations on WATCH_ALL's installs under STD_FIRST and on the laws of WATCH_RANGE. -/

namespace Sys2Proof.Claims

open Sys2Proof.Machine

/-- Settles O30: STD_FIRST makes the first install the standard one and the second the extended one, whose status the
last segment completes with. -/
theorem watchAllInstallsBothFilters : Obligations.WatchAllInstallsBothFilters := by
  intro s ho
  refine ⟨fun hg => ⟨_, exec_first _ s hg, ?_⟩, fun s1 hg => ⟨_, exec_of_enabled _ s _ hg, ?_⟩,
    fun s2 hg => ⟨_, exec_of_enabled _ s _ hg, completes_complete s s2⟩⟩
  · simpa only [firstSegment, ho, watchAllExt] using calls_callDriver s _ (.setFilter 0 0 false) .secondInstall hg
  · simpa only [State.runSeg, State.secondInstall, ho, watchAllExt] using
      calls_callDriver s _ (.setFilter 0 0 true) .last hg

/-- The triple WATCH_RANGE shows the driver. -/
theorem exec_watchRange_out (s : State) (a b : Word) (hg : s.enabled = some .first)
    (ha : (s.port s.active).arg0 = a) (hb : (s.port s.active).arg1 = b) :
    ∃ t, exec .watchRange s = .next t ∧
      t.out = s.out ++ [.call s.active (.setFilter (rangeFilter a b).1 (rangeFilter a b).2
        (decide (0x7FF < (rangeFilter a b).1.toNat)))] := by
  subst ha hb
  refine ⟨_, exec_first _ s hg, ?_⟩
  rw [firstSegment, callDriver_out, stdOrExt_eq]

/-- Settles O33: the triple is `rangeFilter` of the operands, whose laws are those of R108. -/
theorem watchRangeObeysItsLaws : Obligations.WatchRangeObeysItsLaws := by
  intro s hg a b
  obtain ⟨t, ht, hout⟩ := exec_watchRange_out s a b hg rfl rfl
  refine ⟨t, (rangeFilter a b).1, (rangeFilter a b).2, ht, hout, ?swapped, ?single, ?standard, ?range, ?wide⟩
  case swapped =>
    intro s' hg' ha hb
    rw [rangeFilter_comm a b]
    exact exec_watchRange_out s' b a hg' ha hb
  case single =>
    intro hab
    rw [← hab, rangeFilter_self]
    exact ⟨rfl, seed_eq a⟩
  case standard =>
    intro ha hb
    rw [ha, hb]
    decide
  case range => exact and_rangeFilter_mask a b
  case wide =>
    intro ha hb
    rw [ha, hb]
    decide

end Sys2Proof.Claims
end

section
/-! SUPPORT. The first segments of the Listener Registry commands (41_listener_registry.md), one case of each rule at a
time: the search for a slot, and the rewriting of one mask. -/

namespace Sys2Proof.Machine

/-! ## The search for a slot (41_listener_registry.md R116, R117) -/

theorem lowestSlot_eq_none {slots : Vector Word 4} {h : Word} (hne : ∀ i : Fin 4, slots[i] ≠ h) :
    lowestSlot slots h = none := by
  have h0 : slots[0] ≠ h := hne 0
  have h1 : slots[1] ≠ h := hne 1
  have h2 : slots[2] ≠ h := hne 2
  have h3 : slots[3] ≠ h := hne 3
  simp [lowestSlot, h0, h1, h2, h3]

theorem lowestSlot_eq_some {slots : Vector Word 4} {h : Word} {i : Fin 4} (hi : slots[i] = h)
    (hlow : ∀ j : Fin 4, j < i → slots[j] ≠ h) : lowestSlot slots h = some i := by
  match i, hi, hlow with
  | 0, hi, _ => exact if_pos hi
  | 1, hi, hlow => exact (if_neg (hlow 0 (by decide))).trans (if_pos hi)
  | 2, hi, hlow => exact (if_neg (hlow 0 (by decide))).trans ((if_neg (hlow 1 (by decide))).trans (if_pos hi))
  | 3, hi, hlow =>
    exact (if_neg (hlow 0 (by decide))).trans
      ((if_neg (hlow 1 (by decide))).trans ((if_neg (hlow 2 (by decide))).trans (if_pos hi)))

theorem getElem_set_slot (slots : Vector Word 4) (i j : Fin 4) (h : Word) :
    (slots.set i h)[j] = if j = i then h else slots[j] := by
  simp [Vector.getElem_set, Fin.ext_iff, eq_comm]

/-! ## First segments -/

section
variable (s : State) (p : PortId)

theorem firstSegment_lAttach_fails (h : (s.port p).handle = 0 ∨ ∀ i : Fin 4, s.lslot[i] ≠ 0) :
    firstSegment .lAttach s p = s.complete p 0 := by
  rcases h with hnull | hfull
  · exact if_pos hnull
  · simp only [firstSegment, lowestSlot_eq_none hfull, ite_self]

theorem firstSegment_lAttach_stores {i : Fin 4} (hh : (s.port p).handle ≠ 0) (hi : s.lslot[i] = 0)
    (hlow : ∀ j : Fin 4, j < i → s.lslot[j] ≠ 0) :
    firstSegment .lAttach s p = ((s.setSlot i (s.port p).handle).setMask (s.port p).handle 0).complete p 1 := by
  simp only [firstSegment, if_neg hh, lowestSlot_eq_some hi hlow]

theorem firstSegment_lDetach_fails (h : (s.port p).handle = 0 ∨ ∀ i : Fin 4, s.lslot[i] ≠ (s.port p).handle) :
    firstSegment .lDetach s p = s.complete p 0 := by
  rcases h with hnull | hnone
  · exact if_pos hnull
  · simp only [firstSegment, lowestSlot_eq_none hnone, ite_self]

theorem firstSegment_lDetach_clears {i : Fin 4} (hh : (s.port p).handle ≠ 0) (hi : s.lslot[i] = (s.port p).handle)
    (hlow : ∀ j : Fin 4, j < i → s.lslot[j] ≠ (s.port p).handle) :
    firstSegment .lDetach s p = (s.setSlot i 0).complete p 1 := by
  simp only [firstSegment, if_neg hh, lowestSlot_eq_some hi hlow]

theorem updateMask_null (f : Mask → Mask) (hh : (s.port p).handle = 0) : s.updateMask p f = s.complete p 0 := if_pos hh

theorem updateMask_handle (f : Mask → Mask) (hh : (s.port p).handle ≠ 0) :
    s.updateMask p f =
      (s.setMask (s.port p).handle (f (MaskFile.get s.lmask (s.port p).handle))).complete p 0 := if_neg hh

/-- The four mask commands (R118 to R121) are the rewriting of one mask by a function that writes `b` to bit `n`. -/
theorem firstSegment_maskCommand {i : Instr} {n : Nat} {b : Bool} (hle : s.params.numFilters ≤ 32)
    (hi : (i = .lMbOn n ∧ b = true ∧ n < s.params.numFilters) ∨ (i = .lMbOff n ∧ b = false ∧ n < s.params.numFilters) ∨
      (i = .lGenOn ∧ b = true ∧ n = s.params.numFilters) ∨ (i = .lGenOff ∧ b = false ∧ n = s.params.numFilters)) :
    ∃ f : Mask → Mask, firstSegment i s p = s.updateMask p f ∧
      ∀ m j, (f m).getLsbD j = if j = n then b else m.getLsbD j := by
  rcases hi with ⟨rfl, rfl, hn⟩ | ⟨rfl, rfl, hn⟩ | ⟨rfl, rfl, rfl⟩ | ⟨rfl, rfl, rfl⟩
  · exact ⟨_, if_pos hn, fun m j => getLsbD_maskSetBit m n j (by omega)⟩
  · exact ⟨_, if_pos hn, fun m j => getLsbD_maskClearBit m n j (by omega)⟩
  · exact ⟨_, rfl, fun m j => getLsbD_maskSetBit m _ j hle⟩
  · exact ⟨_, rfl, fun m j => getLsbD_maskClearBit m _ j hle⟩

theorem firstSegment_maskCommand_outOfRange {i : Instr} {n : Nat} (hn : s.params.numFilters ≤ n)
    (hi : i = .lMbOn n ∨ i = .lMbOff n) : firstSegment i s p = s.complete p 0 := by
  rcases hi with rfl | rfl <;> exact if_neg (by omega)

theorem firstSegment_lActive (n : Nat) :
    firstSegment (.lActive n) s p = s.complete p (if (s.port p).handle = 0 ∨ s.params.numFilters < n then 0
      else zextBit ((MaskFile.get s.lmask (s.port p).handle).getLsbD n)) := by
  simp only [firstSegment, apply_ite (s.complete p)]

end

end Sys2Proof.Machine
end

section
/-! SUPPORT. The obligations on the Listener Registry (41_listener_registry.md). -/

namespace Sys2Proof.Claims

open Sys2Proof.Machine

/-- A completion after new contents of LSLOT and LMASK leaves everything outside those files and the port (R113). -/
theorem complete_registry_frame (s : State) (slots : Vector Word 4) (masks : MaskFile) (v : Word) :
    let t := State.complete { s with lslot := slots, lmask := masks } s.active v
    otherPortSame s t s.active ∧ callbacksSame s t ∧ driverFieldsSame s t ∧ t.params = s.params ∧ quiet s t :=
  ⟨fun q hq => (complete_port_ne _ _ q v hq).trans (by cases q <;> rfl), by simp [callbacksSame],
    by simp [driverFieldsSame], by simp, by simp [quiet]⟩

/-- A first segment that only completes makes the command complete and do nothing else. -/
theorem exec_completes {i : Instr} {s : State} {v : Word} (hg : s.enabled = some .first)
    (hseg : firstSegment i s s.active = s.complete s.active v) : ∃ t, exec i s = .next t ∧ completes s t v :=
  ⟨_, exec_first i s hg, hseg ▸ completes_complete s v⟩

/-- Settles O35: the search finds the lowest empty slot, and the two writes are to that slot and to that mask. -/
theorem attachTakesTheLowestEmptySlot : Obligations.AttachTakesTheLowestEmptySlot := by
  refine ⟨by decide, fun s hg hwf => ⟨fun hfail => exec_completes hg (firstSegment_lAttach_fails s _ hfail), ?_⟩⟩
  intro i hh hi hlow
  refine ⟨_, exec_first _ s hg, ?_⟩
  rw [firstSegment_lAttach_stores s _ hh hi hlow]
  refine ⟨by simp [donePort], fun j => ?_, fun h' => ?_, complete_registry_frame s _ _ 1⟩
  · simpa only [complete_lslot, setMask_lslot, setSlot_lslot] using getElem_set_slot s.lslot i j _
  · simpa only [complete_lmask, setMask_lmask, setSlot_lmask] using get_set s.lmask _ h' 0 hwf

/-- Settles O36: the search finds the lowest slot of the handle, and the one write is to that slot. -/
theorem detachClearsTheLowestSlotOfTheHandle : Obligations.DetachClearsTheLowestSlotOfTheHandle := by
  refine ⟨by decide, fun s hg => ⟨fun hfail => exec_completes hg (firstSegment_lDetach_fails s _ hfail), ?_⟩⟩
  intro i hh hi hlow
  refine ⟨_, exec_first _ s hg, ?_⟩
  rw [firstSegment_lDetach_clears s _ hh hi hlow]
  refine ⟨by simp [donePort], fun j => ?_, by simp, complete_registry_frame s _ s.lmask 1⟩
  simpa only [complete_lslot, setSlot_lslot] using getElem_set_slot s.lslot i j 0

/-- Settles O37: each command rewrites the handle's mask by a function that writes the one bit. -/
theorem maskCommandsWriteTheirOneBit : Obligations.MaskCommandsWriteTheirOneBit := by
  intro i n b s hg hinv hi
  obtain ⟨f, hseg, hbit⟩ := firstSegment_maskCommand s s.active hinv.filters_le hi
  refine ⟨fun hnull => exec_completes hg (hseg.trans (updateMask_null s _ f hnull)), fun hh => ?_⟩
  refine ⟨_, exec_first i s hg, ?_⟩
  rw [hseg, updateMask_handle s _ f hh]
  refine ⟨by simp [donePort], fun h' j => ?_, by simp, complete_registry_frame s s.lslot _ 0⟩
  rw [complete_lmask, setMask_lmask, get_set s.lmask _ h' _ hinv.lmask_wf]
  by_cases hh' : h' = (s.port s.active).handle
  · simp [hh', hbit]
  · simp [hh']

/-- Settles O38: with the index out of range the first segment is the completion alone. -/
theorem maskCommandsIgnoreAnIndexOutOfRange : Obligations.MaskCommandsIgnoreAnIndexOutOfRange :=
  fun _ _ s hg hn hi => exec_completes hg (firstSegment_maskCommand_outOfRange s _ hn hi)

/-- Settles O39: the first segment completes with the bit, whatever the slots hold. -/
theorem activeReadsOneMaskBit : Obligations.ActiveReadsOneMaskBit :=
  fun n s hg => exec_completes hg (firstSegment_lActive s _ n)

end Sys2Proof.Claims
end

section
/-! SUPPORT. The later segments of a transfer and the fan-out's (42_dispatch.md R125, R126), and the commands on the
callback tables (R138 to R141), one case of each rule at a time. -/

namespace Sys2Proof.Machine

/-! ## One slot of the fan-out -/

section
variable {s : State} {p : PortId} {k : Kind} {f : Frame} {j : Fin 4} {v : Word}

theorem slotSegment_empty (h0 : s.lslot[j] = 0) :
    s.slotSegment p k f j v = s.setPhase p (.ready (Seg.afterSlot k f j v)) := if_pos h0

theorem slotSegment_occupied (h0 : s.lslot[j] ≠ 0) :
    s.slotSegment p k f j v = s.notifyListener p { kind := k, slot := j, handle := s.lslot[j], frame := f } v :=
  if_neg h0

end

/-! ## First segments of the callback commands -/

section
variable {s : State} {p : PortId} {i : Instr} {n : Nat} {v : Word}

theorem firstSegment_callbackEntry (hi : (i = .cbSet n ∧ v = (s.port p).arg0) ∨ (i = .cbClr n ∧ v = 0)) :
    firstSegment i s p = (s.setCallback n v).complete p 0 := by
  rcases hi with ⟨rfl, rfl⟩ | ⟨rfl, rfl⟩ <;> rfl

theorem firstSegment_callbackGeneral (hi : (i = .cbGSet ∧ v = (s.port p).arg0) ∨ (i = .cbGClr ∧ v = 0)) :
    firstSegment i s p = State.complete { s with cbgen := v } p 0 := by
  rcases hi with ⟨rfl, rfl⟩ | ⟨rfl, rfl⟩ <;> rfl

theorem setCallback_inRange (hn : n < s.params.numFilters) : s.setCallback n v = { s with cbmb := s.cbmb.set n v } :=
  if_pos hn

theorem setCallback_outOfRange (hn : s.params.numFilters ≤ n) : s.setCallback n v = s := if_neg (by omega)

theorem getElem?_set_cbmb (hlen : s.cbmb.length = s.params.numFilters) {m : Nat} (hm : m < s.params.numFilters) :
    (s.cbmb.set n v)[m]? = if m = n then some v else s.cbmb[m]? := by
  by_cases hmn : m = n
  · subst hmn
    rw [if_pos rfl, List.getElem?_set_self (hlen.symm ▸ hm)]
  · rw [if_neg hmn, List.getElem?_set_ne (Ne.symm hmn)]

end
end Sys2Proof.Machine
end

section
/-! SUPPORT. The obligations on the Dispatch Engine's fan-out and callback tables (42_dispatch.md). -/

namespace Sys2Proof.Claims

open Sys2Proof.Machine

/-! ## Frames -/

/-- A change of phase of the active port's command is a change of nothing else. -/
theorem setPhase_active_frame {s : State} {g : Seg} (hg : s.enabled = some g) (ph : Phase) :
    let t := s.setPhase s.active ph
    atPhase s t ph ∧ otherPortSame s t s.active ∧ sharedSame s t ∧ quiet s t := by
  obtain ⟨w, hs⟩ := (enabled_iff s g).1 hg
  obtain ⟨hport, hframe⟩ := setPhase_frame s s.active w _ ph s.schedule hs
  exact ⟨⟨w, _, hs, hport⟩, hframe⟩

/-- A notification of the active port's command shows that notification, and the command waits. -/
theorem notifyListener_active_frame {s : State} {g : Seg} (hg : s.enabled = some g) (n : Notification) (v : Word) :
    let t := s.notifyListener s.active n v
    atPhase s t (.notification s.out.length n v) ∧ t.out = s.out ++ [.notification s.active n] ∧
      t.faults = s.faults ∧ t.schedule = s.schedule ∧ otherPortSame s t s.active ∧ sharedSame s t := by
  obtain ⟨w, hs⟩ := (enabled_iff s g).1 hg
  exact ⟨⟨w, _, hs, notifyListener_port_same s _ n v w _ hs⟩, notifyListener_out .., notifyListener_faults ..,
    notifyListener_schedule .., fun q hq => notifyListener_port_ne s _ q n v hq,
    by simp [sharedSame, callbacksSame, driverFieldsSame]⟩

/-- A completion after new contents of the callback tables leaves everything outside them and the port (R142). -/
theorem complete_callbacks_frame (s : State) (table : List Word) (general v : Word) :
    let t := State.complete { s with cbmb := table, cbgen := general } s.active v
    t.lslot = s.lslot ∧ t.lmask = s.lmask ∧ otherPortSame s t s.active ∧ driverFieldsSame s t ∧
      t.params = s.params ∧ quiet s t :=
  ⟨by simp, by simp, fun q hq => (complete_port_ne _ _ q v hq).trans (by cases q <;> rfl), by simp [driverFieldsSame],
    by simp, by simp [quiet]⟩

theorem complete_callbacks_port (s : State) (table : List Word) (general v : Word) :
    (State.complete { s with cbmb := table, cbgen := general } s.active v).port s.active =
      donePort (s.port s.active) v :=
  (complete_port_same ..).trans (by cases s.active <;> rfl)

/-- The end of a run that has changed nothing but the outputs: the port is done, and all else is as it was. -/
theorem ended_frame (s : State) (p : PortId) (v : Word) (os : List Output) (l : List Turn) :
    let t := s.ended p v os l
    t.out = s.out ++ os ∧ t.port p = donePort (s.port p) v ∧ otherPortSame s t p ∧ sharedSame s t ∧
      t.faults = s.faults ∧ t.schedule = l := by
  have e (q : PortId) : State.port { s with out := s.out ++ os, schedule := l } q = s.port q := by cases q <;> rfl
  refine ⟨complete_out .., ?_, fun q hq => ?_, ?_, complete_faults .., complete_schedule ..⟩
  · rw [State.ended, complete_port_same, e, donePort]
  · rw [State.ended, complete_port_ne _ _ _ _ hq, e]
  · simp [State.ended, sharedSame, callbacksSame, driverFieldsSame]

/-! ## The answer to a transfer's call -/

/-- Settles O41: the segment after the ok either completes with it or changes the phase to slot 0's. -/
theorem transmitAnswerFansOutOnSuccess : Obligations.TransmitAnswerFansOutOnSuccess :=
  fun i s _ _ => ⟨fun hg => ⟨_, exec_of_enabled i s _ hg, completes_complete s 0⟩,
    fun hg => ⟨_, exec_of_enabled i s _ hg, setPhase_active_frame hg _⟩⟩

/-- A count of 0: the frame is stored and the command completes with 0. -/
theorem exec_receivedNothing {s : State} {f : Frame} (i : Instr) (hg : s.enabled = some (.received 0 f)) :
    ∃ t, exec i s = .next t ∧ t.port s.active = donePort ((s.storeFrame s.active f).port s.active) 0 ∧
      otherPortSame s t s.active ∧ sharedSame s t ∧ quiet s t := by
  refine ⟨_, exec_of_enabled i s _ hg, ?_⟩
  rw [State.runSeg, State.afterReceive, if_pos rfl]
  exact ⟨complete_port_same .., fun q hq => (complete_port_ne _ _ q _ hq).trans (storeFrame_port_ne s _ q f hq),
    by simp [sharedSame, callbacksSame, driverFieldsSame], by simp [quiet]⟩

/-- Any other count: the frame is stored and consumed, and the command goes on to slot 0. -/
theorem exec_receivedFrame {s : State} {n : Word} {f : Frame} (i : Instr) (hn : n ≠ 0)
    (hg : s.enabled = some (.received n f)) :
    ∃ t w, exec i s = .next t ∧ (s.port s.active).seq = .run w (.ready (.received n f)) ∧
      t.port s.active =
        { (s.storeFrame s.active f).port s.active with seq := .run w (.ready (.slot .rx f 0 n)) } ∧
      t.faults = (s.consumeFrame f).faults ∧ t.out = s.out ∧ t.schedule = s.schedule ∧
      otherPortSame s t s.active ∧ sharedSame s t := by
  obtain ⟨w, hs⟩ := (enabled_iff s _).1 hg
  have hs' : (((s.storeFrame s.active f).consumeFrame f).port s.active).seq = .run w (.ready (.received n f)) := by
    rw [consumeFrame_port, storeFrame_port_seq, hs]
  refine ⟨_, w, exec_of_enabled i s _ hg, hs, ?_⟩
  rw [State.runSeg, State.afterReceive, if_neg hn]
  refine ⟨?_, by simp, by simp, by simp, fun q hq => ?_, by simp [sharedSame, callbacksSame, driverFieldsSame]⟩
  · rw [setPhase_port_same _ _ w _ _ hs', consumeFrame_port]
  · rw [setPhase_port_ne _ _ _ _ hq, consumeFrame_port, storeFrame_port_ne s _ q f hq]

/-- Settles O42: both counts store the frame in the register of its format. -/
theorem receiveAnswerStoresTheFrameAndFansOut : Obligations.ReceiveAnswerStoresTheFrameAndFansOut := by
  refine fun s => ⟨fun f hg => ?_, fun f hg => ?_, fun n f hn hg => ?_, fun n f hn hg => ?_⟩
  · have h := exec_receivedNothing .recv hg
    rwa [storeFrame_classic_port] at h
  · have h := exec_receivedNothing .recvFd hg
    rwa [storeFrame_fd_port] at h
  · have h := exec_receivedFrame .recv hn hg
    rwa [storeFrame_classic_port] at h
  · have h := exec_receivedFrame .recvFd hn hg
    rwa [storeFrame_fd_port] at h

/-! ## The fan-out -/

/-- Settles O43: the slot's segment notifies or passes on by what the slot holds, and the last one completes. -/
theorem fanOutNotifiesTheHandleInTheSlot : Obligations.FanOutNotifiesTheHandleInTheSlot := by
  refine fun i s k f j v _ => ⟨fun hg h0 => ⟨_, exec_of_enabled i s _ hg, ?_⟩,
    fun hg h0 => ⟨_, exec_of_enabled i s _ hg, ?_⟩, fun hg => ⟨_, exec_of_enabled i s _ hg, completes_complete s v⟩⟩
  · rw [State.runSeg, slotSegment_occupied h0]
    exact notifyListener_active_frame hg _ v
  · rw [State.runSeg, slotSegment_empty h0]
    exact setPhase_active_frame hg _

/-- Settles O44: the run from slot 0 on ends with the outputs of all four slots. -/
theorem fanOutNotifiesEveryOccupiedSlotInOrder : Obligations.FanOutNotifiesEveryOccupiedSlotInOrder :=
  fun s _ _ k f v rest hd _ hs hl =>
    ⟨_, run_fanOut hd 0 s rest hs hl, ended_frame s s.active v (fanOutputsFrom s.active k f s.lslot 0) rest⟩

/-! ## The callback tables -/

/-- Settles O49: each command completes after one write to one table, or none where the index is out of range. -/
theorem callbackCommandsWriteTheirEntry : Obligations.CallbackCommandsWriteTheirEntry := by
  intro n s hg hinv
  refine ⟨fun i v hi => ⟨fun hn => ⟨_, exec_first i s hg, ?_⟩, fun hn => exec_completes hg ?_⟩,
    fun i v hi => ⟨_, exec_first i s hg, ?_⟩⟩
  · rw [firstSegment_callbackEntry hi, setCallback_inRange hn]
    refine ⟨complete_callbacks_port s _ s.cbgen 0, fun m hm => ?_, ?_, complete_cbgen ..,
      complete_callbacks_frame s _ s.cbgen 0⟩
    · rw [complete_cbmb, getElem?_set_cbmb hinv.cbmb_length hm]
    · rw [complete_cbmb, List.length_set, hinv.cbmb_length]
  · rw [firstSegment_callbackEntry hi, setCallback_outOfRange hn]
  · rw [firstSegment_callbackGeneral hi]
    exact ⟨complete_callbacks_port s s.cbmb v 0, complete_cbgen .., complete_cbmb ..,
      complete_callbacks_frame s s.cbmb v 0⟩

end Sys2Proof.Claims
end

section
/-! SUPPORT. The Format Bridge (43_format_bridge.md): when FD2C fails, that each conversion undoes the other (R148), and
the one segment of FD2C in either case. -/

namespace Sys2Proof.Machine

/-- When FD2C fails (R147). -/
theorem fdToClassicFails_iff (f : FdFrame) : fdToClassicFails f = true ↔ 8 < f.length.toNat ∨ f.fdMode = true := by
  simp [fdToClassicFails, Config.classicCap]

theorem getElem_classicToFd_data (c : ClassicFrame) (f : FdFrame) (j : Nat) (hj : j < 64) :
    (classicToFd c f).data[j] = if h : j < 8 then c.data[j] else f.data[j] := Vector.getElem_ofFn hj

theorem getElem_fdToClassic_data (f : FdFrame) (j : Nat) (hj : j < 8) : (fdToClassic f).data[j] = f.data[j] :=
  Vector.getElem_ofFn hj

theorem fdToClassic_classicToFd (c : ClassicFrame) (f : FdFrame) : fdToClassic (classicToFd c f) = c := by
  have hdata : (fdToClassic (classicToFd c f)).data = c.data := by
    refine Vector.ext fun j hj => ?_
    rw [getElem_fdToClassic_data _ j hj, getElem_classicToFd_data, dif_pos hj]
  exact congrArg (fun d => { c with data := d }) hdata

/-- Bytes 8 to 63 are those that C2FD keeps, and the FD-mode flag is the 0 that it writes. -/
theorem classicToFd_fdToClassic {f : FdFrame} (hmode : f.fdMode = false) : classicToFd (fdToClassic f) f = f := by
  have hdata : (classicToFd (fdToClassic f) f).data = f.data := by
    refine Vector.ext fun j hj => ?_
    rw [getElem_classicToFd_data]
    split
    · exact getElem_fdToClassic_data f j ‹_›
    · rfl
  calc classicToFd (fdToClassic f) f
    _ = { f with fdMode := false, data := f.data } := congrArg (fun d => { f with fdMode := false, data := d }) hdata
    _ = f := by rw [← hmode]

section
variable {s : State} {p : PortId}

theorem firstSegment_fd2c_fails (h : 8 < (s.port p).ff.length.toNat ∨ (s.port p).ff.fdMode = true) :
    firstSegment .fd2c s p = (s.consumeFrame (.fd (s.port p).ff)).complete p 0 := if_pos ((fdToClassicFails_iff _).2 h)

theorem firstSegment_fd2c_copies (hlen : (s.port p).ff.length.toNat ≤ 8) (hmode : (s.port p).ff.fdMode = false) :
    firstSegment .fd2c s p =
      ((s.consumeFrame (.fd (s.port p).ff)).storeFrame p (.classic (fdToClassic (s.port p).ff))).complete p 1 :=
  if_neg (by rw [fdToClassicFails_iff]; simp [hlen, hmode])

/-- A LENGTH of at most 8 is within an FD frame's capacity of 64, so nothing is recorded (R161). -/
theorem consumeFrame_fd_faults_of_le (f : FdFrame) (hlen : f.length.toNat ≤ 8) :
    (s.consumeFrame (.fd f)).faults = s.faults := by
  have h64 : ¬ 64 < f.length.toNat := by omega
  simp [Frame.overCapacity, Config.fdCap, h64]

end

end Sys2Proof.Machine
end

section
/-! SUPPORT. The obligations on the Format Bridge (43_format_bridge.md). -/

namespace Sys2Proof.Claims

open Sys2Proof.Machine

/-! ## The one segment of each command -/

/-- A segment that consumes the frame `g`, stores `f` on its port and completes leaves everything outside the port and
the fault record. -/
theorem consume_store_complete_frame (s : State) (g f : Frame) (v : Word) :
    let t := ((s.consumeFrame g).storeFrame s.active f).complete s.active v
    t.faults = (s.consumeFrame g).faults ∧ t.out = s.out ∧ t.schedule = s.schedule ∧ otherPortSame s t s.active ∧
      sharedSame s t := by
  refine ⟨(complete_faults ..).trans (storeFrame_faults ..), by simp, by simp, fun q hq => ?_,
    by simp [sharedSame, callbacksSame, driverFieldsSame]⟩
  rw [complete_port_ne _ _ _ _ hq, storeFrame_port_ne _ _ _ _ hq, consumeFrame_port]

/-- C2FD's segment (R146). -/
theorem exec_c2fd {s : State} (hg : s.enabled = some .first) :
    ∃ t, exec .c2fd s = .next t ∧
      t.port s.active = donePort { s.port s.active with
        ff := classicToFd (s.port s.active).cf (s.port s.active).ff } 1 ∧
      t.faults = afterConsuming s.faults (s.port s.active).cf.length 8 ∧ t.out = s.out ∧ t.schedule = s.schedule ∧
      otherPortSame s t s.active ∧ sharedSame s t :=
  ⟨_, exec_first _ s hg, by simp [firstSegment, donePort], consume_store_complete_frame s _ _ 1⟩

/-- FD2C's segment where it fails (R147). -/
theorem exec_fd2c_fails {s : State} (hg : s.enabled = some .first)
    (hfail : 8 < (s.port s.active).ff.length.toNat ∨ (s.port s.active).ff.fdMode = true) :
    ∃ t, exec .fd2c s = .next t ∧ t.port s.active = donePort (s.port s.active) 0 ∧
      t.faults = afterConsuming s.faults (s.port s.active).ff.length 64 ∧ t.out = s.out ∧ t.schedule = s.schedule ∧
      otherPortSame s t s.active ∧ sharedSame s t := by
  refine ⟨_, exec_first _ s hg, ?_⟩
  rw [firstSegment_fd2c_fails hfail]
  exact ⟨by simp [donePort], complete_faults .., by simp, by simp,
    fun q hq => (complete_port_ne _ _ _ _ hq).trans (consumeFrame_port ..),
    by simp [sharedSame, callbacksSame, driverFieldsSame]⟩

/-- FD2C's segment where it succeeds (R147). -/
theorem exec_fd2c_copies {s : State} (hg : s.enabled = some .first) (hlen : (s.port s.active).ff.length.toNat ≤ 8)
    (hmode : (s.port s.active).ff.fdMode = false) :
    ∃ t, exec .fd2c s = .next t ∧
      t.port s.active = donePort { s.port s.active with cf := fdToClassic (s.port s.active).ff } 1 ∧
      quiet s t ∧ otherPortSame s t s.active ∧ sharedSame s t := by
  refine ⟨_, exec_first _ s hg, ?_⟩
  rw [firstSegment_fd2c_copies hlen hmode]
  obtain ⟨hfaults, hout, hschedule, hframe⟩ := consume_store_complete_frame s (.fd (s.port s.active).ff)
    (.classic (fdToClassic (s.port s.active).ff)) 1
  exact ⟨by simp [donePort], ⟨hout, hfaults.trans (consumeFrame_fd_faults_of_le _ hlen), hschedule⟩, hframe⟩

/-! ## The next command on the same port -/

section
variable {s t : State} (hother : otherPortSame s t s.active) (w : Word)
include hother

/-- A command issued after the active port's has completed: that port is again the active one. -/
theorem active_reissue : (t.issue s.active w).active = s.active := by
  cases h : s.active with
  | app =>
    have hisr : t.isr = s.isr := hother .isr (by simp [h])
    rw [← h]
    exact active_eq_of_isr_seq _ _ (by rw [h, ← hisr]; rfl)
  | isr => rfl

theorem port_reissue : (t.issue s.active w).port (t.issue s.active w).active =
    { t.port s.active with busy := true, seq := .run w (.ready .first) } := by
  rw [active_reissue hother, issue_port_same]

theorem enabled_reissue : (t.issue s.active w).enabled = some .first :=
  enabled_of_seq _ w _ (congrArg Port.seq (port_reissue hother w))

end

/-! ## The obligations -/

theorem completedWith_of_donePort {t : State} {p : PortId} {r : Port} {v : Word} (h : t.port p = donePort r v) :
    completedWith t p v := ⟨congrArg Port.result h, congrArg Port.busy h⟩

/-- Settles O51: the frame stored is `classicToFd` of the two frames, whose payload is the one field with a rule by
cases. -/
theorem classicToFdCopiesEveryField : Obligations.ClassicToFdCopiesEveryField := by
  refine ⟨by decide, fun s hg => ?_⟩
  obtain ⟨t, ht, hport, hframe⟩ := exec_c2fd hg
  refine ⟨t, _, ht, hport, rfl, rfl, rfl, rfl, rfl, rfl, rfl, rfl, fun j => ?_, fun j hj => ?_, hframe⟩
  · exact (getElem_classicToFd_data _ _ j _).trans (dif_pos j.isLt)
  · exact (getElem_classicToFd_data _ _ j j.isLt).trans (dif_neg (by omega))

/-- Settles O52: FD2C stores `fdToClassic` of the FD frame where it succeeds, and stores nothing where it fails. -/
theorem fdToClassicCopiesOrFails : Obligations.FdToClassicCopiesOrFails := by
  refine ⟨by decide, fun s hg => ⟨fun hfail => ?_, fun hlen hmode => ?_⟩⟩
  · obtain ⟨t, ht, hport, hframe⟩ := exec_fd2c_fails hg hfail
    exact ⟨t, ht, hport, hport ▸ rfl, hframe⟩
  · obtain ⟨t, ht, hport, hframe⟩ := exec_fd2c_copies hg hlen hmode
    exact ⟨t, _, ht, hport, rfl, rfl, rfl, rfl, rfl, rfl, rfl, fun j => getElem_fdToClassic_data _ j j.isLt, hframe⟩

/-- Settles O53: the second command runs on the port that the first has left, and the two conversions undo each other. -/
theorem formatBridgeRoundTrips : Obligations.FormatBridgeRoundTrips := by
  refine fun s w w' hg => ⟨fun hlen => ?_, fun hlossy => ?_, fun hlen hmode => ?_⟩
  · obtain ⟨t, ht, hport, -, -, -, hother, -⟩ := exec_c2fd hg
    have hissued := port_reissue hother w'
    rw [hport] at hissued
    obtain ⟨u, hu, hport', -⟩ := exec_fd2c_copies (enabled_reissue hother w') (by rw [hissued]; exact hlen)
      (by rw [hissued]; rfl)
    rw [hissued, active_reissue hother] at hport'
    refine ⟨t, u, ht, hu, completedWith_of_donePort hport, completedWith_of_donePort hport', ?_⟩
    exact (congrArg Port.cf hport').trans (fdToClassic_classicToFd _ _)
  · obtain ⟨t, ht, hport, -⟩ := exec_fd2c_fails hg (hlossy.imp_left fun h9 => by rw [h9]; decide)
    exact ⟨t, ht, completedWith_of_donePort hport, hport ▸ rfl⟩
  · obtain ⟨t, ht, hport, -, hother, -⟩ := exec_fd2c_copies hg hlen hmode
    have hissued := port_reissue hother w
    rw [hport] at hissued
    obtain ⟨u, hu, hport', -⟩ := exec_c2fd (enabled_reissue hother w)
    rw [hissued, active_reissue hother] at hport'
    refine ⟨t, u, ht, hu, completedWith_of_donePort hport, completedWith_of_donePort hport', ?_⟩
    exact (congrArg Port.ff hport').trans (classicToFd_fdToClassic hmode)

end Sys2Proof.Claims
end

section
/-! SUPPORT. The obligation on the capability and fault queries (44_capability.md). -/

namespace Sys2Proof.Claims

open Sys2Proof.Machine

/-- The one segment of a query (R149): it completes with the flag `b` that the query names. -/
theorem firstSegment_query {i : Instr} {b : Bool} (s : State) (p : PortId)
    (hi : (i = .qFault ∧ b = s.flags.faulted) ∨ (i = .qRxFault ∧ b = s.flags.rxFault) ∨
      (i = .qTxFault ∧ b = s.flags.txFault) ∨ (i = .qFdCap ∧ b = s.flags.fdcap)) :
    firstSegment i s p = s.complete p (zextBit b) := by
  obtain ⟨rfl, rfl⟩ | ⟨rfl, rfl⟩ | ⟨rfl, rfl⟩ | ⟨rfl, rfl⟩ := hi
  · rfl
  · rfl
  · rfl
  · rfl

/-- Settles O54: each query's first segment only completes, with its own flag zero-extended. -/
theorem queriesReturnTheirFlag : Obligations.QueriesReturnTheirFlag :=
  ⟨by decide, fun _ _ s hg hi => exec_completes hg (firstSegment_query s _ hi)⟩

end Sys2Proof.Claims
end

section
/-! SUPPORT. Which operations set an ILLEGAL bit, and the order in which fault records grow (60_exceptions.md R161). -/

namespace Sys2Proof.Machine

/-! ## ILLEGAL bits under the state's operations -/

section
variable {s t : State} {p q : PortId}

theorem setPort_port_illegal {r : Port} (hr : r.illegal = (s.port p).illegal) :
    ((s.setPort p r).port q).illegal = (s.port q).illegal := by
  by_cases hq : q = p
  · subst hq
    rw [port_setPort_same, hr]
  · rw [port_setPort_ne _ _ _ _ hq]

theorem setPhase_port_illegal (ph : Phase) : ((s.setPhase p ph).port q).illegal = (s.port q).illegal := by
  rw [State.setPhase]
  split
  · rfl
  · exact setPort_port_illegal rfl

/-- Of the effects of a host write only the refusal sets an ILLEGAL bit, and it is recorded. -/
theorem memWrite_port_illegal (a n : Nat) (v : Word) :
    ((s.memWrite a n v).port q).illegal = (s.port q).illegal ∨ (s.memWrite a n v).faults.illegalCommand = true := by
  obtain e | e | ⟨p, e | ⟨_, ⟨_, e⟩ | ⟨r, e⟩⟩⟩ := memWrite_cases s a n v <;> rw [e]
  · exact .inl rfl
  · exact .inl (by rw [recordBadAccess_port])
  · exact .inr (by rw [raiseIllegalCommand_faults])
  · exact .inl (setPort_port_illegal rfl)
  · exact .inl (setPort_port_illegal (storeReg_fields _ r v).2.2.1)

/-- A port's ILLEGAL bit that is set after an input was set before it, or IllegalCommand is recorded. -/
theorem input_port_illegal {x : Input} (h : s.input x = .next t) (ht : (t.port q).illegal = true) :
    (s.port q).illegal = true ∨ t.faults.illegalCommand = true := by
  cases x with
  | memRead a n =>
    cases h
    exact .inl (by rwa [memRead_port_same] at ht)
  | memWrite a n v =>
    cases h
    exact (memWrite_port_illegal a n v).imp_left fun e => e.symm.trans ht
  | driverAnswer p tag a =>
    obtain rfl | ⟨_, _, _, _, g, _, _, _, rfl⟩ := answer_cases s t p tag a h
    · exact .inl ht
    · exact .inl (by rwa [setPhase_port_illegal] at ht)
  | listenerAck p tag =>
    cases h
    obtain e | ⟨_, _, _, _, e⟩ := acknowledge_cases s p tag <;> rw [e] at ht
    · exact .inl ht
    · exact .inl (by rwa [setPhase_port_illegal] at ht)
  | driverStatus w =>
    cases h
    exact .inl (by rwa [writeStatus_port] at ht)
  | callbackRead r =>
    cases h
    exact .inl (by rwa [emit_port] at ht)
  | rst =>
    cases h
    rw [rst_port] at ht
    cases ht

end

/-! ## Recorded faults -/

/-- Every fault recorded in `f` is recorded in `f'`. -/
def FaultRecord.le (f f' : FaultRecord) : Prop :=
  (f.illegalCommand = true → f'.illegalCommand = true) ∧
  (f.badRegisterAccess = true → f'.badRegisterAccess = true) ∧
  (f.lengthContract = true → f'.lengthContract = true)

theorem FaultRecord.le_refl (f : FaultRecord) : f.le f := ⟨id, id, id⟩

theorem FaultRecord.le_illegalCommand (f : FaultRecord) : f.le { f with illegalCommand := true } :=
  ⟨fun _ => rfl, id, id⟩

theorem FaultRecord.le_badRegisterAccess (f : FaultRecord) : f.le { f with badRegisterAccess := true } :=
  ⟨id, fun _ => rfl, id⟩

theorem FaultRecord.le_lengthContract (f : FaultRecord) : f.le { f with lengthContract := true } :=
  ⟨id, id, fun _ => rfl⟩

theorem blockTurn_faults_le {s t : State} (h : blockTurn s = .next t) : s.faults.le t.faults := by
  obtain e | ⟨_, _, _, _, _, _, _, e⟩ := blockTurn_faults s t h <;> rw [e]
  · exact FaultRecord.le_refl _
  · exact FaultRecord.le_lengthContract _

end Sys2Proof.Machine
end

section
/-! SUPPORT. The obligations on IllegalCommand and the fault record (60_exceptions.md). -/

namespace Sys2Proof.Claims

open Sys2Proof.Machine

/-! ## Refused writes -/

theorem writeReg_refused {s : State} {p : PortId} {r : Reg} {v : Word} (h : refusedWrite s p r v) :
    s.writeReg p r v = s.raiseIllegalCommand p := by
  cases hb : (s.port p).busy with
  | true =>
    have hr : r.readOnly = false := by
      obtain ⟨rfl, _⟩ | ⟨_, rfl | hr⟩ := h
      · rfl
      · rfl
      · exact (not_readOnly_of_stored r hr).1
    exact writeReg_busy s p r v hr hb
  | false =>
    obtain ⟨rfl, hl⟩ | ⟨hb', _⟩ := h
    · rw [writeReg_cmd s p v hb, hl, if_neg Bool.false_ne_true]
    · exact absurd hb' (by simp [hb])

/-- IllegalCommand raised after an entry of the schedule was taken off: it sets the port's ILLEGAL bit and the record of
it, and all else is as it was. -/
theorem raiseIllegalCommand_frame (s : State) (p : PortId) (l : List Turn) :
    let t := State.raiseIllegalCommand { s with schedule := l } p
    t.port p = { s.port p with illegal := true } ∧ otherPortSame s t p ∧ sharedSame s t ∧ t.out = s.out ∧
      t.faults = { s.faults with illegalCommand := true } ∧ t.schedule = l := by
  refine ⟨?_, fun q hq => ?_, ?_⟩
  · rw [raiseIllegalCommand_port_same, withSchedule_port]
  · rw [raiseIllegalCommand_port_ne _ _ _ hq, withSchedule_port]
  · simp [sharedSame, callbacksSame, driverFieldsSame]

/-- Settles O8: each listed write is refused, and a refusal only raises IllegalCommand. -/
theorem refusedWriteSetsIllegalAndNothingElse : Obligations.RefusedWriteSetsIllegalAndNothingElse := by
  intro s p r v rest h hcases
  have hrefused : refusedWrite { s with schedule := rest } p r v := by
    rw [refusedWrite, withSchedule_port]
    exact hcases.imp_left fun ⟨hr, _, hl⟩ => ⟨hr, hl⟩
  have hstep := step_memWrite_port s p r v rest h
  rw [writeReg_refused hrefused] at hstep
  exact ⟨_, hstep, raiseIllegalCommand_frame s p rest⟩

/-! ## The fault record -/

theorem InputFaults.le {s : State} {x : Input} {f : FaultRecord} (h : InputFaults s x f) : s.faults.le f := by
  cases h with
  | same => exact FaultRecord.le_refl _
  | badRead => exact FaultRecord.le_badRegisterAccess _
  | badWrite => exact FaultRecord.le_badRegisterAccess _
  | refused => exact FaultRecord.le_illegalCommand _

theorem step_faults_le {s t : State} (h : step s = .next t) : s.faults.le t.faults := by
  obtain ⟨l, ⟨_, ht⟩ | ⟨x, _, ht⟩⟩ := step_next_cases s t h
  · exact blockTurn_faults_le (s := { s with schedule := l }) ht
  · exact (input_faults _ t x ht).le

/-- A port's ILLEGAL bit that is set after a step was set before it, or IllegalCommand is recorded. -/
theorem step_port_illegal {s t : State} {p : PortId} (h : step s = .next t) (ht : (t.port p).illegal = true) :
    (s.port p).illegal = true ∨ t.faults.illegalCommand = true := by
  obtain ⟨l, ⟨_, hturn⟩ | ⟨x, _, hinput⟩⟩ := step_next_cases s t h
  · obtain ⟨_, _, _, e⟩ := blockTurn_port_kept _ t p hturn
    rw [withSchedule_port] at e
    exact .inl (e ▸ ht)
  · simpa only [withSchedule_port] using input_port_illegal hinput ht

/-- Settles O18: a turn of the block and an input only add to the record, and only a refusal sets an ILLEGAL bit. -/
theorem faultRecordIsNeverCleared : Obligations.FaultRecordIsNeverCleared := by
  intro s t h
  obtain ⟨hillegal, hbad, hlength⟩ := step_faults_le h
  refine ⟨hillegal, hbad, hlength, fun p hclear hset => (step_port_illegal h hset).resolve_left ?_⟩
  rw [hclear]
  exact Bool.false_ne_true

end Sys2Proof.Claims
end
